-- ==== Sys2Proof/Word.lean ====
section
/-! DEFINITION. The word types of the Rover PWM block (spec/00_scope.md R10). -/

namespace Sys2Proof

/-- A command word `cmd[39:0]` (30_encoding.md R80). -/
abbrev Command := BitVec 40

/-- One byte of the chip's register space: a register number or a register's contents (20_memory.md R50). -/
abbrev Byte := BitVec 8

/-- A tick count `u12`, 0..4095 (10_state.md R31). -/
abbrev Tick := BitVec 12

/-- A packed colour `u24`: red 23:16, green 15:8, blue 7:0 (10_state.md R29). -/
abbrev Color := BitVec 24

/-- The two-wire bus address of a chip, 7 bits (93_implementation_defined.md list P). -/
abbrev ChipAddr := BitVec 7

end Sys2Proof
end

