-- ==== Sys2Proof/Syntax.lean ====
section
/-! DEFINITION. The thirteen commands of spec/30_encoding.md R94, one constructor each. -/

namespace Sys2Proof

/-- A command with its operands as the command's pseudocode sees them (30_encoding.md R99). An operand
that the rules slice as bits (ticks, packed colours, the RGB inputs) is a bit vector of its field's
width; an operand that the rules treat as a number is a `Nat` (unsigned field) or an `Int`
(two's-complement field), and `WellFormed` holds it to the field's range. -/
inductive Instr where
  /-- 40_pwm_driver.md R127. -/
  | init
  /-- 40_pwm_driver.md R128. -/
  | setfreq (hz : Nat)
  /-- 40_pwm_driver.md R129. -/
  | setch (ch : Nat) (on off : Tick)
  /-- 41_color_engine.md R152. -/
  | setcolor (unit : Nat) (color : Color)
  /-- 41_color_engine.md R153. -/
  | setall (color : Color)
  /-- 41_color_engine.md R154. -/
  | setbright (value : Int)
  /-- 41_color_engine.md R155. -/
  | rgb (r g b : BitVec 10)
  /-- 41_color_engine.md R156. -/
  | hsl (h : Nat) (sat lum : Int)
  /-- 42_motor_engine.md R191. -/
  | run (motor : Nat) (speed : Int)
  /-- 42_motor_engine.md R192. -/
  | rundual (speedA speedB : Int)
  /-- 42_motor_engine.md R193. -/
  | move (speed : Int)
  /-- 42_motor_engine.md R194. -/
  | stop (motor : Nat)
  /-- 42_motor_engine.md R195. -/
  | stopall
  deriving DecidableEq, Repr

end Sys2Proof
end

