-- ==== Sys2Proof/WellFormed.lean ====
section
/-! DEFINITION. The operand ranges of spec/30_encoding.md R99 (and R100: "An operand outside the integer
range of rule R99 is an assembly error"). -/

namespace Sys2Proof

/-- An unsigned field of `n` bits holds `v`. -/
def fitsU (n v : Nat) : Bool := decide (v < 2 ^ n)

/-- A two's-complement field of `n + 1` bits holds `v`. -/
def fitsS (n : Nat) (v : Int) : Bool := decide (-(2 ^ n : Int) ≤ v) && decide (v < (2 ^ n : Int))

/-- Every operand lies in the range that R99 gives its field. Operands that are bit vectors of the
field's width need no check. -/
def Instr.wellFormed : Instr → Bool
  | .init => true
  | .setfreq hz => fitsU 16 hz
  | .setch ch _ _ => fitsU 8 ch
  | .setcolor unit _ => fitsU 8 unit
  | .setall _ => true
  | .setbright value => fitsS 15 value
  | .rgb _ _ _ => true
  | .hsl h sat lum => fitsU 16 h && fitsS 7 sat && fitsS 7 lum
  | .run motor speed => fitsU 8 motor && fitsS 15 speed
  | .rundual speedA speedB => fitsS 15 speedA && fitsS 15 speedB
  | .move speed => fitsS 15 speed
  | .stop motor => fitsU 8 motor
  | .stopall => true

end Sys2Proof
end

