-- ==== Sys2Proof/Decode.lean ====
section
/-! DEFINITION. The command encoding of spec/30_encoding.md Part A: the decoder (R94, R95, R99) and the
encoder (R100), each written from the spec's tables. -/

namespace Sys2Proof

/-- The rows of the opcode map, by name. -/
inductive Op where
  | init | setfreq | setch | setcolor | setall | setbright | rgb | hsl
  | run | rundual | move | stop | stopall
  deriving DecidableEq, Repr

/-- One row of R94. -/
structure OpcodeRow where
  op : Op
  opcode : BitVec 8
  matchWord : Command
  mask : Command
  deriving DecidableEq, Repr

/-- The opcode map of R94 (also spec/opcode_table.json). -/
def opcodeTable : List OpcodeRow :=
  [⟨.init,      0x01#8, 0x0100000000#40, 0xFFFFFFFFFF#40⟩,
   ⟨.setfreq,   0x02#8, 0x0200000000#40, 0xFFFFFF0000#40⟩,
   ⟨.setch,     0x03#8, 0x0300000000#40, 0xFF00000000#40⟩,
   ⟨.setcolor,  0x10#8, 0x1000000000#40, 0xFF00000000#40⟩,
   ⟨.setall,    0x11#8, 0x1100000000#40, 0xFFFF000000#40⟩,
   ⟨.setbright, 0x12#8, 0x1200000000#40, 0xFFFFFF0000#40⟩,
   ⟨.rgb,       0x13#8, 0x1300000000#40, 0xFFC0000000#40⟩,
   ⟨.hsl,       0x14#8, 0x1400000000#40, 0xFF00000000#40⟩]
  ++
  [⟨.run,       0x20#8, 0x2000000000#40, 0xFF00FF0000#40⟩,
   ⟨.rundual,   0x21#8, 0x2100000000#40, 0xFF00000000#40⟩,
   ⟨.move,      0x22#8, 0x2200000000#40, 0xFFFFFF0000#40⟩,
   ⟨.stop,      0x23#8, 0x2300000000#40, 0xFF00FFFFFF#40⟩,
   ⟨.stopall,   0x24#8, 0x2400000000#40, 0xFFFFFFFFFF#40⟩]

/-- Why a word spells no command (R96). -/
inductive DecodeError where
  /-- No row of R94 has the opcode. -/
  | unassignedOpcode
  /-- The opcode is assigned and a reserved bit is not 0 (R81). -/
  | reservedBits
  deriving DecidableEq, Repr

/-- The decoder's answer: "one of the thirteen commands with its operand values" or "illegal" (R95). -/
inductive Decoded where
  | instr (i : Instr)
  | illegal (e : DecodeError)
  deriving DecidableEq, Repr

/-- The unsigned field of `n` bits from bit `lo` up (R98: every field is one contiguous slice). -/
def fieldU (w : Command) (lo n : Nat) : Nat := (w.extractLsb' lo n).toNat

/-- The two's-complement field of `n` bits from bit `lo` up (R99). -/
def fieldS (w : Command) (lo n : Nat) : Int := (w.extractLsb' lo n).toInt

/-- `op = cmd[39:32]` (R80). -/
def opcodeOf (w : Command) : BitVec 8 := w.extractLsb' 32 8

/-- The row an instruction belongs to. -/
def Instr.op : Instr → Op
  | .init => .init
  | .setfreq _ => .setfreq
  | .setch _ _ _ => .setch
  | .setcolor _ _ => .setcolor
  | .setall _ => .setall
  | .setbright _ => .setbright
  | .rgb _ _ _ => .rgb
  | .hsl _ _ _ => .hsl
  | .run _ _ => .run
  | .rundual _ _ => .rundual
  | .move _ => .move
  | .stop _ => .stop
  | .stopall => .stopall

/-- The operands of a row's format, cut from the payload (formats R82 to R93). -/
def Op.cut (w : Command) : Op → Instr
  | .init => .init
  | .setfreq => .setfreq (fieldU w 0 16)
  | .setch => .setch (fieldU w 24 8) (w.extractLsb' 12 12) (w.extractLsb' 0 12)
  | .setcolor => .setcolor (fieldU w 24 8) (w.extractLsb' 0 24)
  | .setall => .setall (w.extractLsb' 0 24)
  | .setbright => .setbright (fieldS w 0 16)
  | .rgb => .rgb (w.extractLsb' 20 10) (w.extractLsb' 10 10) (w.extractLsb' 0 10)
  | .hsl => .hsl (fieldU w 16 16) (fieldS w 8 8) (fieldS w 0 8)
  | .run => .run (fieldU w 24 8) (fieldS w 0 16)
  | .rundual => .rundual (fieldS w 16 16) (fieldS w 0 16)
  | .move => .move (fieldS w 0 16)
  | .stop => .stop (fieldU w 24 8)
  | .stopall => .stopall

/-- The decoding procedure of R95: find the opcode's row, test match and mask, cut the fields. -/
def decode (w : Command) : Decoded :=
  match opcodeTable.find? (fun r => r.opcode == opcodeOf w) with
  | none => .illegal .unassignedOpcode
  | some r => if w &&& r.mask = r.matchWord then .instr (r.op.cut w) else .illegal .reservedBits

/-- `(op << 32) OR payload` (R100). -/
def commandWord (op : BitVec 8) (payload : BitVec 32) : Command := op ++ payload

/-- The command word of an instruction: the payload column of R100. An operand outside its field's
range (an ill-formed instruction) contributes its low bits only; no decoded instruction is ill-formed. -/
def encode : Instr → Command
  | .init => commandWord 0x01#8 0#32
  | .setfreq hz => commandWord 0x02#8 (0#16 ++ BitVec.ofNat 16 hz)
  | .setch ch on off => commandWord 0x03#8 (BitVec.ofNat 8 ch ++ on ++ off)
  | .setcolor unit color => commandWord 0x10#8 (BitVec.ofNat 8 unit ++ color)
  | .setall color => commandWord 0x11#8 (0#8 ++ color)
  | .setbright value => commandWord 0x12#8 (0#16 ++ BitVec.ofInt 16 value)
  | .rgb r g b => commandWord 0x13#8 (0#2 ++ r ++ g ++ b)
  | .hsl h sat lum => commandWord 0x14#8 (BitVec.ofNat 16 h ++ BitVec.ofInt 8 sat ++ BitVec.ofInt 8 lum)
  | .run motor speed => commandWord 0x20#8 (BitVec.ofNat 8 motor ++ 0#8 ++ BitVec.ofInt 16 speed)
  | .rundual speedA speedB => commandWord 0x21#8 (BitVec.ofInt 16 speedA ++ BitVec.ofInt 16 speedB)
  | .move speed => commandWord 0x22#8 (0#16 ++ BitVec.ofInt 16 speed)
  | .stop motor => commandWord 0x23#8 (BitVec.ofNat 8 motor ++ 0#24)
  | .stopall => commandWord 0x24#8 0#32

/-- The command whose bits are `w`, as spec/opcode_table.json numbers them: one 40-bit word, bit 0 its
least significant (R80: "a parallel 40-bit value", so no byte order). Bits from `nbits` up are 0. -/
def tableWord (nbits w : Nat) : Command := BitVec.ofNat 40 (w % 2 ^ nbits)

/-- The instruction the decoder reads from a table word. -/
def decodeTableWord (nbits w : Nat) : Option Instr :=
  match decode (tableWord nbits w) with
  | .instr i => some i
  | .illegal _ => none

end Sys2Proof
end

