-- ==== Sys2Proof/Config.lean ====
section
/-! DEFINITION. The parameters of the block (spec/00_scope.md R6, R7), the constants the document fixes,
and the free values the environment supplies. -/

namespace Sys2Proof

/-- The four LED units (41_color_engine.md; numbered 1 to 4, 92_eei_decisions.md D9). -/
inductive LedUnit where
  | u1 | u2 | u3 | u4
  deriving DecidableEq, Repr

/-- The two motor units (42_motor_engine.md; numbered 1 and 2, 92_eei_decisions.md D9). -/
inductive MotorUnit where
  | m1 | m2
  deriving DecidableEq, Repr

/-- `LED_CH[u]`: the three channels an LED unit owns (10_state.md R34). A channel is in 0..15 by its
type (00_scope.md R7 (d)). -/
structure LedChannels where
  red : Fin 16
  green : Fin 16
  blue : Fin 16
  deriving DecidableEq, Repr, Inhabited

/-- `MOTOR_FWD[m]` and `MOTOR_REV[m]` (10_state.md R34). -/
structure MotorChannels where
  forward : Fin 16
  reverse : Fin 16
  deriving DecidableEq, Repr, Inhabited

/-- The OPEN parameters of 00_scope.md R6. -/
structure Params where
  /-- `CHIP_ADDR` (D4). -/
  chipAddr : ChipAddr
  /-- `MODE_REG` (D5). -/
  modeReg : Byte
  /-- `PRESCALE_REG` (D5). -/
  prescaleReg : Byte
  /-- `REG_BASE` (D5). -/
  regBase : Byte
  /-- `MODE_RESET_VALUE` (D6). -/
  modeResetValue : Byte
  /-- `SLEEP_MASK` (D6). -/
  sleepMask : Byte
  /-- `SLEEP_KEEP_MASK` (D6). -/
  sleepKeepMask : Byte
  /-- `WAKE_MASK` (D6). -/
  wakeMask : Byte
  /-- `INIT_HZ` (D7). -/
  initHz : Nat
  /-- `MOTOR_FWD[1]`, `MOTOR_REV[1]` (D8). -/
  motor1 : MotorChannels
  /-- `MOTOR_FWD[2]`, `MOTOR_REV[2]` (D8). -/
  motor2 : MotorChannels
  /-- `LED_CH[1]` (D8). -/
  led1 : LedChannels
  /-- `LED_CH[2]` (D8). -/
  led2 : LedChannels
  /-- `LED_CH[3]` (D8). -/
  led3 : LedChannels
  /-- `LED_CH[4]` (D8). -/
  led4 : LedChannels
  deriving DecidableEq, Repr, Inhabited

/-- The channels of a motor unit. -/
def Params.motor (p : Params) : MotorUnit → MotorChannels
  | .m1 => p.motor1
  | .m2 => p.motor2

/-- The channels of an LED unit. -/
def Params.led (p : Params) : LedUnit → LedChannels
  | .u1 => p.led1
  | .u2 => p.led2
  | .u3 => p.led3
  | .u4 => p.led4

/-- The 16 entries of the three channel maps (00_scope.md R7 (e)). -/
def Params.channels (p : Params) : List (Fin 16) :=
  [p.motor1.forward, p.motor1.reverse, p.motor2.forward, p.motor2.reverse,
   p.led1.red, p.led1.green, p.led1.blue, p.led2.red, p.led2.green, p.led2.blue,
   p.led3.red, p.led3.green, p.led3.blue, p.led4.red, p.led4.green, p.led4.blue]

namespace Config

/-- `OSC_HZ` (00_scope.md R6, fixed). -/
def oscHz : Nat := 25000000
/-- `TICKS` (00_scope.md R6, fixed). -/
def ticks : Nat := 4096
/-- `WAKE_DELAY_US` (00_scope.md R6, fixed: a lower bound). -/
def wakeDelayUs : Nat := 5000
/-- `BRIGHTNESS_RESET` (00_scope.md R6, fixed). -/
def brightnessReset : Byte := 255#8
/-- `HZ_MIN` (40_pwm_driver.md R123, derived). -/
def hzMin : Nat := 24
/-- `HZ_MAX` (40_pwm_driver.md R123, derived). -/
def hzMax : Nat := 12207

end Config

/-- `r` lies among the 64 channel register bytes `[REG_BASE, REG_BASE + 63]`. -/
def Params.inChannelGroup (p : Params) (r : Byte) : Bool :=
  decide (p.regBase.toNat ≤ r.toNat) && decide (r.toNat ≤ p.regBase.toNat + 63)

/-- The constraints (a), (b), (c), (e) of 00_scope.md R7; (d) holds by the channels' type. -/
def Params.valid (p : Params) : Bool :=
  decide (p.regBase.toNat + 63 ≤ 255)
    && !(p.inChannelGroup p.modeReg)
    && !(p.inChannelGroup p.prescaleReg)
    && decide (p.modeReg ≠ p.prescaleReg)
    && decide (Config.hzMin ≤ p.initHz)
    && decide (p.initHz ≤ Config.hzMax)
    && decide p.channels.Nodup

/-- The defaults of 00_scope.md R6, which the spec uses "only by the worked examples and test vectors". -/
def Params.default : Params where
  chipAddr := 0x40#7
  modeReg := 0x00#8
  prescaleReg := 0xFE#8
  regBase := 0x06#8
  modeResetValue := 0x00#8
  sleepMask := 0x10#8
  sleepKeepMask := 0xFF#8
  wakeMask := 0xA0#8
  initHz := 50
  motor1 := ⟨0, 1⟩
  motor2 := ⟨2, 3⟩
  led1 := ⟨4, 5, 6⟩
  led2 := ⟨7, 8, 9⟩
  led3 := ⟨10, 11, 12⟩
  led4 := ⟨13, 14, 15⟩

/-- The environment's answer to one bus transaction: the status `ok` or `fail`, and the byte a read
that succeeds returns (00_scope.md R13; a write ignores the byte). -/
structure BusAnswer where
  ok : Bool
  byte : Byte
  deriving DecidableEq, Repr, Inhabited

namespace Config

/-- A free value: some parameter assignment (log entry 1). -/
opaque rawParams : Params

/-- The block's parameters: any assignment that meets R7 may stand here. An assignment that breaks a
constraint is turned away (00_scope.md R7: "A model may refuse a parameter assignment that breaks a
constraint"); DESIGN CHOICE, log entry 1: the defaults stand in its place, so that the constant meets
R7 whatever `rawParams` is. -/
def params : Params := if rawParams.valid then rawParams else Params.default

/-- The free values of the environment: the answer to the bus transaction of a given number, "any u8"
and `ok` or `fail` with "no law on when" (20_memory.md R58, 60_exceptions.md R223; log entry 3). -/
opaque busAnswer : Nat → BusAnswer

end Config

end Sys2Proof
end

