-- ==== Sys2Proof/Machine/Operands.lean ====
section
/-! DEFINITION. The pure arithmetic of the commands: unit selection, integer operations (spec/00_scope.md
R11), the prescale (40_pwm_driver.md R122), brightness scaling (41_color_engine.md R150), the HSL steps
(R157 to R163), the speed mapping (42_motor_engine.md R190) and the frame bytes (30_encoding.md R102). -/

namespace Sys2Proof.Machine

/-- `idiv(a, b)`: integer division truncating toward zero (00_scope.md R11). -/
def idiv (a b : Int) : Int := a.tdiv b

/-- `abs(a)` (00_scope.md R11). -/
def absInt (a : Int) : Int := (a.natAbs : Int)

/-- `clamp(v, lo, hi)` (00_scope.md R11). -/
def clamp (v lo hi : Int) : Int := if v < lo then lo else if v > hi then hi else v

/-- The LED unit an operand names: 1..4, no unit otherwise (30_encoding.md R85). -/
def ledUnit? : Nat → Option LedUnit
  | 1 => some .u1
  | 2 => some .u2
  | 3 => some .u3
  | 4 => some .u4
  | _ => none

/-- The motor unit an operand names: 1 or 2, no unit otherwise (30_encoding.md R90). -/
def motorUnit? : Nat → Option MotorUnit
  | 1 => some .m1
  | 2 => some .m2
  | _ => none

/-- The units in "fixed order 1→4" (41_color_engine.md R153). -/
def allLedUnits : List LedUnit := [.u1, .u2, .u3, .u4]

/-- Where a unit's colour stands in `ledColor`. -/
def ledIndex : LedUnit → Fin 4
  | .u1 => 0
  | .u2 => 1
  | .u3 => 2
  | .u4 => 3

/-- `prescale(hz)` in the integer form of 40_pwm_driver.md R122, for `hz >= 1`. -/
def prescale (hz : Nat) : Int :=
  idiv (2 * Config.oscHz + Config.ticks * hz) (2 * Config.ticks * hz) - 1

/-- The test of 40_pwm_driver.md R123 and R128: `hz < HZ_MIN or hz > HZ_MAX`. -/
def freqOutOfRange (hz : Nat) : Bool := decide (hz < Config.hzMin) || decide (hz > Config.hzMax)

/-- The byte written to the prescale register (30_encoding.md R105). -/
def prescaleByte (hz : Nat) : Byte := BitVec.ofInt 8 (prescale hz)

/-- The register address of channel `c`'s first byte, `REG_BASE + 4*c` (20_memory.md R52). It does not
wrap under 00_scope.md R7 (a). -/
def frameAddr (p : Params) (c : Nat) : Byte := p.regBase + BitVec.ofNat 8 (4 * c)

/-- `(off << 16) OR on`, both zero-extended (20_memory.md R54). -/
def tickWord (on off : Tick) : BitVec 32 := (off.setWidth 32 <<< 16) ||| on.setWidth 32

/-- The 5-byte buffer of `MemWrite(reg, 4, v)` (00_scope.md R13). -/
def bufferBytes (reg : Byte) (v : BitVec 32) : List Byte :=
  [reg, v.extractLsb' 0 8, v.extractLsb' 8 8, v.extractLsb' 16 8, v.extractLsb' 24 8]

/-- Red, green and blue of a packed colour (10_state.md R29). -/
def redOf (c : Color) : Byte := c.extractLsb' 16 8
/-- Green, bits 15:8. -/
def greenOf (c : Color) : Byte := c.extractLsb' 8 8
/-- Blue, bits 7:0. -/
def blueOf (c : Color) : Byte := c.extractLsb' 0 8

/-- Packing three components, red high (10_state.md R29). -/
def pack (r g b : Byte) : Color := r ++ g ++ b

/-- `scale(comp, br)` (41_color_engine.md R150): the bypass at 255, else `(comp * br) >> 8`. -/
def scale (comp br : Byte) : Nat :=
  if br = 255#8 then comp.toNat else (comp.toNat * br.toNat) >>> 8

/-- The duty of a scaled component, `16 * r` (41_color_engine.md R151). -/
def ledDuty (comp br : Byte) : Tick := BitVec.ofNat 12 (16 * scale comp br)

/-- The stored brightness, `clamp(value, 0, 255)` (41_color_engine.md R154). -/
def brightnessOf (value : Int) : Byte := BitVec.ofInt 8 (clamp value 0 255)

/-- The low 8 bits of an RGB input (41_color_engine.md R155: `r[7:0]`). -/
def low8 (v : BitVec 10) : Byte := v.extractLsb' 0 8

/-- `normalise(h, s, l)`, the hue: `h mod 360` (41_color_engine.md R157). -/
def hslHue (h : Nat) : Int := ((h % 360 : Nat) : Int)

/-- `normalise(h, s, l)`, saturation and luminosity: `clamp(·, 0, 99)` (41_color_engine.md R157). -/
def hslClamp (v : Int) : Int := clamp v 0 99

/-- `chroma(s', l')` (41_color_engine.md R158). `<< 8` is `* 256` (00_scope.md R11). -/
def hslChroma (s' l' : Int) : Int := idiv (((100 - absInt (2 * l' - 100)) * s') * 256) 10000

/-- `h1` of `sector(h')` (41_color_engine.md R159). -/
def hslSector (h' : Int) : Int := idiv h' 60

/-- `h2` of `sector(h')` (41_color_engine.md R159; formula from general knowledge, log entry 9). -/
def hslOffset (h' : Int) : Int := idiv ((h' - 60 * hslSector h') * 256) 60

/-- `t` of 41_color_engine.md R160 (log entry 9). -/
def hslDistance (h1 h2 : Int) : Int := absInt (((h1 % 2) * 256 + h2) - 256)

/-- `second(c, h1, h2)`: `x = (c * (256 - t)) >> 8` (41_color_engine.md R160; log entry 9). -/
def hslSecond (c h1 h2 : Int) : Int := idiv (c * (256 - hslDistance h1 h2)) 256

/-- `select(h1, c, x)`: the sector table of 41_color_engine.md R161 (log entry 9). -/
def hslSelect (h1 c x : Int) : Int × Int × Int :=
  if h1 = 0 then (c, x, 0)
  else if h1 = 1 then (x, c, 0)
  else if h1 = 2 then (0, c, x)
  else if h1 = 3 then (0, x, c)
  else if h1 = 4 then (x, 0, c)
  else (c, 0, x)

/-- `offset(l', c)` (41_color_engine.md R162; log entry 9). -/
def hslLift (l' c : Int) : Int := idiv (idiv ((2 * l') * 256) 100 - c) 2

/-- The three components before packing, `r0 + m`, `g0 + m`, `b0 + m`, of normalised inputs
(41_color_engine.md R156: rules R158 to R162 in order). -/
def hslComponents (h' s' l' : Int) : Int × Int × Int :=
  let c := hslChroma s' l'
  let x := hslSecond c (hslSector h') (hslOffset h')
  let m := hslLift l' c
  let rgb := hslSelect (hslSector h') c x
  (rgb.1 + m, rgb.2.1 + m, rgb.2.2 + m)

/-- The packed colour HSL computes (41_color_engine.md R156, R163). -/
def hslColor (h : Nat) (sat lum : Int) : Color :=
  let v := hslComponents (hslHue h) (hslClamp sat) (hslClamp lum)
  pack (BitVec.ofInt 8 v.1) (BitVec.ofInt 8 v.2.1) (BitVec.ofInt 8 v.2.2)

/-- `e` of 42_motor_engine.md R190: unit 2 is mounted mirrored. -/
def effectiveSpeed : MotorUnit → Int → Int
  | .m1, speed => speed
  | .m2, speed => -speed

/-- `d` of 42_motor_engine.md R190: scaled by 16, saturated to ±4095. -/
def motorDuty (m : MotorUnit) (speed : Int) : Int :=
  let d := 16 * effectiveSpeed m speed
  if d ≥ 4096 then 4095 else if d ≤ -4096 then -4095 else d

/-- The duty of the forward channel (42_motor_engine.md R190). -/
def forwardDuty (d : Int) : Tick := if d ≥ 0 then BitVec.ofInt 12 d else 0#12

/-- The duty of the reverse channel (42_motor_engine.md R190). -/
def reverseDuty (d : Int) : Tick := if d ≥ 0 then 0#12 else BitVec.ofInt 12 (-d)

end Sys2Proof.Machine
end

