-- ==== Sys2Proof/Machine/State.lean ====
section
/-! DEFINITION. The state of the block (spec/10_state.md), its trace, the host's and the environment's
inputs, the parameters, and the state right after reset (R37). -/

namespace Sys2Proof.Machine

/-- The three causes of 60_exceptions.md R221. They are architectural state (`State.fault`), not
outcomes of `step`: raising one is a NEXT state. -/
inductive FaultCause where
  /-- Code 1: the presented word is illegal (30_encoding.md R96). -/
  | illegalCommand
  /-- Code 2: SETFREQ outside `HZ_MIN..HZ_MAX` (40_pwm_driver.md R128). -/
  | freqRange
  /-- Code 3: the transport reports failure for a transaction (60_exceptions.md R223). -/
  | busError
  deriving DecidableEq, Repr

/-- The events of the trace (00_scope.md R13, R14, R16). Each bus event carries the chip address it was
sent to (20_memory.md R51) and whether it succeeded; "marked failed" is `ok = false`, and for a read
`byte = none` ("A failed read returns no byte", 60_exceptions.md R223). Log entry 4. -/
inductive Event where
  /-- `W(reg, v)`. -/
  | write (chip : ChipAddr) (reg val : Byte) (ok : Bool)
  /-- `B([reg, b1, b2, b3, b4])`. -/
  | buffer (chip : ChipAddr) (bytes : List Byte) (ok : Bool)
  /-- `R(reg, byte)`. -/
  | read (chip : ChipAddr) (reg : Byte) (byte : Option Byte)
  /-- `D(us)`. -/
  | delay (us : Nat)
  deriving DecidableEq, Repr

/-- Everything the spec gives the block, with the host's and the environment's inputs beside it. -/
structure State where
  /-- `initialized` (10_state.md R24). -/
  initialized : Bool
  /-- `brightness` (R27). -/
  brightness : Byte
  /-- `led_color[1..4]` (R28), unit `u` at index `u - 1`. -/
  ledColor : Vector Color 4
  /-- `ch_on[0..15]` (R31); `none` is *unknown* (R32). -/
  chOn : Vector (Option Tick) 16
  /-- `ch_off[0..15]` (R31); `none` is *unknown* (R32). -/
  chOff : Vector (Option Tick) 16
  /-- `result` (R33); `none` is *unknown*. -/
  result : Option Color
  /-- `fault` (R25). -/
  fault : Option FaultCause
  /-- `fault_cmd` (R25); `none` is *unknown*. -/
  faultCmd : Option Command
  /-- The trace (00_scope.md R16), oldest event first. -/
  trace : List Event
  /-- The host's list of command words (10_state.md R21). -/
  program : List Command
  /-- The host's cursor into `program` (10_state.md R21). -/
  cursor : Nat
  /-- The reset input (00_scope.md R9, 92_eei_decisions.md D1): the host asserts it between commands. -/
  resetInput : Bool
  /-- The bus answers the environment has lined up, next one first (log entry 3). -/
  busScript : List BusAnswer
  /-- How many bus answers have been taken; it selects the free answer `Config.busAnswer` gives once
  `busScript` has run out (log entry 3). The model's own field. -/
  drawCount : Nat
  /-- The parameters (00_scope.md R6; 10_state.md R34: no command changes them). Log entry 2. -/
  params : Params
  deriving DecidableEq, Repr

/-- Why `step` could stop with a fault. There is no constructor: every fault of the spec is a state
(60_exceptions.md R224, R225), so no step ends this way (log entry 5). -/
inductive Fault where
  deriving DecidableEq, Repr

/-- Why `step` could refuse. -/
inductive Refusal where
  /-- Raised by an arm of `exec` whose instruction has no meaning yet; none is left. Safe. -/
  | notModelled (mnemonic : String)
  deriving DecidableEq, Repr

/-- The state right after reset (10_state.md R37, 70_reset_and_hazards.md R250). The host's and the
environment's fields are empty (log entry 11) and the parameters are the uninterpreted
`Config.params` (log entry 1). -/
def State.reset : State where
  initialized := false
  brightness := Config.brightnessReset
  ledColor := Vector.replicate 4 0x000000#24
  chOn := Vector.replicate 16 none
  chOff := Vector.replicate 16 none
  result := none
  fault := none
  faultCmd := none
  trace := []
  program := []
  cursor := 0
  resetInput := false
  busScript := []
  drawCount := 0
  params := Config.params

end Sys2Proof.Machine
end

