-- ==== Sys2Proof/Machine/Ops.lean ====
section
/-! DEFINITION. The named operations every command is built from: sequencing with early stop (spec/00_scope.md
R15, R17), fault entry (60_exceptions.md R224), the bus primitives (00_scope.md R13), the delay (R14),
register writes, reset (70_reset_and_hazards.md R250) and the host's command port (10_state.md R21). -/

namespace Sys2Proof.Machine

/-- A command in progress: it goes on, or a `raise` has stopped it (00_scope.md R15). -/
inductive Flow where
  | going (s : State)
  | stopped (s : State)
  deriving DecidableEq, Repr

/-- The state reached, either way: "State written before the raise stays written" (00_scope.md R15). -/
def Flow.state : Flow → State
  | .going s => s
  | .stopped s => s

/-- The next statement of the pseudocode runs only if nothing has been raised (00_scope.md R15). -/
def Flow.andThen (f : Flow) (k : State → Flow) : Flow :=
  match f with
  | .going s => k s
  | .stopped s => .stopped s

/-- `for x in xs: f x` (00_scope.md R17), stopping at the first raise. -/
def forEach {α : Type} (f : α → State → Flow) : List α → State → Flow
  | [], s => .going s
  | x :: xs, s => (f x s).andThen (forEach f xs)

/-- A command ends, normally or by a raise: both are next states (60_exceptions.md R224). -/
def endCommand (f : Flow) : Host.Outcome State Fault Refusal := .next f.state

/-- Fault entry (60_exceptions.md R224; 10_state.md R25: set "if it is `none`"): `fault` and `fault_cmd`
are written, "Nothing else is saved and nothing else changes". -/
def raiseFault (cause : FaultCause) (cmd : Command) (s : State) : State :=
  if s.fault.isSome then s else { s with fault := some cause, faultCmd := some cmd }

/-- Return from a fault is reset and nothing else (60_exceptions.md R227; 70_reset_and_hazards.md R250):
the block's state takes the values of 10_state.md R37 and the trace starts anew. The parameters stay (10_state.md R34);
so do the host's list and the environment's answers, which are not the block's; the cursor of the new
run starts at 0 (10_state.md R21) and the reset input is taken back (log entry 7). -/
def hostReset (s : State) : State :=
  { State.reset with
    program := s.program
    busScript := s.busScript
    drawCount := s.drawCount
    params := s.params }

/-- The answer the environment gives to the `k`-th bus transaction from here on: the one lined up in
`busScript`, or a free value where nothing is lined up (log entry 3). -/
def answerAt (s : State) (k : Nat) : BusAnswer :=
  (s.busScript[k]?).getD (Config.busAnswer (s.drawCount + k))

/-- `n` answers have been used. -/
def takeAnswers (n : Nat) (s : State) : State :=
  { s with busScript := s.busScript.drop n, drawCount := s.drawCount + n }

/-- Append one event to the trace (00_scope.md R16). -/
def emit (e : Event) (s : State) : State := { s with trace := s.trace ++ [e] }

/-- How every bus primitive ends (60_exceptions.md R223): on `ok` the command continues, on `fail` it
raises `BusError`. -/
def checkStatus (cmd : Command) (ok : Bool) (s : State) : Flow :=
  if ok then .going s else .stopped (raiseFault .busError cmd s)

/-- `MemWrite(reg, 1, v)` (00_scope.md R13). `cmd` is the word of the command being executed. -/
def memWrite1 (cmd : Command) (reg v : Byte) (s : State) : Flow :=
  checkStatus cmd (answerAt s 0).ok
    (emit (.write s.params.chipAddr reg v (answerAt s 0).ok) (takeAnswers 1 s))

/-- `MemWrite(reg, 4, v)`: one 5-byte buffer as a single transaction (00_scope.md R13). -/
def memWrite4 (cmd : Command) (reg : Byte) (v : BitVec 32) (s : State) : Flow :=
  checkStatus cmd (answerAt s 0).ok
    (emit (.buffer s.params.chipAddr (bufferBytes reg v) (answerAt s 0).ok) (takeAnswers 1 s))

/-- `MemRead(reg, 1)` (00_scope.md R13): `k` receives the byte. The byte is the environment's, any u8
(20_memory.md R58). -/
def memRead (cmd : Command) (reg : Byte) (k : Byte → State → Flow) (s : State) : Flow :=
  let a := answerAt s 0
  (checkStatus cmd a.ok
    (emit (.read s.params.chipAddr reg (if a.ok then some a.byte else none)) (takeAnswers 1 s))).andThen
    (k a.byte)

/-- `Delay(us)` (00_scope.md R14): an event; "It cannot fail". -/
def delay (us : Nat) (s : State) : Flow := .going (emit (.delay us) s)

/-- `led_color[u]` (10_state.md R28). -/
def State.led (s : State) (u : LedUnit) : Color := s.ledColor[ledIndex u]

/-- `led_color[u] <- color`. -/
def setLed (u : LedUnit) (color : Color) (s : State) : State :=
  { s with ledColor := s.ledColor.set (ledIndex u) color }

/-- `ch_on[c] <- on; ch_off[c] <- off` (40_pwm_driver.md R125). -/
def setTicks (c : Fin 16) (on off : Tick) (s : State) : State :=
  { s with chOn := s.chOn.set c (some on), chOff := s.chOff.set c (some off) }

/-- `initialized <- 1` (10_state.md R24). -/
def setInitialized (s : State) : State := { s with initialized := true }

/-- `brightness <- v` (10_state.md R27). -/
def setBrightness (v : Byte) (s : State) : State := { s with brightness := v }

/-- `result <- v` (10_state.md R33). -/
def setResult (v : Color) (s : State) : State := { s with result := some v }

/-- The word the host presents next: the one at the cursor, none when "the list ends" (10_state.md R21). -/
def presentedWord (s : State) : Option Command := s.program[s.cursor]?

/-- The host's cursor "advances by exactly 1 when a command completes without a fault, and stops for
good when a command raises a fault" (10_state.md R21). -/
def advanceCursor (s : State) : State :=
  if s.fault.isSome then s else { s with cursor := s.cursor + 1 }

/-- What an illegal word does: `Fault(IllegalCommand)` "with no other effect" (30_encoding.md R96). -/
def presentIllegal (w : Command) (s : State) : State := raiseFault .illegalCommand w s

/-- The list `l` with `w` at index `n`, zero words filling the gap if `l` is shorter than `n`. -/
def placeWord (w : Command) : Nat → List Command → List Command
  | 0, [] => [w]
  | 0, _ :: rest => w :: rest
  | n + 1, [] => 0#40 :: placeWord w n []
  | n + 1, x :: rest => x :: placeWord w n rest

/-- The host presents `w` next: it stands at the cursor of the host's list and the reset input is low. -/
def presentNext (w : Command) (s : State) : State :=
  { s with program := placeWord w s.cursor s.program, resetInput := false }

end Sys2Proof.Machine
end

