-- ==== Sys2Proof/Machine/Driver.lean ====
section
/-! DEFINITION. The PWM controller driver (spec/40_pwm_driver.md): the micro-operations `u_setfreq`, `u_setch`,
`u_init` and the commands INIT, SETFREQ, SETCH. `cmd` is the word of the command being executed, which a
bus failure records (60_exceptions.md R221). -/

namespace Sys2Proof.Machine

/-- `u_setfreq(hz)` (R124): read, sleep, prescale, restore, wait, wake, in this order every time. -/
def uSetfreq (cmd : Command) (hz : Nat) (s : State) : Flow :=
  memRead cmd s.params.modeReg (fun old s1 =>
    (memWrite1 cmd s1.params.modeReg ((old &&& s1.params.sleepKeepMask) ||| s1.params.sleepMask) s1).andThen fun s2 =>
    (memWrite1 cmd s2.params.prescaleReg (prescaleByte hz) s2).andThen fun s3 =>
    (memWrite1 cmd s3.params.modeReg old s3).andThen fun s4 =>
    (delay Config.wakeDelayUs s4).andThen fun s5 =>
    memWrite1 cmd s5.params.modeReg (old ||| s5.params.wakeMask) s5) s

/-- `u_setch(c, on, off)` (R125): nothing for `c > 15`; else one frame, and the shadow registers once it
has succeeded. (A negative `c` cannot be written: every caller's channel is a field or a map entry.) -/
def uSetch (cmd : Command) (c : Nat) (on off : Tick) (s : State) : Flow :=
  if h : c < 16 then
    (memWrite4 cmd (frameAddr s.params c) (tickWord on off) s).andThen fun s1 =>
      .going (setTicks ⟨c, h⟩ on off s1)
  else .going s

/-- `u_init()` (R126): the mode register's reset state, the frequency `INIT_HZ`, all 16 channels to zero
in ascending order, the flag last; nothing on an initialised block. -/
def uInit (cmd : Command) (s : State) : Flow :=
  if s.initialized then .going s
  else
    (memWrite1 cmd s.params.modeReg s.params.modeResetValue s).andThen fun s1 =>
    (uSetfreq cmd s1.params.initHz s1).andThen fun s2 =>
    (forEach (fun c t => uSetch cmd c 0#12 0#12 t) (List.range 16) s2).andThen fun s3 =>
    .going (setInitialized s3)

/-- INIT (R127). -/
def execInit (s : State) : Host.Outcome State Fault Refusal :=
  endCommand (uInit (encode .init) s)

/-- SETFREQ (R128): the range check comes first, then lazy set-up, then the sequence. -/
def execSetfreq (hz : Nat) (s : State) : Host.Outcome State Fault Refusal :=
  let cmd := encode (.setfreq hz)
  endCommand
    (if freqOutOfRange hz then .stopped (raiseFault .freqRange cmd s)
     else (uInit cmd s).andThen (uSetfreq cmd hz))

/-- SETCH (R129): a channel above 15 is a silent no-op, before any lazy set-up. -/
def execSetch (ch : Nat) (on off : Tick) (s : State) : Host.Outcome State Fault Refusal :=
  let cmd := encode (.setch ch on off)
  endCommand
    (if ch > 15 then .going s
     else (uInit cmd s).andThen (uSetch cmd ch on off))

end Sys2Proof.Machine
end

