-- ==== Sys2Proof/Machine/ColorEngine.lean ====
section
/-! DEFINITION. The colour and brightness engine (spec/41_color_engine.md): the micro-operation `u_apply` and the
commands SETCOLOR, SETALL, SETBRIGHT, RGB, HSL. -/

namespace Sys2Proof.Machine

/-- `u_apply(u)` (R151): the stored colour under the current brightness, three frames in the order red,
green, blue, each with on-tick 0 (40_pwm_driver.md R130). -/
def uApply (cmd : Command) (u : LedUnit) (s : State) : Flow :=
  let col := s.led u
  let br := s.brightness
  let ch := s.params.led u
  (uSetch cmd ch.red 0#12 (ledDuty (redOf col) br) s).andThen fun s1 =>
  (uSetch cmd ch.green 0#12 (ledDuty (greenOf col) br) s1).andThen fun s2 =>
  uSetch cmd ch.blue 0#12 (ledDuty (blueOf col) br) s2

/-- One complete `setColor` after the lazy set-up: the colour is stored unscaled, before the frames
(R152, R153; 92_eei_decisions.md D33). -/
def storeAndApply (cmd : Command) (color : Color) (u : LedUnit) (s : State) : Flow :=
  uApply cmd u (setLed u color s)

/-- SETCOLOR (R152): a unit outside 1..4 is a silent no-op, before any lazy set-up. -/
def execSetcolor (unit : Nat) (color : Color) (s : State) : Host.Outcome State Fault Refusal :=
  let cmd := encode (.setcolor unit color)
  endCommand
    (match ledUnit? unit with
     | none => .going s
     | some u => (uInit cmd s).andThen (storeAndApply cmd color u))

/-- SETALL (R153): units 1 to 4 in turn, each stored and then applied. -/
def execSetall (color : Color) (s : State) : Host.Outcome State Fault Refusal :=
  let cmd := encode (.setall color)
  endCommand ((uInit cmd s).andThen (forEach (storeAndApply cmd color) allLedUnits))

/-- SETBRIGHT (R154): the clamped value is stored, then all four units are refreshed. -/
def execSetbright (value : Int) (s : State) : Host.Outcome State Fault Refusal :=
  let cmd := encode (.setbright value)
  endCommand
    ((uInit cmd s).andThen fun s1 =>
      forEach (uApply cmd) allLedUnits (setBrightness (brightnessOf value) s1))

/-- RGB (R155): bits 9:8 of each input are dropped; no bus traffic, no lazy set-up. -/
def execRgb (r g b : BitVec 10) (s : State) : Host.Outcome State Fault Refusal :=
  endCommand (.going (setResult (pack (low8 r) (low8 g) (low8 b)) s))

/-- HSL (R156): the seven steps of R157 to R163; no bus traffic, no lazy set-up. -/
def execHsl (h : Nat) (sat lum : Int) (s : State) : Host.Outcome State Fault Refusal :=
  endCommand (.going (setResult (hslColor h sat lum) s))

end Sys2Proof.Machine
end

