-- ==== Sys2Proof/Machine/MotorEngine.lean ====
section
/-! DEFINITION. The motor engine (spec/42_motor_engine.md): the micro-operation `u_run` and the commands RUN, RUNDUAL,
MOVE, STOP, STOPALL. -/

namespace Sys2Proof.Machine

/-- `u_run(m, speed)` (R190): both channels in the same call, forward first, the duty on one of them and
0 on the other. -/
def uRun (cmd : Command) (m : MotorUnit) (speed : Int) (s : State) : Flow :=
  let d := motorDuty m speed
  let ch := s.params.motor m
  (uSetch cmd ch.forward 0#12 (forwardDuty d) s).andThen fun s1 =>
  uSetch cmd ch.reverse 0#12 (reverseDuty d) s1

/-- RUN (R191): a motor outside 1..2 is a silent no-op, before any lazy set-up. -/
def execRun (motor : Nat) (speed : Int) (s : State) : Host.Outcome State Fault Refusal :=
  let cmd := encode (.run motor speed)
  endCommand
    (match motorUnit? motor with
     | none => .going s
     | some m => (uInit cmd s).andThen (uRun cmd m speed))

/-- RUNDUAL (R192): unit 1, then unit 2. -/
def execRundual (speedA speedB : Int) (s : State) : Host.Outcome State Fault Refusal :=
  let cmd := encode (.rundual speedA speedB)
  endCommand
    ((uInit cmd s).andThen fun s1 => (uRun cmd .m1 speedA s1).andThen (uRun cmd .m2 speedB))

/-- MOVE (R193). -/
def execMove (speed : Int) (s : State) : Host.Outcome State Fault Refusal :=
  let cmd := encode (.move speed)
  endCommand
    ((uInit cmd s).andThen fun s1 => (uRun cmd .m1 speed s1).andThen (uRun cmd .m2 speed))

/-- STOP (R194): both channels to duty 0 (braking); a motor outside 1..2 is a silent no-op. -/
def execStop (motor : Nat) (s : State) : Host.Outcome State Fault Refusal :=
  let cmd := encode (.stop motor)
  endCommand
    (match motorUnit? motor with
     | none => .going s
     | some m => (uInit cmd s).andThen (uRun cmd m 0))

/-- STOPALL (R195). -/
def execStopall (s : State) : Host.Outcome State Fault Refusal :=
  let cmd := encode .stopall
  endCommand
    ((uInit cmd s).andThen fun s1 => (uRun cmd .m1 0 s1).andThen (uRun cmd .m2 0))

end Sys2Proof.Machine
end

