-- ==== Sys2Proof/Machine/Dispatch.lean ====
section
/-! DEFINITION. One arm per command of spec/30_encoding.md R94. -/

namespace Sys2Proof.Machine

def exec (i : Instr) (s : State) : Host.Outcome State Fault Refusal :=
  match i with
  -- the PWM controller driver (40_pwm_driver.md)
  | .init => Sys2Proof.Machine.execInit s
  | .setfreq hz => Sys2Proof.Machine.execSetfreq hz s
  | .setch ch on off => Sys2Proof.Machine.execSetch ch on off s
  -- the colour and brightness engine (41_color_engine.md)
  | .setcolor unit color => Sys2Proof.Machine.execSetcolor unit color s
  | .setall color => Sys2Proof.Machine.execSetall color s
  | .setbright value => Sys2Proof.Machine.execSetbright value s
  | .rgb r g b => Sys2Proof.Machine.execRgb r g b s
  | .hsl h sat lum => Sys2Proof.Machine.execHsl h sat lum s
  -- the motor engine (42_motor_engine.md)
  | .run motor speed => Sys2Proof.Machine.execRun motor speed s
  | .rundual speedA speedB => Sys2Proof.Machine.execRundual speedA speedB s
  | .move speed => Sys2Proof.Machine.execMove speed s
  | .stop motor => Sys2Proof.Machine.execStop motor s
  | .stopall => Sys2Proof.Machine.execStopall s

end Sys2Proof.Machine
end

