-- ==== Sys2Proof/Machine/Flags.lean ====
section
/-! DEFINITION. The status view (spec/10_state.md R26) and the cause codes (60_exceptions.md R221). -/

namespace Sys2Proof.Machine

/-- The value of `STATUS[3:2]` (60_exceptions.md R221: "Code 0 means no fault"). -/
def causeCode : Option FaultCause → BitVec 2
  | none => 0#2
  | some .illegalCommand => 1#2
  | some .freqRange => 2#2
  | some .busError => 3#2

/-- `STATUS` (10_state.md R26): bit 0 `initialized`, bit 1 faulted, bits 3:2 the cause code, bit 4
`result` valid, bits 7:5 zero. -/
def State.status (s : State) : Byte :=
  0#3 ++ BitVec.ofBool s.result.isSome ++ causeCode s.fault
    ++ BitVec.ofBool s.fault.isSome ++ BitVec.ofBool s.initialized

end Sys2Proof.Machine
end

