-- ==== Sys2Proof/Machine/Step.lean ====
section
/-! DEFINITION. One step of the machine: one reset, or one presented command run to completion (spec/00_scope.md
R8). -/

namespace Sys2Proof.Machine

/-- What the block does between two looks of the host. Reset, if asserted, wins and is the whole step
(70_reset_and_hazards.md R250). A faulted block accepts nothing and changes nothing (60_exceptions.md
R225). With no word presented the block waits (60_exceptions.md R228). A presented word is decoded
(30_encoding.md R95): an illegal one raises its fault (R96), a command runs, and the host's cursor
advances if no fault was raised (10_state.md R21). -/
def step (s : State) : Host.Outcome State Fault Refusal :=
  if s.resetInput then .next (hostReset s)
  else if s.fault.isSome then .next s
  else
    match presentedWord s with
    | none => .next s
    | some w =>
      match decode w with
      | .illegal _ => .next (advanceCursor (presentIllegal w s))
      | .instr i =>
        match exec i s with
        | .next t => .next (advanceCursor t)
        | .fault f => .fault f
        | .refused r => .refused r

/-- `s` with the table word `w` presented next (log entry 6). -/
def State.withFetchWord (s : State) (nbits w : Nat) : State := presentNext (tableWord nbits w) s

end Sys2Proof.Machine
end

