-- ==== Sys2Proof/Machine/Assembler.lean ====
section
/-! DEFINITION. The text form of commands (spec/30_encoding.md R100): one line of text to one command word. The
host's side of the command port; no step of the block reads text. -/

namespace Sys2Proof.Machine

/-- What one line of text assembles to. -/
inductive AsmResult where
  /-- Nothing but white space and a comment. -/
  | blank
  /-- A command and its word. -/
  | command (i : Instr) (w : Command)
  /-- An assembly error (R100). -/
  | error
  deriving DecidableEq, Repr

/-- White space between tokens (log entry 18). -/
def isBlank (c : Char) : Bool := c == ' ' || c == '\t' || c == '\r'

/-- White space removed at both ends. -/
def trimBlanks (cs : List Char) : List Char :=
  ((cs.dropWhile isBlank).reverse.dropWhile isBlank).reverse

/-- "A `;` starts a comment that runs to the end of the line." -/
def dropComment (cs : List Char) : List Char := cs.takeWhile (fun c => c != ';')

/-- The pieces between separators; a text with no separator is one piece. -/
def splitPieces (sep : Char) : List Char → List (List Char)
  | [] => [[]]
  | c :: cs =>
    match splitPieces sep cs with
    | [] => [[c]]
    | p :: ps => if c == sep then [] :: p :: ps else (c :: p) :: ps

/-- The place of a character in an alphabet of digits, which is the digit's value. -/
def placeIn (alphabet : List Char) (c : Char) : Option Nat := alphabet.findIdx? (fun d => d == c)

/-- A decimal digit's value. -/
def decDigit : Char → Option Nat := placeIn "0123456789".toList

/-- A hexadecimal digit's value; the letters may be capitals or small (log entry 18). -/
def hexDigit (c : Char) : Option Nat :=
  match placeIn "0123456789ABCDEF".toList c with
  | some d => some d
  | none => placeIn "0123456789abcdef".toList c

/-- Digits read in base `base`, most significant first, onto `acc`. -/
def readDigits (base : Nat) (digit : Char → Option Nat) (acc : Nat) : List Char → Option Nat
  | [] => some acc
  | c :: cs =>
    match digit c with
    | none => none
    | some d => readDigits base digit (acc * base + d) cs

/-- A non-empty decimal number. -/
def readDecimal (cs : List Char) : Option Nat :=
  if cs.isEmpty then none else readDigits 10 decDigit 0 cs

/-- An unsigned operand: "decimal ... or hexadecimal with a `0x` prefix". -/
def readUnsigned : List Char → Option Nat
  | '0' :: 'x' :: cs => if cs.isEmpty then none else readDigits 16 hexDigit 0 cs
  | cs => readDecimal cs

/-- A signed operand: an unsigned one, or a decimal number after a leading `-`. -/
def readSigned : List Char → Option Int
  | '-' :: cs => (readDecimal cs).map (fun n => -(n : Int))
  | cs => (readUnsigned cs).map (fun n => (n : Int))

/-- A tick, colour or RGB operand: an unsigned operand that fits `n` bits. -/
def readBits (n : Nat) (cs : List Char) : Option (BitVec n) :=
  match readUnsigned cs with
  | none => none
  | some v => if v < 2 ^ n then some (BitVec.ofNat n v) else none

/-- The mnemonics of R94. -/
def mnemonicTable : List (List Char × Op) :=
  [("INIT".toList, .init), ("SETFREQ".toList, .setfreq), ("SETCH".toList, .setch),
   ("SETCOLOR".toList, .setcolor), ("SETALL".toList, .setall), ("SETBRIGHT".toList, .setbright),
   ("RGB".toList, .rgb), ("HSL".toList, .hsl), ("RUN".toList, .run), ("RUNDUAL".toList, .rundual),
   ("MOVE".toList, .move), ("STOP".toList, .stop), ("STOPALL".toList, .stopall)]

/-- The row a mnemonic names. -/
def opOfMnemonic (mnemonic : List Char) : Option Op :=
  (mnemonicTable.find? (fun r => r.1 == mnemonic)).map Prod.snd

/-- The command of a row and its operand texts, in the operand order of R100's table; `none` for a wrong
operand count or an operand that is no number of its field. -/
def buildOperands (args : List (List Char)) : Op → Option Instr
  | .init =>
    match args with
    | [] => some .init
    | _ => none
  | .setfreq =>
    match args with
    | [hz] => (readUnsigned hz).map Instr.setfreq
    | _ => none
  | .setch =>
    match args with
    | [ch, on, off] =>
      (readUnsigned ch).bind fun c => (readBits 12 on).bind fun x => (readBits 12 off).map (Instr.setch c x)
    | _ => none
  | .setcolor =>
    match args with
    | [unit, color] => (readUnsigned unit).bind fun u => (readBits 24 color).map (Instr.setcolor u)
    | _ => none
  | .setall =>
    match args with
    | [color] => (readBits 24 color).map Instr.setall
    | _ => none
  | .setbright =>
    match args with
    | [value] => (readSigned value).map Instr.setbright
    | _ => none
  | .rgb =>
    match args with
    | [r, g, b] =>
      (readBits 10 r).bind fun x => (readBits 10 g).bind fun y => (readBits 10 b).map (Instr.rgb x y)
    | _ => none
  | .hsl =>
    match args with
    | [h, sat, lum] =>
      (readUnsigned h).bind fun x => (readSigned sat).bind fun y => (readSigned lum).map (Instr.hsl x y)
    | _ => none
  | .run =>
    match args with
    | [motor, speed] => (readUnsigned motor).bind fun m => (readSigned speed).map (Instr.run m)
    | _ => none
  | .rundual =>
    match args with
    | [a, b] => (readSigned a).bind fun x => (readSigned b).map (Instr.rundual x)
    | _ => none
  | .move =>
    match args with
    | [speed] => (readSigned speed).map Instr.move
    | _ => none
  | .stop =>
    match args with
    | [motor] => (readUnsigned motor).map Instr.stop
    | _ => none
  | .stopall =>
    match args with
    | [] => some .stopall
    | _ => none

/-- The command of a mnemonic and its operand texts; `none` for an unknown mnemonic too. -/
def buildInstr (mnemonic : List Char) (args : List (List Char)) : Option Instr :=
  match opOfMnemonic mnemonic with
  | some o => buildOperands args o
  | none => none

/-- The operand texts of a line: none after a bare mnemonic, else the pieces between commas. -/
def operandTexts (cs : List Char) : List (List Char) :=
  if (trimBlanks cs).isEmpty then [] else (splitPieces ',' cs).map trimBlanks

/-- One line of text (R100): the mnemonic in capitals, then its operands separated by commas. An operand
outside the range of R99 is an error. -/
def assembleLine (line : List Char) : AsmResult :=
  let body := trimBlanks (dropComment line)
  if body.isEmpty then .blank
  else
    match buildInstr (body.takeWhile (fun c => !(isBlank c)))
        (operandTexts (body.dropWhile (fun c => !(isBlank c)))) with
    | none => .error
    | some i => if i.wellFormed then .command i (encode i) else .error

end Sys2Proof.Machine
end

