-- ==== Sys2Proof/Safety.lean ====
section
/-! DEFINITION. The terms claims are stated in: when the bus answers well, what a successful frame adds to the
state, the event lists of the fixed sequences, the per-command counts of spec/70_reset_and_hazards.md R265,
and the invariants of the trace and the state. -/

namespace Sys2Proof.Machine

/-- The environment answers the next `n` bus transactions with `ok` (60_exceptions.md R223). -/
abbrev AnswersOk (n : Nat) (s : State) : Prop := ∀ k, k < n → (answerAt s k).ok = true

/-! ### Events -/

/-- The event is not marked failed. -/
def Event.ok : Event → Bool
  | .write _ _ _ ok => ok
  | .buffer _ _ ok => ok
  | .read _ _ byte => byte.isSome
  | .delay _ => true

/-- The event is a bus transaction, not a delay. -/
def Event.isTransaction : Event → Bool
  | .delay _ => false
  | _ => true

/-- How many bus transactions a trace holds. -/
def transactions (tr : List Event) : Nat := (tr.filter Event.isTransaction).length

/-- How many delays a trace holds. -/
def delays (tr : List Event) : Nat := (tr.filter (fun e => !e.isTransaction)).length

/-! ### Frames -/

/-- What one set-channel frame carries. -/
structure Frame where
  ch : Fin 16
  on : Tick
  off : Tick
  deriving DecidableEq, Repr

/-- The byte layout of 30_encoding.md R102, written out. -/
def frameBytes (p : Params) (f : Frame) : List Byte :=
  [p.regBase + BitVec.ofNat 8 (4 * f.ch.val),
   f.on.extractLsb' 0 8, (f.on.extractLsb' 8 4).setWidth 8,
   f.off.extractLsb' 0 8, (f.off.extractLsb' 8 4).setWidth 8]

/-- The event of one frame. -/
def frameEvent (p : Params) (ok : Bool) (f : Frame) : Event := .buffer p.chipAddr (frameBytes p f) ok

/-- The state after the frames `fs` have all succeeded, one after the other: the events are appended,
the shadow registers hold what was sent, one bus answer is used per frame (40_pwm_driver.md R125). -/
def framesSent (fs : List Frame) (s : State) : State :=
  { s with
    chOn := fs.foldl (fun v f => v.set f.ch (some f.on)) s.chOn
    chOff := fs.foldl (fun v f => v.set f.ch (some f.off)) s.chOff
    trace := s.trace ++ fs.map (frameEvent s.params true)
    busScript := s.busScript.drop fs.length
    drawCount := s.drawCount + fs.length }

/-- The three frames of `u_apply` for a colour under a brightness (41_color_engine.md R151). -/
def ledFrames (p : Params) (br : Byte) (color : Color) (u : LedUnit) : List Frame :=
  [⟨(p.led u).red, 0#12, BitVec.ofNat 12 (16 * scale (redOf color) br)⟩,
   ⟨(p.led u).green, 0#12, BitVec.ofNat 12 (16 * scale (greenOf color) br)⟩,
   ⟨(p.led u).blue, 0#12, BitVec.ofNat 12 (16 * scale (blueOf color) br)⟩]

/-- The two frames of `u_run` (42_motor_engine.md R190): forward first; the duty on one, 0 on the other. -/
def motorFrames (p : Params) (m : MotorUnit) (speed : Int) : List Frame :=
  if motorDuty m speed ≥ 0 then
    [⟨(p.motor m).forward, 0#12, BitVec.ofInt 12 (motorDuty m speed)⟩, ⟨(p.motor m).reverse, 0#12, 0#12⟩]
  else
    [⟨(p.motor m).forward, 0#12, 0#12⟩, ⟨(p.motor m).reverse, 0#12, BitVec.ofInt 12 (-(motorDuty m speed))⟩]

/-! ### The fixed sequences -/

/-- The six events of `u_setfreq(hz)` when the mode register reads `old` (40_pwm_driver.md R124). -/
def setfreqEvents (p : Params) (old : Byte) (hz : Nat) : List Event :=
  [.read p.chipAddr p.modeReg (some old),
   .write p.chipAddr p.modeReg ((old &&& p.sleepKeepMask) ||| p.sleepMask) true,
   .write p.chipAddr p.prescaleReg (BitVec.ofInt 8 (prescale hz)) true,
   .write p.chipAddr p.modeReg old true,
   .delay 5000,
   .write p.chipAddr p.modeReg (old ||| p.wakeMask) true]

/-- The sixteen zero frames of `u_init` in ascending channel order (40_pwm_driver.md R126). -/
def zeroFrames : List Frame := (List.finRange 16).map (fun c => ⟨c, 0#12, 0#12⟩)

/-- The 23 events of `u_init()` when the mode register reads `old` (40_pwm_driver.md R126). -/
def initEvents (p : Params) (old : Byte) : List Event :=
  .write p.chipAddr p.modeReg p.modeResetValue true
    :: (setfreqEvents p old p.initHz ++ zeroFrames.map (frameEvent p true))

/-! ### Counts of R265 -/

/-- The command passes its argument checks and runs `u_init` (40_pwm_driver.md R120, R121). -/
def runsSetup : Instr → Bool
  | .init => true
  | .setfreq hz => decide (24 ≤ hz) && decide (hz ≤ 12207)
  | .setch ch _ _ => decide (ch ≤ 15)
  | .setcolor unit _ => decide (1 ≤ unit) && decide (unit ≤ 4)
  | .setall _ => true
  | .setbright _ => true
  | .rgb _ _ _ => false
  | .hsl _ _ _ => false
  | .run motor _ => decide (1 ≤ motor) && decide (motor ≤ 2)
  | .rundual _ _ => true
  | .move _ => true
  | .stop motor => decide (1 ≤ motor) && decide (motor ≤ 2)
  | .stopall => true

/-- The bus transactions of a command's own work on a fault-free path (70_reset_and_hazards.md R265). -/
def busCost (i : Instr) : Nat :=
  if runsSetup i then
    match i with
    | .init => 0
    | .setfreq _ => 5
    | .setch _ _ _ => 1
    | .setcolor _ _ => 3
    | .setall _ => 12
    | .setbright _ => 12
    | .rgb _ _ _ => 0
    | .hsl _ _ _ => 0
    | .run _ _ => 2
    | .rundual _ _ => 4
    | .move _ => 4
    | .stop _ => 2
    | .stopall => 4
  else 0

/-- The delays of a command's own work on a fault-free path (70_reset_and_hazards.md R265). -/
def delayCost (i : Instr) : Nat :=
  match i with
  | .setfreq hz => if runsSetup (.setfreq hz) then 1 else 0
  | _ => 0

/-! ### Frames of commands -/

/-- The channels a command's own work drives: the map entries of its units, or SETCH's channel. -/
def channelsDriven (p : Params) : Instr → List (Fin 16)
  | .setch ch _ _ => if h : ch < 16 then [⟨ch, h⟩] else []
  | .setcolor unit _ =>
    match ledUnit? unit with
    | some u => [(p.led u).red, (p.led u).green, (p.led u).blue]
    | none => []
  | .setall _ => allLedUnits.flatMap fun u => [(p.led u).red, (p.led u).green, (p.led u).blue]
  | .setbright _ => allLedUnits.flatMap fun u => [(p.led u).red, (p.led u).green, (p.led u).blue]
  | .run motor _ =>
    match motorUnit? motor with
    | some m => [(p.motor m).forward, (p.motor m).reverse]
    | none => []
  | .stop motor =>
    match motorUnit? motor with
    | some m => [(p.motor m).forward, (p.motor m).reverse]
    | none => []
  | .rundual _ _ => [p.motor1.forward, p.motor1.reverse, p.motor2.forward, p.motor2.reverse]
  | .move _ => [p.motor1.forward, p.motor1.reverse, p.motor2.forward, p.motor2.reverse]
  | .stopall => [p.motor1.forward, p.motor1.reverse, p.motor2.forward, p.motor2.reverse]
  | .init => []
  | .setfreq _ => []
  | .rgb _ _ _ => []
  | .hsl _ _ _ => []

/-- From `s` to `t` only the shadow registers of the channels `cs` may have changed, and every new event
of the trace is a frame to one of those channels. -/
abbrev OnlyChannels (cs : List (Fin 16)) (s t : State) : Prop :=
  (∀ c : Fin 16, c ∉ cs → t.chOn[c] = s.chOn[c] ∧ t.chOff[c] = s.chOff[c])
    ∧ ∃ evs, t.trace = s.trace ++ evs
        ∧ ∀ e ∈ evs, ∃ (f : Frame) (ok : Bool), f.ch ∈ cs ∧ e = frameEvent s.params ok f

/-- The host's side and the parameters are as they were. -/
abbrev SameHostSide (s t : State) : Prop :=
  t.program = s.program ∧ t.cursor = s.cursor ∧ t.resetInput = s.resetInput ∧ t.params = s.params

/-- The operand numbers of the LED units (92_eei_decisions.md D9). -/
def ledNumber : LedUnit → Nat
  | .u1 => 1
  | .u2 => 2
  | .u3 => 3
  | .u4 => 4

/-- The bytes a trace writes to the mode register with success, oldest first. -/
def modeWrites (p : Params) (tr : List Event) : List Byte :=
  tr.filterMap fun
    | .write _ reg v true => if reg = p.modeReg then some v else none
    | _ => none

/-! ### A failing bus -/

/-- The state after the frames `done` have succeeded and the frame `f` has failed: the failed event is the
last, `BusError` and the command's word are recorded, the shadow registers of `f`'s channel are not written
(60_exceptions.md R223, R224). -/
def stoppedAtFrame (cmd : Command) (done : List Frame) (f : Frame) (s : State) : State :=
  { framesSent done s with
    trace := s.trace ++ done.map (frameEvent s.params true) ++ [frameEvent s.params false f]
    busScript := s.busScript.drop (done.length + 1)
    drawCount := s.drawCount + (done.length + 1)
    fault := some .busError
    faultCmd := some cmd }

/-- The environment fails transaction number `k` from here on, and none before it. -/
abbrev FailsFirstAt (k : Nat) (s : State) : Prop := AnswersOk k s ∧ (answerAt s k).ok = false

/-! ### The text form (30_encoding.md R94, R99, R100), written from the tables and not from the assembler -/

/-- The mnemonic column of R94. -/
def mnemonicOf : Op → List Char
  | .init => "INIT".toList
  | .setfreq => "SETFREQ".toList
  | .setch => "SETCH".toList
  | .setcolor => "SETCOLOR".toList
  | .setall => "SETALL".toList
  | .setbright => "SETBRIGHT".toList
  | .rgb => "RGB".toList
  | .hsl => "HSL".toList
  | .run => "RUN".toList
  | .rundual => "RUNDUAL".toList
  | .move => "MOVE".toList
  | .stop => "STOP".toList
  | .stopall => "STOPALL".toList

/-- One line of the table of R99: a field is signed or not, and has a lowest and a highest value. -/
structure FieldRange where
  signed : Bool
  lo : Int
  hi : Int
  deriving DecidableEq, Repr

/-- The fields of each command in the operand order of R100, with their ranges from R99. -/
def fieldRanges : Op → List FieldRange
  | .init => []
  | .setfreq => [⟨false, 0, 65535⟩]
  | .setch => [⟨false, 0, 255⟩, ⟨false, 0, 4095⟩, ⟨false, 0, 4095⟩]
  | .setcolor => [⟨false, 0, 255⟩, ⟨false, 0, 0xFFFFFF⟩]
  | .setall => [⟨false, 0, 0xFFFFFF⟩]
  | .setbright => [⟨true, -32768, 32767⟩]
  | .rgb => [⟨false, 0, 1023⟩, ⟨false, 0, 1023⟩, ⟨false, 0, 1023⟩]
  | .hsl => [⟨false, 0, 65535⟩, ⟨true, -128, 127⟩, ⟨true, -128, 127⟩]
  | .run => [⟨false, 0, 255⟩, ⟨true, -32768, 32767⟩]
  | .rundual => [⟨true, -32768, 32767⟩, ⟨true, -32768, 32767⟩]
  | .move => [⟨true, -32768, 32767⟩]
  | .stop => [⟨false, 0, 255⟩]
  | .stopall => []

/-- The operand values of a command in the operand order of R100. -/
def operandValues : Instr → List Int
  | .init => []
  | .setfreq hz => [hz]
  | .setch ch on off => [ch, on.toNat, off.toNat]
  | .setcolor unit color => [unit, color.toNat]
  | .setall color => [color.toNat]
  | .setbright value => [value]
  | .rgb r g b => [r.toNat, g.toNat, b.toNat]
  | .hsl h sat lum => [h, sat, lum]
  | .run motor speed => [motor, speed]
  | .rundual speedA speedB => [speedA, speedB]
  | .move speed => [speed]
  | .stop motor => [motor]
  | .stopall => []

/-- The value of a row of digits, most significant first. -/
def digitsValue (base : Nat) (ds : List Nat) : Nat := ds.foldl (fun acc d => base * acc + d) 0

/-- The character of a digit below 16: `0` to `9`, then letters from `A` (capitals) or from `a`. -/
def digitChar (capitals : Bool) (d : Nat) : Char :=
  Char.ofNat (if d < 10 then 48 + d else if capitals then 55 + d else 87 + d)

/-- `text` is a decimal number of value `n`. -/
def DecimalText (text : List Char) (n : Nat) : Prop :=
  ∃ ds : List Nat, ds ≠ [] ∧ (∀ d ∈ ds, d < 10) ∧ text = ds.map (digitChar true) ∧ n = digitsValue 10 ds

/-- `text` is a hexadecimal number of value `n`: `0x` and digits, the letters all capitals or all small (log
entry 18). -/
def HexText (text : List Char) (n : Nat) : Prop :=
  ∃ (ds : List Nat) (capitals : Bool), ds ≠ [] ∧ (∀ d ∈ ds, d < 16)
    ∧ text = '0' :: 'x' :: ds.map (digitChar capitals) ∧ n = digitsValue 16 ds

/-- `text` spells the number `v`: decimal or hexadecimal, or, where a sign is allowed, decimal after a `-`
(R100). -/
def NumberText (signed : Bool) (text : List Char) (v : Int) : Prop :=
  (∃ n : Nat, v = n ∧ (DecimalText text n ∨ HexText text n))
    ∨ (signed = true ∧ ∃ (n : Nat) (digits : List Char), v = -(n : Int) ∧ text = '-' :: digits ∧ DecimalText digits n)

/-- White space of any length, none included (log entry 18). -/
abbrev Blanks (cs : List Char) : Prop := ∀ c ∈ cs, c = ' ' ∨ c = '\t'

/-- The operand texts, each with white space on either side, one comma between neighbours. -/
inductive CommaSeparated : List (List Char) → List Char → Prop where
  | one (l text r : List Char) (hl : Blanks l) (hr : Blanks r) : CommaSeparated [text] (l ++ text ++ r)
  | more (l text r : List Char) (texts : List (List Char)) (rest : List Char) (hl : Blanks l) (hr : Blanks r)
      (h : CommaSeparated texts rest) : CommaSeparated (text :: texts) (l ++ text ++ r ++ ',' :: rest)

/-- `line` is the mnemonic and then the operand texts (R100): white space before and after, at least one
blank between the mnemonic and its operands, at the end possibly a comment. -/
def SpellsLine (mnemonic : List Char) (texts : List (List Char)) (line : List Char) : Prop :=
  ∃ lead tail comment : List Char, Blanks lead ∧ (comment = [] ∨ ∃ words, comment = ';' :: words)
    ∧ line = lead ++ mnemonic ++ tail ++ comment
    ∧ ((texts = [] ∧ Blanks tail)
      ∨ ∃ (b : Char) (operands : List Char), Blanks [b] ∧ tail = b :: operands ∧ CommaSeparated texts operands)

/-! ### Invariants -/

/-- A frame event that succeeded on channel `c`: the ticks it carried. -/
def frameTicks (p : Params) (c : Fin 16) : Event → Option (Tick × Tick)
  | .buffer _ [r, b1, b2, b3, b4] true =>
    if r = p.regBase + BitVec.ofNat 8 (4 * c.val) then
      some ((b2 ++ b1).setWidth 12, (b4 ++ b3).setWidth 12)
    else none
  | _ => none

/-- The ticks of the last frame of the trace that succeeded on channel `c`. -/
def lastFrame (p : Params) (c : Fin 16) (tr : List Event) : Option (Tick × Tick) :=
  tr.reverse.findSome? (frameTicks p c)

/-- The shadow registers are the block's "own record of the on-tick and off-tick last programmed into
channel c" (10_state.md R31). -/
abbrev ShadowsRecordTrace (s : State) : Prop :=
  ∀ c : Fin 16, s.chOn[c] = (lastFrame s.params c s.trace).map Prod.fst
    ∧ s.chOff[c] = (lastFrame s.params c s.trace).map Prod.snd

/-- The event writes the prescale register. -/
def Event.writesPrescale (p : Params) : Event → Bool
  | .write _ reg _ _ => decide (reg = p.prescaleReg)
  | _ => false

/-- The event is a successful mode write that sets every bit of `SLEEP_MASK`. -/
def Event.setsSleep (p : Params) : Event → Bool
  | .write _ reg v true => decide (reg = p.modeReg) && decide (v &&& p.sleepMask = p.sleepMask)
  | _ => false

/-- In a trace whose last event before `tr` did (`asleep = true`) or did not set the sleep bit, every
prescale write stands directly after a successful write that sets it (70_reset_and_hazards.md R256). -/
def prescaleGuarded (p : Params) : Bool → List Event → Bool
  | _, [] => true
  | asleep, e :: rest => (!(e.writesPrescale p) || asleep) && prescaleGuarded p (e.setsSleep p) rest

/-- The block writes the prescaler only while asleep (70_reset_and_hazards.md R256). -/
abbrev PrescaleOnlyAsleep (s : State) : Prop := prescaleGuarded s.params false s.trace = true

/-- Faults are precise (60_exceptions.md R223, R224): only the last event can be a failed one, and it is
one exactly when the recorded fault is `BusError`. -/
abbrev TracePrecise (s : State) : Prop :=
  (∀ e ∈ s.trace.dropLast, e.ok = true)
    ∧ (s.fault = some .busError ↔ ∃ e, s.trace.getLast? = some e ∧ e.ok = false)

/-- What the flag says of the shadow registers and the trace (10_state.md R24, R32; 40_pwm_driver.md R121, R126): once
set-up is done every shadow register is known; before it, on an unfaulted block, nothing has been sent
and every shadow register is unknown. -/
abbrev SetupRecorded (s : State) : Prop :=
  (s.initialized = true → ∀ c : Fin 16, s.chOn[c].isSome = true ∧ s.chOff[c].isSome = true)
    ∧ (s.initialized = false → s.fault = none →
        s.trace = [] ∧ ∀ c : Fin 16, s.chOn[c] = none ∧ s.chOff[c] = none)

/-- The word recorded fits the cause recorded (60_exceptions.md R221). -/
def causeFits : Option FaultCause → Option Command → Bool
  | none, none => true
  | some .illegalCommand, some w =>
    match decode w with
    | .illegal _ => true
    | .instr _ => false
  | some .freqRange, some w =>
    match decode w with
    | .instr (.setfreq hz) => decide (hz < 24) || decide (hz > 12207)
    | _ => false
  | some .busError, some w =>
    match decode w with
    | .instr i => runsSetup i
    | .illegal _ => false
  | _, _ => false

/-- `fault_cmd` is known exactly when a fault is recorded, and is a word that raises that fault. -/
abbrev FaultRecordFits (s : State) : Prop := causeFits s.fault s.faultCmd = true

/-- The event goes to the block's chip and to one of the 66 addresses of 20_memory.md R52, in the shape
that rule gives the address; a byte written to the prescale register is at most 253 (30_encoding.md
R105); a frame's bytes are those of R102. -/
def Event.inMap (p : Params) : Event → Prop
  | .write chip reg v _ =>
    chip = p.chipAddr ∧ (reg = p.modeReg ∨ (reg = p.prescaleReg ∧ v.toNat ≤ 253))
  | .buffer chip bytes _ => chip = p.chipAddr ∧ ∃ f : Frame, bytes = frameBytes p f
  | .read chip reg _ => chip = p.chipAddr ∧ reg = p.modeReg
  | .delay us => us = 5000

/-- Every event of the trace is of the block's register map (20_memory.md R50 to R52). -/
abbrev TraceInMap (s : State) : Prop := ∀ e ∈ s.trace, e.inMap s.params

end Sys2Proof.Machine
end

