-- ==== Sys2Proof/Certificates/Slice0/Obligations.lean ====
section
/-! DEFINITION. The statements for the provers. Each docstring says which rule of spec/ it formalises, and names
the log entry of any clause that is the model's own choice. -/

open Sys2Proof Sys2Proof.Machine

/-! ### Encoding (30_encoding.md Part A) -/

/-- 30_encoding.md R94, R99: one word written out from the table of each of the nine formats F, C, L, B, P, H, M,
D and T (R83 to R85, R87 to R92), and two illegal words of R96. -/
def Obligations.SampleWordsDecode : Prop :=
  decode 0x0200000032#40 = .instr (.setfreq 50)
  ∧ decode 0x030FABCDEF#40 = .instr (.setch 15 0xABC#12 0xDEF#12)
  ∧ decode 0x1001FF8000#40 = .instr (.setcolor 1 0xFF8000#24)
  ∧ decode 0x120000FFFF#40 = .instr (.setbright (-1))
  ∧ decode 0x13100407FF#40 = .instr (.rgb 256#10 257#10 1023#10)
  ∧ decode 0x14002DFF32#40 = .instr (.hsl 45 (-1) 50)
  ∧ decode 0x200100FF9C#40 = .instr (.run 1 (-100))
  ∧ decode 0x210064FFCE#40 = .instr (.rundual 100 (-50))
  ∧ decode 0x23FF000000#40 = .instr (.stop 255)
  ∧ decode 0x0400000000#40 = .illegal .unassignedOpcode
  ∧ decode 0x2001010064#40 = .illegal .reservedBits

/-- 30_encoding.md R95, R99, R100: no operand bit is lost between an instruction and its word. -/
def Obligations.DecodeOfEncode : Prop :=
  ∀ i : Instr, i.wellFormed = true → decode (encode i) = .instr i

/-- 30_encoding.md R95, R99, R100, the other direction: a word that decodes has one spelling, and the
decoder only gives operands in the ranges of R99. -/
def Obligations.EncodeOfDecode : Prop :=
  ∀ (w : Command) (i : Instr), decode w = .instr i → i.wellFormed = true ∧ encode i = w

/-- 30_encoding.md R94: "A word `w` encodes the command of a row exactly when `(w AND mask) = match`." -/
def Obligations.WordEncodesRowExactlyWhenItMatches : Prop :=
  ∀ (w : Command), ∀ r ∈ opcodeTable,
    (∃ i, decode w = .instr i ∧ i.op = r.op) ↔ w &&& r.mask = r.matchWord

/-- 30_encoding.md R81, R96: which words are illegal, and why. -/
def Obligations.IllegalWordsAreUnassignedOrReserved : Prop :=
  ∀ w : Command,
    (decode w = .illegal .unassignedOpcode ↔
      opcodeOf w ∉ [0x01#8, 0x02#8, 0x03#8, 0x10#8, 0x11#8, 0x12#8, 0x13#8, 0x14#8,
        0x20#8, 0x21#8, 0x22#8, 0x23#8, 0x24#8])
    ∧ (decode w = .illegal .reservedBits ↔
      ∃ r ∈ opcodeTable, r.opcode = opcodeOf w ∧ w &&& r.mask ≠ r.matchWord)

/-- 30_encoding.md R100, with the mnemonics of R94 and the ranges of R99: a line that spells a mnemonic and
operands in range, in decimal or hexadecimal, assembles to exactly that command and its word; a line that
spells an operand outside its range is an error; a line that assembles to a command gives that command's
word, which decodes to it. (What counts as white space, and the case of hexadecimal letters: log entry 18.) -/
def Obligations.LinesAssembleAsSpelled : Prop :=
  (∀ (i : Instr) (texts : List (List Char)) (line : List Char), i.wellFormed = true →
    List.Forall₂ (fun (fv : FieldRange × Int) text => NumberText fv.1.signed text fv.2)
      ((fieldRanges i.op).zip (operandValues i)) texts →
    SpellsLine (mnemonicOf i.op) texts line →
    assembleLine line = .command i (encode i))
  ∧ (∀ (o : Op) (vals : List Int) (texts : List (List Char)) (line : List Char),
    List.Forall₂ (fun v text => NumberText true text v) vals texts →
    vals.length = (fieldRanges o).length →
    ¬ List.Forall₂ (fun (r : FieldRange) v => r.lo ≤ v ∧ v ≤ r.hi) (fieldRanges o) vals →
    SpellsLine (mnemonicOf o) texts line →
    assembleLine line = .error)
  ∧ (∀ (line : List Char) (i : Instr) (w : Command), assembleLine line = .command i w →
    i.wellFormed = true ∧ w = encode i ∧ decode w = .instr i)

/-! ### Steps, reset and faults (10_state.md, 60_exceptions.md, 70_reset_and_hazards.md) -/

/-- 00_scope.md R8, 10_state.md R21: a presented word that decodes is executed, and the host's cursor
advances by exactly 1 unless a fault was raised. (That list and cursor are state of the model, and one step is
one command: log entry 6.) -/
def Obligations.StepRunsDecodedCommand : Prop :=
  ∀ (s t : State) (w : Command) (i : Instr),
    s.resetInput = false → s.fault = none → s.program[s.cursor]? = some w → decode w = .instr i →
    exec i s = .next t →
    step s = .next (if t.fault = none then { t with cursor := t.cursor + 1 } else t)

/-- 30_encoding.md R96: an illegal word raises its fault "with no other effect"; the host's cursor stays
(10_state.md R21; the host's side as state: log entry 6). -/
def Obligations.IllegalWordOnlyRecordsFault : Prop :=
  ∀ (s : State) (w : Command) (e : DecodeError),
    s.resetInput = false → s.fault = none → s.program[s.cursor]? = some w → decode w = .illegal e →
    step s = .next { s with fault := some .illegalCommand, faultCmd := some w }

/-- 60_exceptions.md R225: a faulted block accepts nothing and changes nothing, whatever is presented. That such
a block takes a step, to itself, is the model's form (log entry 5, DESIGN CHOICE). -/
def Obligations.FaultedBlockAcceptsNothing : Prop :=
  ∀ s : State, s.resetInput = false → s.fault ≠ none → step s = .next s

/-- 60_exceptions.md R225, R227, 70_reset_and_hazards.md R255: the rest of a faulted run is never executed. That
a faulted machine goes on taking steps to itself is the model's form (log entry 5, DESIGN CHOICE). -/
def Obligations.FaultedRunStaysPut : Prop :=
  ∀ (n : Nat) (s : State), s.resetInput = false → s.fault ≠ none → Sys2Proof.core.run n s = .next s

/-- 60_exceptions.md R228: nothing happens except in response to a command or reset. That a block with no word
presented takes a step to itself is the model's choice (log entry 6). -/
def Obligations.IdleBlockWaits : Prop :=
  ∀ s : State, s.resetInput = false → s.program[s.cursor]? = none → step s = .next s

/-- 70_reset_and_hazards.md R250: reset puts the block's state to the values of R37 from any state, a
faulted one too (60_exceptions.md R227), starts an empty trace and changes no parameter (10_state.md
R34). Reset as one step, taken when the reset input is high, is the model's form (log entry 7,
DESIGN CHOICE). -/
def Obligations.ResetRestoresBlockState : Prop :=
  ∀ s : State, s.resetInput = true → ∃ t, step s = .next t
    ∧ t.initialized = false ∧ t.brightness = 255#8
    ∧ (∀ u, t.led u = 0x000000#24)
    ∧ (∀ c : Fin 16, t.chOn[c] = none ∧ t.chOff[c] = none)
    ∧ t.result = none ∧ t.fault = none ∧ t.faultCmd = none ∧ t.trace = []
    ∧ t.params = s.params

/-- 10_state.md R37. -/
def Obligations.StateAfterReset : Prop :=
  State.reset.initialized = false ∧ State.reset.brightness = 255#8
  ∧ (∀ u, State.reset.led u = 0x000000#24)
  ∧ (∀ c : Fin 16, State.reset.chOn[c] = none ∧ State.reset.chOff[c] = none)
  ∧ State.reset.result = none ∧ State.reset.fault = none ∧ State.reset.faultCmd = none
  ∧ State.reset.trace = []

/-- 10_state.md R26, bit by bit. -/
def Obligations.StatusViewBits : Prop :=
  ∀ s : State,
    s.status.getLsbD 0 = s.initialized
    ∧ s.status.getLsbD 1 = s.fault.isSome
    ∧ s.status.extractLsb' 2 2 = (match s.fault with
        | none => 0#2
        | some .illegalCommand => 1#2
        | some .freqRange => 2#2
        | some .busError => 3#2)
    ∧ s.status.getLsbD 4 = s.result.isSome
    ∧ s.status.extractLsb' 5 3 = 0#3

/-- 60_exceptions.md R221, R224, R226: what each cause means, what is recorded, and that nothing is
recorded where nothing is raised. -/
def Obligations.FaultRaisedOnlyForItsReason : Prop :=
  ∀ (s t : State) (w : Command),
    s.resetInput = false → s.fault = none → s.program[s.cursor]? = some w → step s = .next t →
    (t.fault = some .illegalCommand ↔ ∃ e, decode w = .illegal e)
    ∧ (t.fault = some .freqRange ↔ ∃ hz, decode w = .instr (.setfreq hz) ∧ (hz < 24 ∨ 12207 < hz))
    ∧ (t.fault = some .busError ↔ ∃ e ∈ t.trace.drop s.trace.length, e.ok = false)
    ∧ (t.fault ≠ none → t.faultCmd = some w ∧ t.cursor = s.cursor)
    ∧ (t.fault = none → t.faultCmd = s.faultCmd ∧ t.cursor = s.cursor + 1)

/-- 60_exceptions.md R223, R224, 00_scope.md R15: on a command that ends in `BusError` the failed
transaction is the last event, everything before it succeeded, no later transaction took an answer; on
any other command every new event succeeded. -/
def Obligations.BusFailureStopsCommandThere : Prop :=
  ∀ (i : Instr) (s t : State), s.fault = none → exec i s = .next t →
    ∃ evs, t.trace = s.trace ++ evs
      ∧ t.drawCount = s.drawCount + transactions evs
      ∧ (t.fault = some .busError →
          t.faultCmd = some (encode i)
          ∧ ∃ before last, evs = before ++ [last] ∧ last.ok = false ∧ ∀ e ∈ before, e.ok = true)
      ∧ (t.fault ≠ some .busError → ∀ e ∈ evs, e.ok = true)

/-- 60_exceptions.md R221, R223: with a legal frequency and a bus that answers well, every command of
the table completes without a fault. -/
def Obligations.GoodBusMeansNoFault : Prop :=
  ∀ (i : Instr) (s : State), s.fault = none →
    (∀ hz, i = .setfreq hz → 24 ≤ hz ∧ hz ≤ 12207) →
    AnswersOk (busCost i + (if runsSetup i = true ∧ s.initialized = false then 22 else 0)) s →
    ∃ t, exec i s = .next t ∧ t.fault = none

/-! ### The PWM controller driver (40_pwm_driver.md) -/

/-- 40_pwm_driver.md R122: the prescale is the nearest integer to `OSC_HZ / TICKS / hz`, less 1, and no
tie can occur (the distance is strictly below a half). -/
def Obligations.PrescaleIsNearestInteger : Prop :=
  ∀ hz : Nat, 1 ≤ hz →
    prescale hz = ((50000000 + 4096 * hz) / (8192 * hz) : Nat) - 1
    ∧ 2 * |(25000000 : Int) - 4096 * hz * (prescale hz + 1)| < 4096 * hz

/-- 40_pwm_driver.md R123, 30_encoding.md R105: the prescale fits the 8-bit register exactly for 24..12207,
does not increase with the frequency, and is at most 253 there. -/
def Obligations.PrescaleFitsByteExactlyInRange : Prop :=
  (∀ hz : Nat, 1 ≤ hz → ((0 ≤ prescale hz ∧ prescale hz ≤ 255) ↔ (24 ≤ hz ∧ hz ≤ 12207)))
  ∧ (∀ a b : Nat, 1 ≤ a → a ≤ b → prescale b ≤ prescale a)
  ∧ (∀ hz : Nat, 24 ≤ hz → hz ≤ 12207 → (prescaleByte hz).toNat = prescale hz ∧ prescale hz ≤ 253)

/-- 40_pwm_driver.md R124, R128, 70_reset_and_hazards.md R256, R257: SETFREQ on an initialised block is
exactly the six events in the mandatory order, whatever byte the mode register reads as, and changes no
block register. -/
def Obligations.SetfreqRunsSequence : Prop :=
  ∀ (hz : Nat) (s : State), 24 ≤ hz → hz ≤ 12207 → s.initialized = true → s.fault = none → AnswersOk 5 s →
    exec (.setfreq hz) s = .next
      { s with
        trace := s.trace ++ setfreqEvents s.params (answerAt s 0).byte hz
        busScript := s.busScript.drop 5
        drawCount := s.drawCount + 5 }

/-- 40_pwm_driver.md R123, R128: a frequency outside 24..12207 raises `FreqRange` with no bus traffic and
no lazy set-up, on any block that has no fault. -/
def Obligations.SetfreqOutOfRangeFaults : Prop :=
  ∀ (hz : Nat) (s : State), hz < 24 ∨ 12207 < hz → s.fault = none →
    exec (.setfreq hz) s = .next
      { s with fault := some .freqRange, faultCmd := some (encode (.setfreq hz)) }

/-- 40_pwm_driver.md R126, R127: the first INIT emits the 23 events, leaves 0 in all 32 shadow registers and
sets the flag. -/
def Obligations.InitProgramsWholeChip : Prop :=
  ∀ s : State, s.initialized = false → s.fault = none → AnswersOk 22 s →
    exec .init s = .next
      { s with
        initialized := true
        chOn := Vector.replicate 16 (some 0#12)
        chOff := Vector.replicate 16 (some 0#12)
        trace := s.trace ++ initEvents s.params (answerAt s 1).byte
        busScript := s.busScript.drop 22
        drawCount := s.drawCount + 22 }

/-- 40_pwm_driver.md R127: INIT on an initialised block is a no-op. -/
def Obligations.InitAgainIsNoOp : Prop :=
  ∀ s : State, s.initialized = true → exec .init s = .next s

/-- 40_pwm_driver.md R125, R129, 30_encoding.md R102: one frame, and the two shadow registers of the channel. -/
def Obligations.SetchProgramsChannel : Prop :=
  ∀ (ch : Nat) (h : ch < 16) (on off : Tick) (s : State),
    s.initialized = true → s.fault = none → AnswersOk 1 s →
    exec (.setch ch on off) s = .next
      { s with
        chOn := s.chOn.set ch (some on)
        chOff := s.chOff.set ch (some off)
        trace := s.trace ++ [frameEvent s.params true ⟨⟨ch, h⟩, on, off⟩]
        busScript := s.busScript.drop 1
        drawCount := s.drawCount + 1 }

/-- 40_pwm_driver.md R129, 41_color_engine.md R152, 42_motor_engine.md R191, R194: an index out of range
is a silent no-op on any block, without lazy set-up. -/
def Obligations.OutOfRangeIndexIsNoOp : Prop :=
  ∀ s : State,
    (∀ ch on off, 15 < ch → exec (.setch ch on off) s = .next s)
    ∧ (∀ unit color, unit < 1 ∨ 4 < unit → exec (.setcolor unit color) s = .next s)
    ∧ (∀ motor speed, motor < 1 ∨ 2 < motor → exec (.run motor speed) s = .next s)
    ∧ (∀ motor, motor < 1 ∨ 2 < motor → exec (.stop motor) s = .next s)

/-- 40_pwm_driver.md R120, R121: on an uninitialised block every bus-issuing command whose arguments pass
first does what INIT does, and then what it does on the block INIT leaves; if the set-up fails, the
command ends there, with its own word recorded. -/
def Obligations.LazySetupComesFirst : Prop :=
  ∀ (i : Instr) (s t : State), runsSetup i = true → s.initialized = false → s.fault = none →
    exec .init s = .next t →
    (t.fault = none → exec i s = exec i t)
    ∧ (t.fault ≠ none → exec i s = .next { t with faultCmd := some (encode i) })

/-- 00_scope.md R7, 20_memory.md R52: under the constraints of R7 a frame's address does not wrap, its four
registers are distinct from those of every other channel and from the mode and prescale registers. -/
def Obligations.FrameAddressesStayApart : Prop :=
  ∀ p : Params, p.valid = true → ∀ c : Fin 16,
    (frameAddr p c).toNat = p.regBase.toNat + 4 * c.val
    ∧ ∀ k, k < 4 →
        (frameAddr p c).toNat + k ≤ 255
        ∧ (frameAddr p c).toNat + k ≠ p.modeReg.toNat
        ∧ (frameAddr p c).toNat + k ≠ p.prescaleReg.toNat
        ∧ ∀ (d : Fin 16) (j : Nat), j < 4 → d ≠ c → (frameAddr p c).toNat + k ≠ (frameAddr p d).toNat + j

/-- 60_exceptions.md R234, 40_pwm_driver.md R124, R126: the mode writes that SETFREQ on an initialised block, and
the first INIT, append to the trace: the sleep write sets the sleep bits, and both later writes carry them as
they were read. Premises: 00_scope.md R7, and that the wake bits are not the sleep bit (30_encoding.md R104
names them apart). -/
def Obligations.SleepBitLeftAsRead : Prop :=
  ∀ s : State, s.params.valid = true → s.params.wakeMask &&& s.params.sleepMask = 0#8 → s.fault = none →
    (∀ hz, 24 ≤ hz → hz ≤ 12207 → s.initialized = true → AnswersOk 5 s →
      ∃ t evs old slept restored final, exec (.setfreq hz) s = .next t ∧ t.trace = s.trace ++ evs
        ∧ .read s.params.chipAddr s.params.modeReg (some old) ∈ evs
        ∧ modeWrites s.params evs = [slept, restored, final]
        ∧ slept &&& s.params.sleepMask = s.params.sleepMask
        ∧ restored &&& s.params.sleepMask = old &&& s.params.sleepMask
        ∧ final &&& s.params.sleepMask = old &&& s.params.sleepMask)
    ∧ (s.initialized = false → AnswersOk 22 s →
      ∃ t evs old slept restored final, exec .init s = .next t ∧ t.trace = s.trace ++ evs
        ∧ .read s.params.chipAddr s.params.modeReg (some old) ∈ evs
        ∧ modeWrites s.params evs = [s.params.modeResetValue, slept, restored, final]
        ∧ slept &&& s.params.sleepMask = s.params.sleepMask
        ∧ restored &&& s.params.sleepMask = old &&& s.params.sleepMask
        ∧ final &&& s.params.sleepMask = old &&& s.params.sleepMask)

/-! ### The colour and brightness engine (41_color_engine.md) -/

/-- 41_color_engine.md R150. -/
def Obligations.BrightnessScaling : Prop :=
  ∀ comp br : Byte,
    (br = 255#8 → scale comp br = comp.toNat)
    ∧ (br ≠ 255#8 → scale comp br = comp.toNat * br.toNat / 256 ∧ scale comp br ≤ 253)
    ∧ (br = 0#8 → scale comp br = 0)
    ∧ 16 * scale comp br ≤ 4080

/-- 41_color_engine.md R151, R152: SETCOLOR stores the colour unscaled and sends the unit's three frames, red,
green, blue, scaled by the current brightness. -/
def Obligations.SetcolorDrivesUnit : Prop :=
  ∀ (u : LedUnit) (color : Color) (s : State), s.initialized = true → s.fault = none → AnswersOk 3 s →
    exec (.setcolor (ledNumber u) color) s = .next
      (framesSent (ledFrames s.params s.brightness color u)
        { s with ledColor := s.ledColor.set (ledIndex u) color })

/-- 41_color_engine.md R153: SETALL stores the colour in all four registers and sends the twelve frames, unit 1
to unit 4. -/
def Obligations.SetallDrivesEveryUnit : Prop :=
  ∀ (color : Color) (s : State), s.initialized = true → s.fault = none → AnswersOk 12 s →
    exec (.setall color) s = .next
      (framesSent ([LedUnit.u1, .u2, .u3, .u4].flatMap (ledFrames s.params s.brightness color))
        { s with ledColor := Vector.replicate 4 color })

/-- 41_color_engine.md R153: "The effect equals SETCOLOR 1, 2, 3, 4 in turn with the same colour." -/
def Obligations.SetallEqualsFourSetcolors : Prop :=
  ∀ (color : Color) (s : State), s.initialized = true → s.fault = none → AnswersOk 12 s →
    ∃ a b c d, exec (.setcolor 1 color) s = .next a ∧ exec (.setcolor 2 color) a = .next b
      ∧ exec (.setcolor 3 color) b = .next c ∧ exec (.setcolor 4 color) c = .next d
      ∧ exec (.setall color) s = .next d

/-- 41_color_engine.md R154, 70_reset_and_hazards.md R261: SETBRIGHT stores the clamped value and re-applies the
four stored colours under it. -/
def Obligations.SetbrightRefreshesEveryUnit : Prop :=
  ∀ (value : Int) (s : State), s.initialized = true → s.fault = none → AnswersOk 12 s →
    ∃ br : Byte, (br.toNat : Int) = max 0 (min value 255)
      ∧ exec (.setbright value) s = .next
        (framesSent ([LedUnit.u1, .u2, .u3, .u4].flatMap (fun u => ledFrames s.params br (s.led u) u))
          { s with brightness := br })

/-- 41_color_engine.md R151, R152, 40_pwm_driver.md R130: with channel maps that meet 00_scope.md R7 each of
the unit's three channels ends with on-tick 0 and off-tick 16 times its own scaled component; at
brightness 255 that is 16 times the component. -/
def Obligations.SetcolorLeavesDuties : Prop :=
  ∀ (u : LedUnit) (color : Color) (s : State), s.params.valid = true →
    s.initialized = true → s.fault = none → AnswersOk 3 s →
    ∃ t, exec (.setcolor (ledNumber u) color) s = .next t
      ∧ t.led u = color
      ∧ (∀ c ∈ [((s.params.led u).red, redOf color), ((s.params.led u).green, greenOf color),
            ((s.params.led u).blue, blueOf color)],
          t.chOn[c.1] = some 0#12
          ∧ ∃ off : Tick, t.chOff[c.1] = some off ∧ off.toNat = 16 * scale c.2 s.brightness
            ∧ (s.brightness = 255#8 → off.toNat = 16 * c.2.toNat))

/-- 41_color_engine.md R155: RGB writes `result` and nothing else; bits 9:8 of each input are dropped. -/
def Obligations.RgbPacksLowBytes : Prop :=
  ∀ (r g b : BitVec 10) (s : State), ∃ c : Color,
    exec (.rgb r g b) s = .next { s with result := some c }
    ∧ c.toNat = (r.toNat % 256) * 65536 + (g.toNat % 256) * 256 + b.toNat % 256

/-- 41_color_engine.md R156 to R163, written out on natural numbers: normalise, chroma, sector, second
component, sector table, offset, pack. HSL writes `result` and nothing else. (The formulas of `h2`, `t`,
`x`, `m` and the table are the spec's, marked there as from general knowledge; log entry 9.) -/
def Obligations.HslComputesPackedColor : Prop :=
  ∀ (h : Nat) (sat lum : Int) (s : State),
    let h' := h % 360
    let s' := (max 0 (min sat 99)).toNat
    let l' := (max 0 (min lum 99)).toNat
    let c := (100 - (if 2 * l' ≥ 100 then 2 * l' - 100 else 100 - 2 * l')) * s' * 256 / 10000
    let h1 := h' / 60
    let h2 := (h' - 60 * h1) * 256 / 60
    let t := if h1 % 2 = 0 then 256 - h2 else h2
    let x := c * (256 - t) / 256
    let m := (512 * l' / 100 - c) / 2
    let rgb : Nat × Nat × Nat :=
      match h1 with
      | 0 => (c, x, 0)
      | 1 => (x, c, 0)
      | 2 => (0, c, x)
      | 3 => (0, x, c)
      | 4 => (x, 0, c)
      | _ => (c, 0, x)
    let packed : Color :=
      BitVec.ofNat 8 (rgb.1 + m) ++ BitVec.ofNat 8 (rgb.2.1 + m) ++ BitVec.ofNat 8 (rgb.2.2 + m)
    exec (.hsl h sat lum) s = .next { s with result := some packed }

/-- 41_color_engine.md R157: the hue wraps modulo 360, saturation and luminosity clamp to 0..99. -/
def Obligations.HslHueWrapsOthersClamp : Prop :=
  ∀ (h : Nat) (sat lum : Int) (s : State),
    exec (.hsl (h + 360) sat lum) s = exec (.hsl h sat lum) s
    ∧ (sat < 0 → exec (.hsl h sat lum) s = exec (.hsl h 0 lum) s)
    ∧ (99 < sat → exec (.hsl h sat lum) s = exec (.hsl h 99 lum) s)
    ∧ (lum < 0 → exec (.hsl h sat lum) s = exec (.hsl h sat 0) s)
    ∧ (99 < lum → exec (.hsl h sat lum) s = exec (.hsl h sat 99) s)

/-- 41_color_engine.md R163: over all normalised inputs each component lies in 0..255, so that packing
removes no bit. -/
def Obligations.HslComponentsFitByte : Prop :=
  ∀ h sat lum : Nat, h < 360 → sat ≤ 99 → lum ≤ 99 →
    (0 ≤ (hslComponents h sat lum).1 ∧ (hslComponents h sat lum).1 ≤ 255)
    ∧ (0 ≤ (hslComponents h sat lum).2.1 ∧ (hslComponents h sat lum).2.1 ≤ 255)
    ∧ (0 ≤ (hslComponents h sat lum).2.2 ∧ (hslComponents h sat lum).2.2 ≤ 255)

/-- 41_color_engine.md R156: no saturation gives a grey, no luminosity gives black. -/
def Obligations.HslGreyAndBlack : Prop :=
  ∀ (h : Nat) (sat lum : Int) (s : State),
    (sat ≤ 0 → ∃ m : Byte, exec (.hsl h sat lum) s = .next { s with result := some (m ++ m ++ m) })
    ∧ (lum ≤ 0 → exec (.hsl h sat lum) s = .next { s with result := some 0x000000#24 })

/-! ### The motor engine (42_motor_engine.md) -/

/-- 42_motor_engine.md R190, R196: scaled by 16, saturated and never wrapped, unit 2 inverted. -/
def Obligations.MotorDutyMapping : Prop :=
  ∀ v : Int,
    (-255 ≤ v → v ≤ 255 → motorDuty .m1 v = 16 * v)
    ∧ (256 ≤ v → motorDuty .m1 v = 4095)
    ∧ (v ≤ -256 → motorDuty .m1 v = -4095)
    ∧ motorDuty .m2 v = -(motorDuty .m1 v)

/-- 42_motor_engine.md R190, R191, R194: RUN and STOP on a unit send its two frames, forward first. -/
def Obligations.RunAndStopDriveUnit : Prop :=
  ∀ (v : Int) (s : State), s.initialized = true → s.fault = none → AnswersOk 2 s →
    exec (.run 1 v) s = .next (framesSent (motorFrames s.params .m1 v) s)
    ∧ exec (.run 2 v) s = .next (framesSent (motorFrames s.params .m2 v) s)
    ∧ exec (.stop 1) s = .next (framesSent (motorFrames s.params .m1 0) s)
    ∧ exec (.stop 2) s = .next (framesSent (motorFrames s.params .m2 0) s)

/-- 42_motor_engine.md R192, R193, R195: the commands on both units send four frames, unit 1 first. -/
def Obligations.DualCommandsDriveBothUnits : Prop :=
  ∀ (a b : Int) (s : State), s.initialized = true → s.fault = none → AnswersOk 4 s →
    exec (.rundual a b) s = .next (framesSent (motorFrames s.params .m1 a ++ motorFrames s.params .m2 b) s)
    ∧ exec (.move a) s = .next (framesSent (motorFrames s.params .m1 a ++ motorFrames s.params .m2 a) s)
    ∧ exec .stopall s = .next (framesSent (motorFrames s.params .m1 0 ++ motorFrames s.params .m2 0) s)

/-- 30_encoding.md R101: MOVE, STOP and STOPALL have the effect of RUNDUAL and RUN, on any bus and from any
state; only the word recorded on a bus failure is the command's own. -/
def Obligations.MotorCommandsDefinedByOthers : Prop :=
  ∀ (s : State), s.fault = none →
    (∀ v t t', exec (.move v) s = .next t → exec (.rundual v v) s = .next t' →
      { t with faultCmd := none } = { t' with faultCmd := none })
    ∧ (∀ m t t', exec (.stop m) s = .next t → exec (.run m 0) s = .next t' →
      { t with faultCmd := none } = { t' with faultCmd := none })
    ∧ (∀ t t', exec .stopall s = .next t → exec (.rundual 0 0) s = .next t' →
      { t with faultCmd := none } = { t' with faultCmd := none })

/-- 70_reset_and_hazards.md R260: after a fault-free motor command at most one of a driven unit's two
channels has a non-zero duty (here: one of them holds exactly 0), and both have on-tick 0. -/
def Obligations.NoStaleMotorDuty : Prop :=
  ∀ (s t : State), s.params.valid = true → s.fault = none → t.fault = none →
    (∀ v, exec (.run 1 v) s = .next t ∨ exec (.stop 1) s = .next t →
      (t.chOff[s.params.motor1.forward] = some 0#12 ∨ t.chOff[s.params.motor1.reverse] = some 0#12)
      ∧ t.chOn[s.params.motor1.forward] = some 0#12 ∧ t.chOn[s.params.motor1.reverse] = some 0#12)
    ∧ (∀ v, exec (.run 2 v) s = .next t ∨ exec (.stop 2) s = .next t →
      (t.chOff[s.params.motor2.forward] = some 0#12 ∨ t.chOff[s.params.motor2.reverse] = some 0#12)
      ∧ t.chOn[s.params.motor2.forward] = some 0#12 ∧ t.chOn[s.params.motor2.reverse] = some 0#12)
    ∧ (∀ a b, exec (.rundual a b) s = .next t ∨ exec (.move a) s = .next t ∨ exec .stopall s = .next t →
      (t.chOff[s.params.motor1.forward] = some 0#12 ∨ t.chOff[s.params.motor1.reverse] = some 0#12)
      ∧ (t.chOff[s.params.motor2.forward] = some 0#12 ∨ t.chOff[s.params.motor2.reverse] = some 0#12))

/-! ### Frames: what a command leaves alone, on any bus, initialised or not -/

/-- 40_pwm_driver.md R127 to R129: INIT, SETFREQ and SETCH write no colour register, no brightness, no
result and nothing of the host's side. On an initialised block SETCH touches its own channel only, and
SETFREQ touches no channel and sends no frame; INIT changes nothing at all there. -/
def Obligations.DriverCommandsFrame : Prop :=
  ∀ (i : Instr) (s t : State),
    (i = .init ∨ (∃ hz, i = .setfreq hz) ∨ (∃ ch on off, i = .setch ch on off)) →
    s.fault = none → exec i s = .next t →
    t.brightness = s.brightness ∧ t.ledColor = s.ledColor ∧ t.result = s.result ∧ SameHostSide s t
    ∧ (t.fault = none → t.faultCmd = s.faultCmd)
    ∧ (s.initialized = true → t.initialized = true)
    ∧ (s.initialized = true → i = .init → t = s)
    ∧ (s.initialized = true → (∃ ch on off, i = .setch ch on off) →
        OnlyChannels (channelsDriven s.params i) s t)
    ∧ (s.initialized = true → (∃ hz, i = .setfreq hz) →
        t.chOn = s.chOn ∧ t.chOff = s.chOff
        ∧ ∃ evs, t.trace = s.trace ++ evs ∧ ∀ e ∈ evs, ∀ chip bytes ok, e ≠ .buffer chip bytes ok)

/-- 41_color_engine.md R152 to R154, R164: SETCOLOR writes only its own unit's colour, SETALL only colours,
SETBRIGHT only the brightness; none writes `result` or the host's side; on an initialised block only the
units' own channels are driven. -/
def Obligations.LedCommandsFrame : Prop :=
  ∀ (i : Instr) (s t : State),
    ((∃ unit color, i = .setcolor unit color) ∨ (∃ color, i = .setall color) ∨ (∃ v, i = .setbright v)) →
    s.fault = none → exec i s = .next t →
    t.result = s.result ∧ SameHostSide s t
    ∧ (t.fault = none → t.faultCmd = s.faultCmd)
    ∧ (s.initialized = true → t.initialized = true)
    ∧ ((∀ v, i ≠ .setbright v) → t.brightness = s.brightness)
    ∧ ((∃ v, i = .setbright v) → t.ledColor = s.ledColor)
    ∧ (∀ unit color, i = .setcolor unit color → ∀ u, ledNumber u ≠ unit → t.led u = s.led u)
    ∧ (s.initialized = true → OnlyChannels (channelsDriven s.params i) s t)

/-- 42_motor_engine.md R191 to R196: the motor commands write no colour register, no brightness, no result and
nothing of the host's side; on an initialised block only the driven units' two channels are touched. -/
def Obligations.MotorCommandsFrame : Prop :=
  ∀ (i : Instr) (s t : State),
    ((∃ m v, i = .run m v) ∨ (∃ a b, i = .rundual a b) ∨ (∃ v, i = .move v) ∨ (∃ m, i = .stop m)
      ∨ i = .stopall) →
    s.fault = none → exec i s = .next t →
    t.brightness = s.brightness ∧ t.ledColor = s.ledColor ∧ t.result = s.result ∧ SameHostSide s t
    ∧ (t.fault = none → t.faultCmd = s.faultCmd)
    ∧ (s.initialized = true → t.initialized = true)
    ∧ (s.initialized = true → OnlyChannels (channelsDriven s.params i) s t)

/-! ### Rules about the whole machine -/

/-- 70_reset_and_hazards.md R265: exact counts of bus transactions and delays on a fault-free path, for every
command, initialised or not. -/
def Obligations.CommandCosts : Prop :=
  ∀ (i : Instr) (s t : State), s.fault = none → exec i s = .next t → t.fault = none →
    transactions t.trace = transactions s.trace + busCost i
        + (if runsSetup i = true ∧ s.initialized = false then 22 else 0)
    ∧ delays t.trace = delays s.trace + delayCost i
        + (if runsSetup i = true ∧ s.initialized = false then 1 else 0)

/-- 10_state.md R34: no step changes a parameter. 00_scope.md R16: but for reset, the trace only grows. -/
def Obligations.ParametersFixedTraceGrows : Prop :=
  ∀ s t : State, step s = .next t →
    t.params = s.params ∧ (s.resetInput = false → ∃ evs, t.trace = s.trace ++ evs)

/-- 10_state.md R24: the flag is 0 after reset, is what `STATUS[0]` shows, is cleared by nothing but reset, and
goes from 0 to 1 exactly by a completed set-up: a step that sets it had all 22 transactions of the set-up
answered ok and emitted its events, and a command that runs the set-up with all 22 answered ok sets it,
whatever becomes of the command's own transactions. (The word presented as part of the state: log entry 6.) -/
def Obligations.InitializedSetBySetupOnly : Prop :=
  State.reset.initialized = false
  ∧ (∀ s : State, s.status.getLsbD 0 = s.initialized)
  ∧ ∀ s t : State, step s = .next t → s.resetInput = false →
      (s.initialized = true → t.initialized = true)
      ∧ (s.initialized = false → t.initialized = true →
          AnswersOk 22 s ∧ ∃ rest, t.trace = s.trace ++ initEvents s.params (answerAt s 1).byte ++ rest)
      ∧ (s.initialized = false → s.fault = none → AnswersOk 22 s →
          ∀ w i, s.program[s.cursor]? = some w → decode w = .instr i → runsSetup i = true →
            t.initialized = true)

/-- 10_state.md R27, R28, R33: only SETBRIGHT writes the brightness, only SETCOLOR and SETALL a stored colour,
only RGB and HSL the result. -/
def Obligations.RegisterWriters : Prop :=
  ∀ (s t : State) (w : Command), s.resetInput = false → s.program[s.cursor]? = some w → step s = .next t →
    (t.brightness ≠ s.brightness →
      ∃ v, decode w = .instr (.setbright v) ∧ (t.brightness.toNat : Int) = max 0 (min v 255))
    ∧ (∀ u, t.led u ≠ s.led u →
      ∃ color, t.led u = color
        ∧ (decode w = .instr (.setcolor (ledNumber u) color) ∨ decode w = .instr (.setall color)))
    ∧ (t.result ≠ s.result →
      (∃ r g b, decode w = .instr (.rgb r g b)) ∨ (∃ h sat lum, decode w = .instr (.hsl h sat lum)))

/-! ### Invariants that every step keeps -/

/-- 10_state.md R31: the shadow registers record the last frame that succeeded on each channel. -/
def Obligations.ShadowsRecordTraceKept : Prop :=
  ∀ s t : State, ShadowsRecordTrace s → step s = .next t → ShadowsRecordTrace t

/-- 70_reset_and_hazards.md R256: no step writes the prescaler but directly after a write that set the sleep
bit. The premise is 00_scope.md R7. -/
def Obligations.PrescaleOnlyAsleepKept : Prop :=
  ∀ s t : State, s.params.valid = true → PrescaleOnlyAsleep s → step s = .next t → PrescaleOnlyAsleep t

/-- 60_exceptions.md R223, R224: faults stay precise. -/
def Obligations.TracePreciseKept : Prop :=
  ∀ s t : State, TracePrecise s → step s = .next t → TracePrecise t

/-- 10_state.md R24, R32, 40_pwm_driver.md R126: what `initialized` says of the shadow registers and the trace. -/
def Obligations.SetupRecordedKept : Prop :=
  ∀ s t : State, SetupRecorded s → step s = .next t → SetupRecorded t

/-- 60_exceptions.md R221, R224: `fault_cmd` is a word that raises the recorded cause. -/
def Obligations.FaultRecordFitsKept : Prop :=
  ∀ s t : State, FaultRecordFits s → step s = .next t → FaultRecordFits t

/-- 20_memory.md R50 to R52, R58, 30_encoding.md R105: every event stays in the block's register map. The
premise is 00_scope.md R7. -/
def Obligations.TraceInMapKept : Prop :=
  ∀ s t : State, s.params.valid = true → TraceInMap s → step s = .next t → TraceInMap t

/-- The six invariants hold right after reset, and the parameters then meet 00_scope.md R7 (log entry 1: the
model's choice of constant). -/
def Obligations.InvariantsHoldAtReset : Prop :=
  ShadowsRecordTrace State.reset ∧ PrescaleOnlyAsleep State.reset ∧ TracePrecise State.reset
  ∧ SetupRecorded State.reset ∧ FaultRecordFits State.reset ∧ TraceInMap State.reset
  ∧ State.reset.params.valid = true

/-! ### A failing bus: what was written before the failure stays written -/

/-- 41_color_engine.md R152, R153, R154, 60_exceptions.md R223 (92_eei_decisions.md D33): where frame number `k` of
an LED command fails, the frames before it are sent and recorded, the failed one is the last event, and the
block is faulted with the command's word. SETCOLOR's colour is already stored; SETALL has stored it in the
units up to the one being applied and left the others' colours; SETBRIGHT's clamped value is already stored. -/
def Obligations.LedBusFailureKeepsEarlierWrites : Prop :=
  ∀ (s : State) (k : Nat) (f : Frame), s.initialized = true → s.fault = none → FailsFirstAt k s →
    (∀ u color, (ledFrames s.params s.brightness color u)[k]? = some f →
      exec (.setcolor (ledNumber u) color) s = .next
        (stoppedAtFrame (encode (.setcolor (ledNumber u) color))
          ((ledFrames s.params s.brightness color u).take k) f
          { s with ledColor := s.ledColor.set (ledIndex u) color }))
    ∧ (∀ color, ([LedUnit.u1, .u2, .u3, .u4].flatMap (ledFrames s.params s.brightness color))[k]? = some f →
      ∃ t, exec (.setall color) s = .next t
        ∧ (∀ u, t.led u = if 3 * (ledNumber u - 1) ≤ k then color else s.led u)
        ∧ { t with ledColor := s.ledColor } = stoppedAtFrame (encode (.setall color))
            (([LedUnit.u1, .u2, .u3, .u4].flatMap (ledFrames s.params s.brightness color)).take k) f s)
    ∧ (∀ value, ∃ br : Byte, (br.toNat : Int) = max 0 (min value 255)
      ∧ (([LedUnit.u1, .u2, .u3, .u4].flatMap (fun u => ledFrames s.params br (s.led u) u))[k]? = some f →
        exec (.setbright value) s = .next
          (stoppedAtFrame (encode (.setbright value))
            (([LedUnit.u1, .u2, .u3, .u4].flatMap (fun u => ledFrames s.params br (s.led u) u)).take k) f
            { s with brightness := br })))

/-- 40_pwm_driver.md R125, R129, 42_motor_engine.md R190 to R195, 60_exceptions.md R223: where frame number `k` of
SETCH or a motor command fails, the frames before it are sent and recorded (a fault in unit 2's frames leaves
unit 1 updated), the failed one is the last event and writes no shadow register, and the block is faulted
with the command's word. -/
def Obligations.ChannelBusFailureKeepsEarlierFrames : Prop :=
  ∀ (s : State) (k : Nat) (f : Frame), s.initialized = true → s.fault = none → FailsFirstAt k s →
    (∀ (ch : Fin 16) on off, k = 0 → f = ⟨ch, on, off⟩ →
      exec (.setch ch.val on off) s = .next (stoppedAtFrame (encode (.setch ch.val on off)) [] f s))
    ∧ (∀ v, (motorFrames s.params .m1 v)[k]? = some f →
      exec (.run 1 v) s = .next (stoppedAtFrame (encode (.run 1 v)) ((motorFrames s.params .m1 v).take k) f s))
    ∧ (∀ v, (motorFrames s.params .m2 v)[k]? = some f →
      exec (.run 2 v) s = .next (stoppedAtFrame (encode (.run 2 v)) ((motorFrames s.params .m2 v).take k) f s))
    ∧ (∀ a b, (motorFrames s.params .m1 a ++ motorFrames s.params .m2 b)[k]? = some f →
      exec (.rundual a b) s = .next (stoppedAtFrame (encode (.rundual a b))
        ((motorFrames s.params .m1 a ++ motorFrames s.params .m2 b).take k) f s))
    ∧ (∀ v, (motorFrames s.params .m1 v ++ motorFrames s.params .m2 v)[k]? = some f →
      exec (.move v) s = .next (stoppedAtFrame (encode (.move v))
        ((motorFrames s.params .m1 v ++ motorFrames s.params .m2 v).take k) f s))
    ∧ ((motorFrames s.params .m1 0)[k]? = some f →
      exec (.stop 1) s = .next (stoppedAtFrame (encode (.stop 1)) ((motorFrames s.params .m1 0).take k) f s))
    ∧ ((motorFrames s.params .m2 0)[k]? = some f →
      exec (.stop 2) s = .next (stoppedAtFrame (encode (.stop 2)) ((motorFrames s.params .m2 0).take k) f s))
    ∧ ((motorFrames s.params .m1 0 ++ motorFrames s.params .m2 0)[k]? = some f →
      exec .stopall s = .next (stoppedAtFrame (encode .stopall)
        ((motorFrames s.params .m1 0 ++ motorFrames s.params .m2 0).take k) f s))
end

