-- ==== Sys2Proof/Laws/Assembler.lean ====
section
/-! SUPPORT. What the pieces of the assembler do to spelled text: digits, numbers, white space, commas, comments.
Proofs about lines cite these and do not unfold the readers. -/

namespace Sys2Proof.Machine

/-! ### Numbers -/

theorem decDigit_digitChar : ∀ d < 10, decDigit (digitChar true d) = some d := by decide
theorem hexDigit_digitChar : ∀ d < 16, ∀ capitals, hexDigit (digitChar capitals d) = some d := by decide

/-- Reading a row of digits gives its value. -/
theorem readDigits_map {base n : Nat} {digit : Char → Option Nat} {g : Nat → Char}
    (hg : ∀ d < n, digit (g d) = some d) :
    ∀ (ds : List Nat) (acc : Nat), (∀ d ∈ ds, d < n) →
      readDigits base digit acc (ds.map g) = some (ds.foldl (fun acc d => base * acc + d) acc)
  | [], _, _ => rfl
  | d :: ds, acc, h => by
    simp only [List.map_cons, readDigits, hg d (h d (by simp)), List.foldl_cons]
    rw [readDigits_map hg ds _ fun e he => h e (by simp [he]), Nat.mul_comm]

/-- Everything a character of a number is not. -/
abbrev Plain (c : Char) : Prop := isBlank c = false ∧ c ≠ ',' ∧ c ≠ ';'

theorem plain_digitChar : ∀ d < 16, ∀ capitals, Plain (digitChar capitals d) := by decide

theorem plain_map_digitChar {ds : List Nat} {n : Nat} (capitals : Bool) (hn : n ≤ 16) (h : ∀ d ∈ ds, d < n) :
    ∀ c ∈ ds.map (digitChar capitals), Plain c := by
  intro c hc
  obtain ⟨d, hd, rfl⟩ := List.mem_map.mp hc
  exact plain_digitChar d (by have := h d hd; omega) capitals

/-- A number is not empty and has no white space, comma or semicolon. -/
theorem NumberText.plain {signed : Bool} {text : List Char} {v : Int} (h : NumberText signed text v) :
    text ≠ [] ∧ ∀ c ∈ text, Plain c := by
  have dec : ∀ {t n}, DecimalText t n → t ≠ [] ∧ ∀ c ∈ t, Plain c := by
    rintro _ _ ⟨ds, h0, h1, rfl, -⟩
    exact ⟨by simpa using h0, plain_map_digitChar true (by omega) h1⟩
  rcases h with ⟨n, -, h | ⟨ds, cap, h0, h1, rfl, -⟩⟩ | ⟨-, n, t, -, rfl, h⟩
  · exact dec h
  · refine ⟨by simp, ?_⟩
    simp only [List.forall_mem_cons]
    exact ⟨by decide, by decide, plain_map_digitChar cap (by omega) h1⟩
  · refine ⟨by simp, ?_⟩
    simp only [List.forall_mem_cons]
    exact ⟨by decide, (dec h).2⟩

theorem readDecimal_of_decimalText {text : List Char} {n : Nat} (h : DecimalText text n) :
    readDecimal text = some n := by
  obtain ⟨ds, h0, h1, rfl, rfl⟩ := h
  cases ds with
  | nil => exact absurd rfl h0
  | cons d ds =>
    rw [readDecimal, if_neg (by simp)]
    exact readDigits_map decDigit_digitChar _ 0 h1

/-- A decimal number is read as decimal: it does not begin with `0x`. -/
theorem readUnsigned_of_decimalText {text : List Char} {n : Nat} (h : DecimalText text n) :
    readUnsigned text = some n := by
  have hr := readDecimal_of_decimalText h
  have nox : ∀ d < 10, digitChar true d ≠ 'x' := by decide
  unfold readUnsigned
  split
  · rename_i cs
    obtain ⟨ds, -, h1, h2, -⟩ := h
    have hx : 'x' ∈ ds.map (digitChar true) := by rw [← h2]; simp
    obtain ⟨d, hd, hdx⟩ := List.mem_map.mp hx
    exact absurd hdx (nox d (h1 d hd))
  · exact hr

theorem readUnsigned_of_hexText {text : List Char} {n : Nat} (h : HexText text n) : readUnsigned text = some n := by
  obtain ⟨ds, cap, h0, h1, rfl, rfl⟩ := h
  cases ds with
  | nil => exact absurd rfl h0
  | cons d ds =>
    simp only [readUnsigned, List.map_cons, List.isEmpty_cons]
    exact readDigits_map (fun d hd => hexDigit_digitChar d hd cap) (d :: ds) 0 h1

/-- A number after a minus sign is no unsigned operand. -/
theorem readUnsigned_minus (cs : List Char) : readUnsigned ('-' :: cs) = none := by
  have : decDigit '-' = none := by decide
  simp [readUnsigned, readDecimal, readDigits, this]

/-- An unsigned operand is read from a number without a sign, and from no other. -/
theorem readUnsigned_of_numberText {text : List Char} {v : Int} (h : NumberText true text v) :
    (∃ n : Nat, v = n ∧ readUnsigned text = some n) ∨ (v ≤ 0 ∧ readUnsigned text = none) := by
  rcases h with ⟨n, hv, h | h⟩ | ⟨-, n, t, hv, rfl, -⟩
  · exact .inl ⟨n, hv, readUnsigned_of_decimalText h⟩
  · exact .inl ⟨n, hv, readUnsigned_of_hexText h⟩
  · exact .inr ⟨by omega, readUnsigned_minus t⟩

theorem readUnsigned_of_unsigned {text : List Char} {n : Nat} (h : NumberText false text n) :
    readUnsigned text = some n := by
  rcases h with ⟨m, hv, h | h⟩ | ⟨h, -⟩
  · rw [Int.ofNat.inj hv]; exact readUnsigned_of_decimalText h
  · rw [Int.ofNat.inj hv]; exact readUnsigned_of_hexText h
  · cases h

/-- A signed operand is read from every number. -/
theorem readSigned_of_numberText {text : List Char} {v : Int} (h : NumberText true text v) :
    readSigned text = some v := by
  rcases h with ⟨n, rfl, h⟩ | ⟨-, n, t, rfl, rfl, h⟩
  · have hu : readUnsigned text = some n := h.elim readUnsigned_of_decimalText readUnsigned_of_hexText
    unfold readSigned
    split
    · rw [readUnsigned_minus] at hu; cases hu
    · rw [hu]; rfl
  · simp [readSigned, readDecimal_of_decimalText h]

/-- A bit-vector operand is read exactly when the number fits its field. -/
theorem readBits_eq {n : Nat} {text : List Char} {v : Nat} (h : readUnsigned text = some v) :
    readBits n text = if v < 2 ^ n then some (BitVec.ofNat n v) else none := by
  simp [readBits, h]

theorem readBits_of_unsigned {n : Nat} {text : List Char} {b : BitVec n}
    (h : NumberText false text (b.toNat : Int)) : readBits n text = some b := by
  rw [readBits_eq (readUnsigned_of_unsigned h), if_pos b.isLt, BitVec.ofNat_toNat, BitVec.setWidth_eq]

/-! ### White space -/

theorem isBlank_of_blanks {cs : List Char} (h : Blanks cs) : ∀ c ∈ cs, isBlank c = true := by
  intro c hc
  rcases h c hc with rfl | rfl <;> decide

theorem dropWhile_blanks_append {l xs : List Char} (h : ∀ c ∈ l, isBlank c = true) :
    (l ++ xs).dropWhile isBlank = xs.dropWhile isBlank :=
  List.dropWhile_append_of_pos h

/-- White space on either side is removed; text that begins and ends with another character stays. -/
theorem trimBlanks_padded {l text r : List Char} (hl : ∀ c ∈ l, isBlank c = true)
    (hr : ∀ c ∈ r, isBlank c = true) (h0 : ∃ c cs, text = c :: cs ∧ isBlank c = false)
    (h1 : ∃ cs c, text = cs ++ [c] ∧ isBlank c = false) : trimBlanks (l ++ text ++ r) = text := by
  obtain ⟨a, as, ha, hab⟩ := h0
  have e : (l ++ text ++ r).dropWhile isBlank = text ++ r := by
    rw [List.append_assoc, dropWhile_blanks_append hl, ha]
    simp [hab]
  obtain ⟨bs, b, hb, hbb⟩ := h1
  rw [trimBlanks, e, List.reverse_append, dropWhile_blanks_append (by simpa using hr), hb]
  simp [hbb]

theorem exists_cons_of_plain {text : List Char} (h0 : text ≠ []) (h : ∀ c ∈ text, Plain c) :
    ∃ c cs, text = c :: cs ∧ isBlank c = false := by
  cases text with
  | nil => exact absurd rfl h0
  | cons c cs => exact ⟨c, cs, rfl, (h c (by simp)).1⟩

theorem exists_concat_of_plain {text : List Char} (h0 : text ≠ []) (h : ∀ c ∈ text, Plain c) :
    ∃ cs c, text = cs ++ [c] ∧ isBlank c = false :=
  ⟨text.dropLast, text.getLast h0, (List.dropLast_append_getLast h0).symm, (h _ (List.getLast_mem h0)).1⟩

theorem trimBlanks_plain {l text r : List Char} (hl : Blanks l) (hr : Blanks r) (h0 : text ≠ [])
    (h : ∀ c ∈ text, Plain c) : trimBlanks (l ++ text ++ r) = text :=
  trimBlanks_padded (isBlank_of_blanks hl) (isBlank_of_blanks hr) (exists_cons_of_plain h0 h)
    (exists_concat_of_plain h0 h)

/-- Text with a character that is no white space is not trimmed to nothing. -/
theorem trimBlanks_ne_nil {cs : List Char} {c : Char} (hc : c ∈ cs) (hb : isBlank c = false) :
    trimBlanks cs ≠ [] := by
  have drop : ∀ {xs : List Char}, c ∈ xs → c ∈ xs.dropWhile isBlank := by
    intro xs hx
    rw [← List.takeWhile_append_dropWhile (p := isBlank) (l := xs)] at hx
    rcases List.mem_append.mp hx with hx | hx
    · rw [List.mem_takeWhile_imp hx] at hb; cases hb
    · exact hx
  exact List.ne_nil_of_mem (List.mem_reverse.mpr (drop (List.mem_reverse.mpr (drop hc))))

/-! ### Commas and comments -/

theorem splitPieces_ne_nil (sep : Char) (cs : List Char) : splitPieces sep cs ≠ [] := by
  cases cs with
  | nil => simp [splitPieces]
  | cons c cs =>
    unfold splitPieces
    split
    · simp
    · split <;> simp

theorem splitPieces_cons_sep (sep : Char) (cs : List Char) :
    splitPieces sep (sep :: cs) = [] :: splitPieces sep cs := by
  cases h : splitPieces sep cs with
  | nil => exact absurd h (splitPieces_ne_nil sep cs)
  | cons p ps => simp [splitPieces, h]

theorem splitPieces_cons_other {sep c : Char} (hc : c ≠ sep) {cs p : List Char} {ps : List (List Char)}
    (h : splitPieces sep cs = p :: ps) : splitPieces sep (c :: cs) = (c :: p) :: ps := by
  simp [splitPieces, h, hc]

/-- Text without the separator joins the first piece. -/
theorem splitPieces_append {sep : Char} {xs cs p : List Char} {ps : List (List Char)} (hx : ∀ c ∈ xs, c ≠ sep)
    (h : splitPieces sep cs = p :: ps) : splitPieces sep (xs ++ cs) = (xs ++ p) :: ps := by
  induction xs with
  | nil => exact h
  | cons x xs ih => exact splitPieces_cons_other (hx x (by simp)) (ih fun c hc => hx c (by simp [hc]))

theorem no_comma_of_blanks {cs : List Char} (h : Blanks cs) : ∀ c ∈ cs, c ≠ ',' := by
  intro c hc
  rcases h c hc with rfl | rfl <;> decide

/-- White space before the first operand belongs to it. -/
theorem CommaSeparated.cons_blank {texts : List (List Char)} {operands : List Char} {b : Char} (hb : Blanks [b])
    (h : CommaSeparated texts operands) : CommaSeparated texts (b :: operands) := by
  have cons : ∀ {l : List Char}, Blanks l → Blanks (b :: l) := fun hl => List.forall_mem_cons.mpr ⟨hb b (by simp), hl⟩
  cases h with
  | one l t r hl hr => exact .one (b :: l) t r (cons hl) hr
  | more l t r texts rest hl hr h => exact .more (b :: l) t r texts rest (cons hl) hr h

/-- Splitting at the commas and trimming gives the operand texts back. -/
theorem CommaSeparated.split {texts : List (List Char)} {operands : List Char}
    (h : CommaSeparated texts operands) (ht : ∀ t ∈ texts, t ≠ [] ∧ ∀ c ∈ t, Plain c) :
    (splitPieces ',' operands).map trimBlanks = texts := by
  have piece : ∀ {l t r : List Char}, Blanks l → Blanks r → (∀ c ∈ t, Plain c) → ∀ c ∈ l ++ t ++ r, c ≠ ',' := by
    intro l t r hl hr ht c hc
    simp only [List.mem_append] at hc
    rcases hc with (hc | hc) | hc
    exacts [no_comma_of_blanks hl c hc, (ht c hc).2.1, no_comma_of_blanks hr c hc]
  induction h with
  | one l t r hl hr =>
    have ht := ht t (by simp)
    have e := splitPieces_append (cs := []) (p := []) (ps := []) (piece hl hr ht.2) rfl
    rw [List.append_nil] at e
    rw [e, List.map_singleton, trimBlanks_plain hl hr ht.1 ht.2]
  | more l t r texts rest hl hr _ ih =>
    have ht' := ht t (by simp)
    rw [splitPieces_append (piece hl hr ht'.2) (splitPieces_cons_sep ',' rest), List.append_nil, List.map_cons,
      trimBlanks_plain hl hr ht'.1 ht'.2, ih fun u hu => ht u (by simp [hu])]

/-- Operand texts end with white space after a last character that is none. -/
theorem CommaSeparated.trimRight {texts : List (List Char)} {operands : List Char}
    (h : CommaSeparated texts operands) (ht : ∀ t ∈ texts, t ≠ [] ∧ ∀ c ∈ t, Plain c) :
    ∃ cs c r, operands = cs ++ [c] ++ r ∧ isBlank c = false ∧ Blanks r ∧ CommaSeparated texts (cs ++ [c]) := by
  induction h with
  | one l t r hl hr =>
    obtain ⟨bs, b, e, hb⟩ := exists_concat_of_plain (ht t (by simp)).1 (ht t (by simp)).2
    refine ⟨l ++ bs, b, r, by simp [e], hb, hr, ?_⟩
    have := CommaSeparated.one l t [] hl (by intro c hc; cases hc)
    rwa [List.append_nil, e, ← List.append_assoc, ← e] at this
  | more l t r texts rest hl hr _ ih =>
    obtain ⟨cs, c, r', e, hc, hr', h'⟩ := ih fun u hu => ht u (by simp [hu])
    refine ⟨l ++ t ++ r ++ ',' :: cs, c, r', by simp [e], hc, hr', ?_⟩
    have := CommaSeparated.more l t r texts (cs ++ [c]) hl hr h'
    simpa using this

/-- No semicolon stands in spelled operands. -/
theorem CommaSeparated.no_semicolon {texts : List (List Char)} {operands : List Char}
    (h : CommaSeparated texts operands) (ht : ∀ t ∈ texts, t ≠ [] ∧ ∀ c ∈ t, Plain c) :
    ∀ c ∈ operands, c ≠ ';' := by
  have blank : ∀ {cs : List Char}, Blanks cs → ∀ c ∈ cs, c ≠ ';' := by
    intro cs h c hc
    rcases h c hc with rfl | rfl <;> decide
  induction h with
  | one l t r hl hr =>
    intro c hc
    simp only [List.mem_append] at hc
    rcases hc with (hc | hc) | hc
    exacts [blank hl c hc, ((ht t (by simp)).2 c hc).2.2, blank hr c hc]
  | more l t r texts rest hl hr _ ih =>
    intro c hc
    simp only [List.mem_append, List.mem_cons] at hc
    rcases hc with ((hc | hc) | hc) | rfl | hc
    exacts [blank hl c hc, ((ht t (by simp)).2 c hc).2.2, blank hr c hc, by decide,
      ih (fun u hu => ht u (by simp [hu])) c hc]

/-- A comment is dropped; text without a semicolon stays. -/
theorem dropComment_append {cs comment : List Char} (h : ∀ c ∈ cs, c ≠ ';')
    (hc : comment = [] ∨ ∃ words, comment = ';' :: words) : dropComment (cs ++ comment) = cs := by
  have e : (cs ++ comment).takeWhile (fun c => c != ';') = cs ++ comment.takeWhile (fun c => c != ';') :=
    List.takeWhile_append_of_pos (by simpa using h)
  rw [dropComment, e]
  rcases hc with rfl | ⟨words, rfl⟩ <;> simp

/-! ### Lines -/

/-- Every mnemonic is one word. -/
theorem mnemonicOf_plain (o : Op) : mnemonicOf o ≠ [] ∧ ∀ c ∈ mnemonicOf o, Plain c := by
  have h : (mnemonicOf o).all (fun c => decide (Plain c)) = true := by cases o <;> rfl
  exact ⟨by cases o <;> exact List.cons_ne_nil _ _, fun c hc => by simpa using List.all_eq_true.mp h c hc⟩

/-- A mnemonic selects its own row. -/
theorem buildInstr_mnemonicOf (o : Op) (args : List (List Char)) :
    buildInstr (mnemonicOf o) args = buildOperands args o := by
  cases o <;> rfl

/-- A line that spells a mnemonic and operand texts reaches `buildOperands` as that row and those texts. -/
theorem assembleLine_of_spellsLine {o : Op} {texts : List (List Char)} {line : List Char}
    (ht : ∀ t ∈ texts, t ≠ [] ∧ ∀ c ∈ t, Plain c) (h : SpellsLine (mnemonicOf o) texts line) :
    assembleLine line = match buildOperands texts o with
      | none => .error
      | some i => if i.wellFormed then .command i (encode i) else .error := by
  rw [← buildInstr_mnemonicOf]
  have hm := mnemonicOf_plain o
  generalize mnemonicOf o = m at h hm ⊢
  obtain ⟨lead, tail, comment, hlead, hcomment, rfl, htail⟩ := h
  have hblank : ∀ {cs : List Char}, Blanks cs → ∀ c ∈ cs, c ≠ ';' := by
    intro cs h c hc
    rcases h c hc with rfl | rfl <;> decide
  -- the body after the comment and the outer white space are gone, with the operand texts still in it
  obtain ⟨tail', hsemi, htrim, hhead, hops⟩ : ∃ tail' : List Char, (∀ c ∈ tail, c ≠ ';')
      ∧ trimBlanks (lead ++ m ++ tail) = m ++ tail'
      ∧ (∀ c, tail'.head? = some c → isBlank c = true) ∧ operandTexts tail' = texts := by
    rcases htail with ⟨rfl, hb⟩ | ⟨b, operands, hb, rfl, hcs⟩
    · exact ⟨[], hblank hb, by rw [List.append_nil]; exact trimBlanks_plain hlead hb hm.1 hm.2, by simp, rfl⟩
    · obtain ⟨cs, c, r, rfl, hc, hr, hcs'⟩ := hcs.trimRight ht
      have hbb : isBlank b = true := isBlank_of_blanks hb b (by simp)
      have hbc : b ≠ ',' := no_comma_of_blanks hb b (by simp)
      obtain ⟨a, as, ea, hab⟩ := exists_cons_of_plain hm.1 hm.2
      refine ⟨b :: (cs ++ [c]), ?_, ?_, ?_, ?_⟩
      · intro d hd
        rcases List.mem_cons.mp hd with rfl | hd
        · exact hblank hb d (by simp)
        · exact hcs.no_semicolon ht d hd
      · have := trimBlanks_padded (l := lead) (text := m ++ b :: (cs ++ [c])) (r := r) (isBlank_of_blanks hlead)
          (isBlank_of_blanks hr) ⟨a, as ++ b :: (cs ++ [c]), by simp [ea], hab⟩
          ⟨m ++ b :: cs, c, by simp, hc⟩
        rw [← this]; simp
      · intro d hd
        simp at hd
        rw [← hd, hbb]
      · rw [operandTexts, if_neg (by
          rw [List.isEmpty_iff]
          exact trimBlanks_ne_nil (c := c) (by simp) hc)]
        exact (hcs'.cons_blank hb).split ht
  have hbody : trimBlanks (dropComment (lead ++ m ++ tail ++ comment)) = m ++ tail' := by
    rw [dropComment_append _ hcomment, htrim]
    intro c hc
    simp only [List.mem_append] at hc
    rcases hc with (hc | hc) | hc
    exacts [hblank hlead c hc, (hm.2 c hc).2.2, hsemi c hc]
  have hword : ∀ c ∈ m, (!isBlank c) = true := fun c hc => by rw [(hm.2 c hc).1]; rfl
  have htake : (m ++ tail').takeWhile (fun c => !isBlank c) = m := by
    rw [List.takeWhile_append_of_pos hword]
    cases tail' with
    | nil => simp
    | cons c cs => simp [hhead c rfl]
  have hdrop : (m ++ tail').dropWhile (fun c => !isBlank c) = tail' := by
    rw [List.dropWhile_append_of_pos hword]
    cases tail' with
    | nil => rfl
    | cons c cs => simp [hhead c rfl]
  have hne : (m ++ tail').isEmpty = false := by
    cases m with
    | nil => exact absurd rfl hm.1
    | cons c cs => rfl
  unfold assembleLine
  simp only [hbody, hne, htake, hdrop, hops]
  rfl

end Sys2Proof.Machine
end

