-- ==== Sys2Proof/Laws/State.lean ====
section
/-! SUPPORT. One lemma per field per state update: what each named update does to each field. -/

namespace Sys2Proof.Machine

@[simp] theorem takeAnswers_initialized (n : Nat) (s : State) : (takeAnswers n s).initialized = s.initialized := rfl
@[simp] theorem takeAnswers_brightness (n : Nat) (s : State) : (takeAnswers n s).brightness = s.brightness := rfl
@[simp] theorem takeAnswers_ledColor (n : Nat) (s : State) : (takeAnswers n s).ledColor = s.ledColor := rfl
@[simp] theorem takeAnswers_chOn (n : Nat) (s : State) : (takeAnswers n s).chOn = s.chOn := rfl
@[simp] theorem takeAnswers_chOff (n : Nat) (s : State) : (takeAnswers n s).chOff = s.chOff := rfl
@[simp] theorem takeAnswers_result (n : Nat) (s : State) : (takeAnswers n s).result = s.result := rfl
@[simp] theorem takeAnswers_fault (n : Nat) (s : State) : (takeAnswers n s).fault = s.fault := rfl
@[simp] theorem takeAnswers_faultCmd (n : Nat) (s : State) : (takeAnswers n s).faultCmd = s.faultCmd := rfl
@[simp] theorem takeAnswers_trace (n : Nat) (s : State) : (takeAnswers n s).trace = s.trace := rfl
@[simp] theorem takeAnswers_program (n : Nat) (s : State) : (takeAnswers n s).program = s.program := rfl
@[simp] theorem takeAnswers_cursor (n : Nat) (s : State) : (takeAnswers n s).cursor = s.cursor := rfl
@[simp] theorem takeAnswers_resetInput (n : Nat) (s : State) : (takeAnswers n s).resetInput = s.resetInput := rfl
@[simp] theorem takeAnswers_busScript (n : Nat) (s : State) : (takeAnswers n s).busScript = s.busScript.drop n := rfl
@[simp] theorem takeAnswers_drawCount (n : Nat) (s : State) : (takeAnswers n s).drawCount = s.drawCount + n := rfl
@[simp] theorem takeAnswers_params (n : Nat) (s : State) : (takeAnswers n s).params = s.params := rfl

@[simp] theorem emit_initialized (e : Event) (s : State) : (emit e s).initialized = s.initialized := rfl
@[simp] theorem emit_brightness (e : Event) (s : State) : (emit e s).brightness = s.brightness := rfl
@[simp] theorem emit_ledColor (e : Event) (s : State) : (emit e s).ledColor = s.ledColor := rfl
@[simp] theorem emit_chOn (e : Event) (s : State) : (emit e s).chOn = s.chOn := rfl
@[simp] theorem emit_chOff (e : Event) (s : State) : (emit e s).chOff = s.chOff := rfl
@[simp] theorem emit_result (e : Event) (s : State) : (emit e s).result = s.result := rfl
@[simp] theorem emit_fault (e : Event) (s : State) : (emit e s).fault = s.fault := rfl
@[simp] theorem emit_faultCmd (e : Event) (s : State) : (emit e s).faultCmd = s.faultCmd := rfl
@[simp] theorem emit_trace (e : Event) (s : State) : (emit e s).trace = s.trace ++ [e] := rfl
@[simp] theorem emit_program (e : Event) (s : State) : (emit e s).program = s.program := rfl
@[simp] theorem emit_cursor (e : Event) (s : State) : (emit e s).cursor = s.cursor := rfl
@[simp] theorem emit_resetInput (e : Event) (s : State) : (emit e s).resetInput = s.resetInput := rfl
@[simp] theorem emit_busScript (e : Event) (s : State) : (emit e s).busScript = s.busScript := rfl
@[simp] theorem emit_drawCount (e : Event) (s : State) : (emit e s).drawCount = s.drawCount := rfl
@[simp] theorem emit_params (e : Event) (s : State) : (emit e s).params = s.params := rfl

@[simp] theorem setLed_initialized (u : LedUnit) (c : Color) (s : State) : (setLed u c s).initialized = s.initialized := rfl
@[simp] theorem setLed_brightness (u : LedUnit) (c : Color) (s : State) : (setLed u c s).brightness = s.brightness := rfl
@[simp] theorem setLed_ledColor (u : LedUnit) (c : Color) (s : State) : (setLed u c s).ledColor = s.ledColor.set (ledIndex u) c := rfl
@[simp] theorem setLed_chOn (u : LedUnit) (c : Color) (s : State) : (setLed u c s).chOn = s.chOn := rfl
@[simp] theorem setLed_chOff (u : LedUnit) (c : Color) (s : State) : (setLed u c s).chOff = s.chOff := rfl
@[simp] theorem setLed_result (u : LedUnit) (c : Color) (s : State) : (setLed u c s).result = s.result := rfl
@[simp] theorem setLed_fault (u : LedUnit) (c : Color) (s : State) : (setLed u c s).fault = s.fault := rfl
@[simp] theorem setLed_faultCmd (u : LedUnit) (c : Color) (s : State) : (setLed u c s).faultCmd = s.faultCmd := rfl
@[simp] theorem setLed_trace (u : LedUnit) (c : Color) (s : State) : (setLed u c s).trace = s.trace := rfl
@[simp] theorem setLed_program (u : LedUnit) (c : Color) (s : State) : (setLed u c s).program = s.program := rfl
@[simp] theorem setLed_cursor (u : LedUnit) (c : Color) (s : State) : (setLed u c s).cursor = s.cursor := rfl
@[simp] theorem setLed_resetInput (u : LedUnit) (c : Color) (s : State) : (setLed u c s).resetInput = s.resetInput := rfl
@[simp] theorem setLed_busScript (u : LedUnit) (c : Color) (s : State) : (setLed u c s).busScript = s.busScript := rfl
@[simp] theorem setLed_drawCount (u : LedUnit) (c : Color) (s : State) : (setLed u c s).drawCount = s.drawCount := rfl
@[simp] theorem setLed_params (u : LedUnit) (c : Color) (s : State) : (setLed u c s).params = s.params := rfl

@[simp] theorem setTicks_initialized (c : Fin 16) (on off : Tick) (s : State) : (setTicks c on off s).initialized = s.initialized := rfl
@[simp] theorem setTicks_brightness (c : Fin 16) (on off : Tick) (s : State) : (setTicks c on off s).brightness = s.brightness := rfl
@[simp] theorem setTicks_ledColor (c : Fin 16) (on off : Tick) (s : State) : (setTicks c on off s).ledColor = s.ledColor := rfl
@[simp] theorem setTicks_chOn (c : Fin 16) (on off : Tick) (s : State) : (setTicks c on off s).chOn = s.chOn.set c (some on) := rfl
@[simp] theorem setTicks_chOff (c : Fin 16) (on off : Tick) (s : State) : (setTicks c on off s).chOff = s.chOff.set c (some off) := rfl
@[simp] theorem setTicks_result (c : Fin 16) (on off : Tick) (s : State) : (setTicks c on off s).result = s.result := rfl
@[simp] theorem setTicks_fault (c : Fin 16) (on off : Tick) (s : State) : (setTicks c on off s).fault = s.fault := rfl
@[simp] theorem setTicks_faultCmd (c : Fin 16) (on off : Tick) (s : State) : (setTicks c on off s).faultCmd = s.faultCmd := rfl
@[simp] theorem setTicks_trace (c : Fin 16) (on off : Tick) (s : State) : (setTicks c on off s).trace = s.trace := rfl
@[simp] theorem setTicks_program (c : Fin 16) (on off : Tick) (s : State) : (setTicks c on off s).program = s.program := rfl
@[simp] theorem setTicks_cursor (c : Fin 16) (on off : Tick) (s : State) : (setTicks c on off s).cursor = s.cursor := rfl
@[simp] theorem setTicks_resetInput (c : Fin 16) (on off : Tick) (s : State) : (setTicks c on off s).resetInput = s.resetInput := rfl
@[simp] theorem setTicks_busScript (c : Fin 16) (on off : Tick) (s : State) : (setTicks c on off s).busScript = s.busScript := rfl
@[simp] theorem setTicks_drawCount (c : Fin 16) (on off : Tick) (s : State) : (setTicks c on off s).drawCount = s.drawCount := rfl
@[simp] theorem setTicks_params (c : Fin 16) (on off : Tick) (s : State) : (setTicks c on off s).params = s.params := rfl

@[simp] theorem setInitialized_initialized (s : State) : (setInitialized s).initialized = true := rfl
@[simp] theorem setInitialized_brightness (s : State) : (setInitialized s).brightness = s.brightness := rfl
@[simp] theorem setInitialized_ledColor (s : State) : (setInitialized s).ledColor = s.ledColor := rfl
@[simp] theorem setInitialized_chOn (s : State) : (setInitialized s).chOn = s.chOn := rfl
@[simp] theorem setInitialized_chOff (s : State) : (setInitialized s).chOff = s.chOff := rfl
@[simp] theorem setInitialized_result (s : State) : (setInitialized s).result = s.result := rfl
@[simp] theorem setInitialized_fault (s : State) : (setInitialized s).fault = s.fault := rfl
@[simp] theorem setInitialized_faultCmd (s : State) : (setInitialized s).faultCmd = s.faultCmd := rfl
@[simp] theorem setInitialized_trace (s : State) : (setInitialized s).trace = s.trace := rfl
@[simp] theorem setInitialized_program (s : State) : (setInitialized s).program = s.program := rfl
@[simp] theorem setInitialized_cursor (s : State) : (setInitialized s).cursor = s.cursor := rfl
@[simp] theorem setInitialized_resetInput (s : State) : (setInitialized s).resetInput = s.resetInput := rfl
@[simp] theorem setInitialized_busScript (s : State) : (setInitialized s).busScript = s.busScript := rfl
@[simp] theorem setInitialized_drawCount (s : State) : (setInitialized s).drawCount = s.drawCount := rfl
@[simp] theorem setInitialized_params (s : State) : (setInitialized s).params = s.params := rfl

@[simp] theorem setBrightness_initialized (v : Byte) (s : State) : (setBrightness v s).initialized = s.initialized := rfl
@[simp] theorem setBrightness_brightness (v : Byte) (s : State) : (setBrightness v s).brightness = v := rfl
@[simp] theorem setBrightness_ledColor (v : Byte) (s : State) : (setBrightness v s).ledColor = s.ledColor := rfl
@[simp] theorem setBrightness_chOn (v : Byte) (s : State) : (setBrightness v s).chOn = s.chOn := rfl
@[simp] theorem setBrightness_chOff (v : Byte) (s : State) : (setBrightness v s).chOff = s.chOff := rfl
@[simp] theorem setBrightness_result (v : Byte) (s : State) : (setBrightness v s).result = s.result := rfl
@[simp] theorem setBrightness_fault (v : Byte) (s : State) : (setBrightness v s).fault = s.fault := rfl
@[simp] theorem setBrightness_faultCmd (v : Byte) (s : State) : (setBrightness v s).faultCmd = s.faultCmd := rfl
@[simp] theorem setBrightness_trace (v : Byte) (s : State) : (setBrightness v s).trace = s.trace := rfl
@[simp] theorem setBrightness_program (v : Byte) (s : State) : (setBrightness v s).program = s.program := rfl
@[simp] theorem setBrightness_cursor (v : Byte) (s : State) : (setBrightness v s).cursor = s.cursor := rfl
@[simp] theorem setBrightness_resetInput (v : Byte) (s : State) : (setBrightness v s).resetInput = s.resetInput := rfl
@[simp] theorem setBrightness_busScript (v : Byte) (s : State) : (setBrightness v s).busScript = s.busScript := rfl
@[simp] theorem setBrightness_drawCount (v : Byte) (s : State) : (setBrightness v s).drawCount = s.drawCount := rfl
@[simp] theorem setBrightness_params (v : Byte) (s : State) : (setBrightness v s).params = s.params := rfl

@[simp] theorem setResult_initialized (v : Color) (s : State) : (setResult v s).initialized = s.initialized := rfl
@[simp] theorem setResult_brightness (v : Color) (s : State) : (setResult v s).brightness = s.brightness := rfl
@[simp] theorem setResult_ledColor (v : Color) (s : State) : (setResult v s).ledColor = s.ledColor := rfl
@[simp] theorem setResult_chOn (v : Color) (s : State) : (setResult v s).chOn = s.chOn := rfl
@[simp] theorem setResult_chOff (v : Color) (s : State) : (setResult v s).chOff = s.chOff := rfl
@[simp] theorem setResult_result (v : Color) (s : State) : (setResult v s).result = some v := rfl
@[simp] theorem setResult_fault (v : Color) (s : State) : (setResult v s).fault = s.fault := rfl
@[simp] theorem setResult_faultCmd (v : Color) (s : State) : (setResult v s).faultCmd = s.faultCmd := rfl
@[simp] theorem setResult_trace (v : Color) (s : State) : (setResult v s).trace = s.trace := rfl
@[simp] theorem setResult_program (v : Color) (s : State) : (setResult v s).program = s.program := rfl
@[simp] theorem setResult_cursor (v : Color) (s : State) : (setResult v s).cursor = s.cursor := rfl
@[simp] theorem setResult_resetInput (v : Color) (s : State) : (setResult v s).resetInput = s.resetInput := rfl
@[simp] theorem setResult_busScript (v : Color) (s : State) : (setResult v s).busScript = s.busScript := rfl
@[simp] theorem setResult_drawCount (v : Color) (s : State) : (setResult v s).drawCount = s.drawCount := rfl
@[simp] theorem setResult_params (v : Color) (s : State) : (setResult v s).params = s.params := rfl

@[simp] theorem presentNext_initialized (w : Command) (s : State) : (presentNext w s).initialized = s.initialized := rfl
@[simp] theorem presentNext_brightness (w : Command) (s : State) : (presentNext w s).brightness = s.brightness := rfl
@[simp] theorem presentNext_ledColor (w : Command) (s : State) : (presentNext w s).ledColor = s.ledColor := rfl
@[simp] theorem presentNext_chOn (w : Command) (s : State) : (presentNext w s).chOn = s.chOn := rfl
@[simp] theorem presentNext_chOff (w : Command) (s : State) : (presentNext w s).chOff = s.chOff := rfl
@[simp] theorem presentNext_result (w : Command) (s : State) : (presentNext w s).result = s.result := rfl
@[simp] theorem presentNext_fault (w : Command) (s : State) : (presentNext w s).fault = s.fault := rfl
@[simp] theorem presentNext_faultCmd (w : Command) (s : State) : (presentNext w s).faultCmd = s.faultCmd := rfl
@[simp] theorem presentNext_trace (w : Command) (s : State) : (presentNext w s).trace = s.trace := rfl
@[simp] theorem presentNext_program (w : Command) (s : State) : (presentNext w s).program = placeWord w s.cursor s.program := rfl
@[simp] theorem presentNext_cursor (w : Command) (s : State) : (presentNext w s).cursor = s.cursor := rfl
@[simp] theorem presentNext_resetInput (w : Command) (s : State) : (presentNext w s).resetInput = false := rfl
@[simp] theorem presentNext_busScript (w : Command) (s : State) : (presentNext w s).busScript = s.busScript := rfl
@[simp] theorem presentNext_drawCount (w : Command) (s : State) : (presentNext w s).drawCount = s.drawCount := rfl
@[simp] theorem presentNext_params (w : Command) (s : State) : (presentNext w s).params = s.params := rfl

@[simp] theorem framesSent_initialized (fs : List Frame) (s : State) : (framesSent fs s).initialized = s.initialized := rfl
@[simp] theorem framesSent_brightness (fs : List Frame) (s : State) : (framesSent fs s).brightness = s.brightness := rfl
@[simp] theorem framesSent_ledColor (fs : List Frame) (s : State) : (framesSent fs s).ledColor = s.ledColor := rfl
@[simp] theorem framesSent_chOn (fs : List Frame) (s : State) : (framesSent fs s).chOn = fs.foldl (fun v f => v.set f.ch (some f.on)) s.chOn := rfl
@[simp] theorem framesSent_chOff (fs : List Frame) (s : State) : (framesSent fs s).chOff = fs.foldl (fun v f => v.set f.ch (some f.off)) s.chOff := rfl
@[simp] theorem framesSent_result (fs : List Frame) (s : State) : (framesSent fs s).result = s.result := rfl
@[simp] theorem framesSent_fault (fs : List Frame) (s : State) : (framesSent fs s).fault = s.fault := rfl
@[simp] theorem framesSent_faultCmd (fs : List Frame) (s : State) : (framesSent fs s).faultCmd = s.faultCmd := rfl
@[simp] theorem framesSent_trace (fs : List Frame) (s : State) : (framesSent fs s).trace = s.trace ++ fs.map (frameEvent s.params true) := rfl
@[simp] theorem framesSent_program (fs : List Frame) (s : State) : (framesSent fs s).program = s.program := rfl
@[simp] theorem framesSent_cursor (fs : List Frame) (s : State) : (framesSent fs s).cursor = s.cursor := rfl
@[simp] theorem framesSent_resetInput (fs : List Frame) (s : State) : (framesSent fs s).resetInput = s.resetInput := rfl
@[simp] theorem framesSent_busScript (fs : List Frame) (s : State) : (framesSent fs s).busScript = s.busScript.drop fs.length := rfl
@[simp] theorem framesSent_drawCount (fs : List Frame) (s : State) : (framesSent fs s).drawCount = s.drawCount + fs.length := rfl
@[simp] theorem framesSent_params (fs : List Frame) (s : State) : (framesSent fs s).params = s.params := rfl

@[simp] theorem raiseFault_initialized (cause : FaultCause) (w : Command) (s : State) : (raiseFault cause w s).initialized = s.initialized := by
  unfold raiseFault; split <;> rfl
@[simp] theorem raiseFault_brightness (cause : FaultCause) (w : Command) (s : State) : (raiseFault cause w s).brightness = s.brightness := by
  unfold raiseFault; split <;> rfl
@[simp] theorem raiseFault_ledColor (cause : FaultCause) (w : Command) (s : State) : (raiseFault cause w s).ledColor = s.ledColor := by
  unfold raiseFault; split <;> rfl
@[simp] theorem raiseFault_chOn (cause : FaultCause) (w : Command) (s : State) : (raiseFault cause w s).chOn = s.chOn := by
  unfold raiseFault; split <;> rfl
@[simp] theorem raiseFault_chOff (cause : FaultCause) (w : Command) (s : State) : (raiseFault cause w s).chOff = s.chOff := by
  unfold raiseFault; split <;> rfl
@[simp] theorem raiseFault_result (cause : FaultCause) (w : Command) (s : State) : (raiseFault cause w s).result = s.result := by
  unfold raiseFault; split <;> rfl
@[simp] theorem raiseFault_trace (cause : FaultCause) (w : Command) (s : State) : (raiseFault cause w s).trace = s.trace := by
  unfold raiseFault; split <;> rfl
@[simp] theorem raiseFault_program (cause : FaultCause) (w : Command) (s : State) : (raiseFault cause w s).program = s.program := by
  unfold raiseFault; split <;> rfl
@[simp] theorem raiseFault_cursor (cause : FaultCause) (w : Command) (s : State) : (raiseFault cause w s).cursor = s.cursor := by
  unfold raiseFault; split <;> rfl
@[simp] theorem raiseFault_resetInput (cause : FaultCause) (w : Command) (s : State) : (raiseFault cause w s).resetInput = s.resetInput := by
  unfold raiseFault; split <;> rfl
@[simp] theorem raiseFault_busScript (cause : FaultCause) (w : Command) (s : State) : (raiseFault cause w s).busScript = s.busScript := by
  unfold raiseFault; split <;> rfl
@[simp] theorem raiseFault_drawCount (cause : FaultCause) (w : Command) (s : State) : (raiseFault cause w s).drawCount = s.drawCount := by
  unfold raiseFault; split <;> rfl
@[simp] theorem raiseFault_params (cause : FaultCause) (w : Command) (s : State) : (raiseFault cause w s).params = s.params := by
  unfold raiseFault; split <;> rfl

@[simp] theorem advanceCursor_initialized (s : State) : (advanceCursor s).initialized = s.initialized := by
  unfold advanceCursor; split <;> rfl
@[simp] theorem advanceCursor_brightness (s : State) : (advanceCursor s).brightness = s.brightness := by
  unfold advanceCursor; split <;> rfl
@[simp] theorem advanceCursor_ledColor (s : State) : (advanceCursor s).ledColor = s.ledColor := by
  unfold advanceCursor; split <;> rfl
@[simp] theorem advanceCursor_chOn (s : State) : (advanceCursor s).chOn = s.chOn := by
  unfold advanceCursor; split <;> rfl
@[simp] theorem advanceCursor_chOff (s : State) : (advanceCursor s).chOff = s.chOff := by
  unfold advanceCursor; split <;> rfl
@[simp] theorem advanceCursor_result (s : State) : (advanceCursor s).result = s.result := by
  unfold advanceCursor; split <;> rfl
@[simp] theorem advanceCursor_fault (s : State) : (advanceCursor s).fault = s.fault := by
  unfold advanceCursor; split <;> rfl
@[simp] theorem advanceCursor_faultCmd (s : State) : (advanceCursor s).faultCmd = s.faultCmd := by
  unfold advanceCursor; split <;> rfl
@[simp] theorem advanceCursor_trace (s : State) : (advanceCursor s).trace = s.trace := by
  unfold advanceCursor; split <;> rfl
@[simp] theorem advanceCursor_program (s : State) : (advanceCursor s).program = s.program := by
  unfold advanceCursor; split <;> rfl
@[simp] theorem advanceCursor_resetInput (s : State) : (advanceCursor s).resetInput = s.resetInput := by
  unfold advanceCursor; split <;> rfl
@[simp] theorem advanceCursor_busScript (s : State) : (advanceCursor s).busScript = s.busScript := by
  unfold advanceCursor; split <;> rfl
@[simp] theorem advanceCursor_drawCount (s : State) : (advanceCursor s).drawCount = s.drawCount := by
  unfold advanceCursor; split <;> rfl
@[simp] theorem advanceCursor_params (s : State) : (advanceCursor s).params = s.params := by
  unfold advanceCursor; split <;> rfl

@[simp] theorem hostReset_program (s : State) : (hostReset s).program = s.program := rfl
@[simp] theorem hostReset_busScript (s : State) : (hostReset s).busScript = s.busScript := rfl
@[simp] theorem hostReset_drawCount (s : State) : (hostReset s).drawCount = s.drawCount := rfl
@[simp] theorem hostReset_params (s : State) : (hostReset s).params = s.params := rfl
@[simp] theorem hostReset_initialized (s : State) : (hostReset s).initialized = State.reset.initialized := rfl
@[simp] theorem hostReset_brightness (s : State) : (hostReset s).brightness = State.reset.brightness := rfl
@[simp] theorem hostReset_ledColor (s : State) : (hostReset s).ledColor = State.reset.ledColor := rfl
@[simp] theorem hostReset_chOn (s : State) : (hostReset s).chOn = State.reset.chOn := rfl
@[simp] theorem hostReset_chOff (s : State) : (hostReset s).chOff = State.reset.chOff := rfl
@[simp] theorem hostReset_result (s : State) : (hostReset s).result = State.reset.result := rfl
@[simp] theorem hostReset_fault (s : State) : (hostReset s).fault = State.reset.fault := rfl
@[simp] theorem hostReset_faultCmd (s : State) : (hostReset s).faultCmd = State.reset.faultCmd := rfl
@[simp] theorem hostReset_trace (s : State) : (hostReset s).trace = State.reset.trace := rfl
@[simp] theorem hostReset_cursor (s : State) : (hostReset s).cursor = State.reset.cursor := rfl
@[simp] theorem hostReset_resetInput (s : State) : (hostReset s).resetInput = State.reset.resetInput := rfl

/-- The constraints of 00_scope.md R7, as propositions. -/
theorem valid_iff (p : Params) : p.valid = true ↔
    p.regBase.toNat + 63 ≤ 255
    ∧ (p.modeReg.toNat < p.regBase.toNat ∨ p.regBase.toNat + 63 < p.modeReg.toNat)
    ∧ (p.prescaleReg.toNat < p.regBase.toNat ∨ p.regBase.toNat + 63 < p.prescaleReg.toNat)
    ∧ p.modeReg ≠ p.prescaleReg
    ∧ 24 ≤ p.initHz ∧ p.initHz ≤ 12207 ∧ p.channels.Nodup := by
  change _ ↔ _ ∧ _ ∧ _ ∧ _ ∧ Config.hzMin ≤ p.initHz ∧ p.initHz ≤ Config.hzMax ∧ _
  simp only [Params.valid, Params.inChannelGroup, Bool.and_eq_true, Bool.not_eq_true',
    decide_eq_true_eq, Bool.and_eq_false_iff, decide_eq_false_iff_not, Nat.not_le, and_assoc]

/-- The parameters after reset meet R7, whatever the free assignment is (log entry 1). -/
theorem config_params_valid : Config.params.valid = true := by
  unfold Config.params
  split
  · assumption
  · decide

/-- Fault entry on an unfaulted block writes the two fault registers and nothing else (60_exceptions.md R224). -/
theorem raiseFault_of_noFault (cause : FaultCause) (w : Command) {s : State} (h : s.fault = none) :
    raiseFault cause w s = { s with fault := some cause, faultCmd := some w } := by
  simp [raiseFault, h]

/-- A faulted block keeps its first fault (10_state.md R25). -/
theorem raiseFault_of_faulted (cause : FaultCause) (w : Command) {s : State} (h : s.fault.isSome = true) :
    raiseFault cause w s = s := by
  simp [raiseFault, h]

/-- The cursor moves past a command that raised nothing (10_state.md R21). -/
theorem advanceCursor_of_noFault {s : State} (h : s.fault = none) :
    advanceCursor s = { s with cursor := s.cursor + 1 } := by
  simp [advanceCursor, h]

/-- The cursor stays at a command that raised a fault (10_state.md R21). -/
theorem advanceCursor_of_faulted {s : State} (h : s.fault.isSome = true) : advanceCursor s = s := by
  simp [advanceCursor, h]

end Sys2Proof.Machine
end

