-- ==== Sys2Proof/Laws/Decode.lean ====
section
/-! SUPPORT. The small lemmas of the encoding: ranges of fields, the opcode of an assembled word, rows of the
opcode map, and what a successful decode says. -/

namespace Sys2Proof

theorem fitsU_eq_true {n v : Nat} : fitsU n v = true ↔ v < 2 ^ n := decide_eq_true_iff

theorem fitsS_eq_true {n : Nat} {v : Int} : fitsS n v = true ↔ -(2 ^ n : Int) ≤ v ∧ v < (2 ^ n : Int) := by
  rw [fitsS, Bool.and_eq_true, decide_eq_true_iff, decide_eq_true_iff]

/-- An unsigned field's value is in range (30_encoding.md R99). -/
theorem fitsU_fieldU (w : Command) (lo n : Nat) : fitsU n (fieldU w lo n) = true :=
  fitsU_eq_true.mpr (w.extractLsb' lo n).isLt

/-- A two's-complement field's value is in range (30_encoding.md R99). -/
theorem fitsS_fieldS (w : Command) (lo n : Nat) : fitsS n (fieldS w lo (n + 1)) = true := by
  have h1 := BitVec.le_toInt (w.extractLsb' lo (n + 1))
  have h2 := BitVec.toInt_lt (x := w.extractLsb' lo (n + 1))
  rw [Nat.add_sub_cancel] at h1 h2
  exact fitsS_eq_true.mpr ⟨h1, h2⟩

/-- A value in range is read back from its field. -/
theorem toNat_ofNat_of_fitsU {n v : Nat} (h : fitsU n v = true) : (BitVec.ofNat n v).toNat = v := by
  rw [BitVec.toNat_ofNat, Nat.mod_eq_of_lt (fitsU_eq_true.mp h)]

/-- A value in range is read back from its two's-complement field. -/
theorem toInt_ofInt_of_fitsS {n : Nat} {v : Int} (h : fitsS n v = true) :
    (BitVec.ofInt (n + 1) v).toInt = v := by
  have h := fitsS_eq_true.mp h
  rw [BitVec.toInt_ofInt, Int.bmod_eq_of_le] <;> push_cast <;> rw [pow_succ] <;> omega

/-- The opcode of an assembled word. -/
theorem opcodeOf_commandWord (op : BitVec 8) (payload : BitVec 32) :
    opcodeOf (commandWord op payload) = op := by
  ext i hi
  simp only [opcodeOf, commandWord, BitVec.getElem_extractLsb', BitVec.getLsbD_append]
  rw [if_neg (by omega), Nat.add_sub_cancel_left, BitVec.getLsbD_eq_getElem hi]

/-- The opcodes of the map tell its rows apart. -/
theorem opcode_inj : ∀ r ∈ opcodeTable, ∀ r' ∈ opcodeTable, r.opcode = r'.opcode → r = r' := by decide

/-- The names of the map tell its rows apart. -/
theorem op_inj : ∀ r ∈ opcodeTable, ∀ r' ∈ opcodeTable, r.op = r'.op → r = r' := by decide

/-- The row the decoder finds is in the map and has the word's opcode. -/
theorem find_row_some {w : Command} {r : OpcodeRow}
    (h : opcodeTable.find? (fun r => r.opcode == opcodeOf w) = some r) :
    r ∈ opcodeTable ∧ r.opcode = opcodeOf w :=
  ⟨List.mem_of_find?_eq_some h, by simpa using List.find?_some h⟩

/-- A row with the word's opcode is the row the decoder finds. -/
theorem find_row_of_mem {w : Command} {r : OpcodeRow} (hr : r ∈ opcodeTable) (h : r.opcode = opcodeOf w) :
    opcodeTable.find? (fun r => r.opcode == opcodeOf w) = some r := by
  cases hf : opcodeTable.find? (fun r => r.opcode == opcodeOf w) with
  | none =>
    rw [List.find?_eq_none] at hf
    exact absurd (by simpa using h) (hf r hr)
  | some r' => rw [opcode_inj r' (find_row_some hf).1 r hr ((find_row_some hf).2.trans h.symm)]

/-- What a successful decode says (30_encoding.md R95). -/
theorem decode_eq_instr {w : Command} {i : Instr} (h : decode w = .instr i) :
    ∃ r ∈ opcodeTable, r.opcode = opcodeOf w ∧ w &&& r.mask = r.matchWord ∧ i = r.op.cut w := by
  unfold decode at h
  split at h
  · cases h
  · rename_i r hr
    split at h
    · rename_i hm
      cases h
      exact ⟨r, (find_row_some hr).1, (find_row_some hr).2, hm, rfl⟩
    · cases h

@[simp] theorem op_cut (o : Op) (w : Command) : (o.cut w).op = o := by cases o <;> rfl

end Sys2Proof
end

