-- ==== Sys2Proof/Laws/Ops.lean ====
section
/-! SUPPORT. One spec lemma per shared operation: sequencing, bus answers, the bus primitives and the
micro-operations. Later proofs cite these and do not unfold the operations. -/

namespace Sys2Proof.Machine

/-! ### Sequencing -/

@[simp] theorem Flow.going_andThen (s : State) (k : State → Flow) : (Flow.going s).andThen k = k s := rfl
@[simp] theorem Flow.stopped_andThen (s : State) (k : State → Flow) : (Flow.stopped s).andThen k = .stopped s := rfl
@[simp] theorem Flow.going_state (s : State) : (Flow.going s).state = s := rfl
@[simp] theorem Flow.stopped_state (s : State) : (Flow.stopped s).state = s := rfl
@[simp] theorem forEach_nil {α : Type} (f : α → State → Flow) (s : State) : forEach f [] s = .going s := rfl
theorem forEach_cons {α : Type} (f : α → State → Flow) (x : α) (xs : List α) (s : State) :
    forEach f (x :: xs) s = (f x s).andThen (forEach f xs) := rfl

theorem Flow.andThen_assoc (f : Flow) (k l : State → Flow) :
    (f.andThen k).andThen l = f.andThen (fun s => (k s).andThen l) := by
  cases f <;> rfl

/-- A property of states that the first part leaves, and that the second part keeps, holds of the whole. -/
theorem Flow.andThen_keeps {P : State → Prop} {f : Flow} {k : State → Flow} (hf : P f.state)
    (hk : ∀ s, f = .going s → P s → P (k s).state) : P (f.andThen k).state := by
  cases f with
  | going s => exact hk s rfl hf
  | stopped s => exact hf

/-- A loop whose body keeps a property keeps it. -/
theorem forEach_keeps {α : Type} {P : State → Prop} {f : α → State → Flow} {xs : List α}
    (hf : ∀ x ∈ xs, ∀ s, P s → P (f x s).state) : ∀ {s : State}, P s → P (forEach f xs s).state := by
  induction xs with
  | nil => intro s hs; exact hs
  | cons x xs ih =>
    intro s hs
    refine Flow.andThen_keeps (hf x (by simp) s hs) fun t _ ht => ?_
    exact ih (fun y hy => hf y (by simp [hy])) ht

/-- The outcome of a command is the state its flow reached. -/
theorem endCommand_eq_next {f : Flow} {t : State} : endCommand f = .next t ↔ f.state = t := by
  simp [endCommand]

/-! ### Bus answers -/

@[simp] theorem answerAt_takeAnswers (n : Nat) (s : State) (k : Nat) :
    answerAt (takeAnswers n s) k = answerAt s (n + k) := by
  simp [answerAt, Nat.add_assoc]

@[simp] theorem answerAt_emit (e : Event) (s : State) (k : Nat) : answerAt (emit e s) k = answerAt s k := rfl
@[simp] theorem answerAt_setLed (u : LedUnit) (c : Color) (s : State) (k : Nat) :
    answerAt (setLed u c s) k = answerAt s k := rfl
@[simp] theorem answerAt_setTicks (c : Fin 16) (on off : Tick) (s : State) (k : Nat) :
    answerAt (setTicks c on off s) k = answerAt s k := rfl
@[simp] theorem answerAt_setBrightness (v : Byte) (s : State) (k : Nat) :
    answerAt (setBrightness v s) k = answerAt s k := rfl
@[simp] theorem answerAt_setInitialized (s : State) (k : Nat) :
    answerAt (setInitialized s) k = answerAt s k := rfl
@[simp] theorem answerAt_framesSent (fs : List Frame) (s : State) (k : Nat) :
    answerAt (framesSent fs s) k = answerAt s (fs.length + k) := by
  simp [answerAt, Nat.add_assoc]

/-- Answers that are all good stay good after the first of them are used. -/
theorem AnswersOk.mono {m n : Nat} {s : State} (h : AnswersOk n s) (hmn : m ≤ n) : AnswersOk m s :=
  fun k hk => h k (by omega)

/-! ### The bus primitives -/

/-- A transaction that succeeds: the command goes on. -/
@[simp] theorem checkStatus_true (cmd : Command) (s : State) : checkStatus cmd true s = .going s := rfl
/-- A transaction that fails: `BusError` is raised (60_exceptions.md R223). -/
@[simp] theorem checkStatus_false (cmd : Command) (s : State) :
    checkStatus cmd false s = .stopped (raiseFault .busError cmd s) := rfl

theorem memWrite1_ok (cmd : Command) (reg v : Byte) {s : State} (h : (answerAt s 0).ok = true) :
    memWrite1 cmd reg v s = .going (emit (.write s.params.chipAddr reg v true) (takeAnswers 1 s)) := by
  simp [memWrite1, h]

theorem memWrite1_fail (cmd : Command) (reg v : Byte) {s : State} (h : (answerAt s 0).ok = false) :
    memWrite1 cmd reg v s
      = .stopped (raiseFault .busError cmd (emit (.write s.params.chipAddr reg v false) (takeAnswers 1 s))) := by
  simp [memWrite1, h]

theorem memWrite4_ok (cmd : Command) (reg : Byte) (v : BitVec 32) {s : State} (h : (answerAt s 0).ok = true) :
    memWrite4 cmd reg v s
      = .going (emit (.buffer s.params.chipAddr (bufferBytes reg v) true) (takeAnswers 1 s)) := by
  simp [memWrite4, h]

theorem memWrite4_fail (cmd : Command) (reg : Byte) (v : BitVec 32) {s : State} (h : (answerAt s 0).ok = false) :
    memWrite4 cmd reg v s
      = .stopped (raiseFault .busError cmd
          (emit (.buffer s.params.chipAddr (bufferBytes reg v) false) (takeAnswers 1 s))) := by
  simp [memWrite4, h]

theorem memRead_ok (cmd : Command) (reg : Byte) (k : Byte → State → Flow) {s : State}
    (h : (answerAt s 0).ok = true) :
    memRead cmd reg k s
      = k (answerAt s 0).byte
          (emit (.read s.params.chipAddr reg (some (answerAt s 0).byte)) (takeAnswers 1 s)) := by
  simp [memRead, h]

theorem memRead_fail (cmd : Command) (reg : Byte) (k : Byte → State → Flow) {s : State}
    (h : (answerAt s 0).ok = false) :
    memRead cmd reg k s
      = .stopped (raiseFault .busError cmd (emit (.read s.params.chipAddr reg none) (takeAnswers 1 s))) := by
  simp [memRead, h]

/-! ### Frames -/

/-- The buffer of `MemWrite(REG_BASE + 4*c, 4, (off << 16) OR on)` is the frame of 30_encoding.md R102. -/
theorem bufferBytes_eq_frameBytes (p : Params) (f : Frame) :
    bufferBytes (frameAddr p f.ch) (tickWord f.on f.off) = frameBytes p f := by
  simp only [bufferBytes, frameBytes, frameAddr, tickWord, List.cons.injEq, and_true, true_and]
  refine ⟨?_, ?_, ?_, ?_⟩ <;>
    · ext i hi
      simp only [BitVec.getElem_extractLsb', BitVec.getElem_setWidth, BitVec.getLsbD_or,
        BitVec.getLsbD_shiftLeft, BitVec.getLsbD_setWidth, BitVec.getLsbD_extractLsb']
      interval_cases i <;> simp [BitVec.getLsbD_of_ge]

@[simp] theorem framesSent_nil (s : State) : framesSent [] s = s := by
  simp [framesSent]

theorem framesSent_append (fs gs : List Frame) (s : State) :
    framesSent gs (framesSent fs s) = framesSent (fs ++ gs) s := by
  simp [framesSent, Nat.add_assoc, List.foldl_append]

/-- The state after a frame has failed: one answer used, the failed event in the trace, `BusError`
raised, the shadow registers as they were (40_pwm_driver.md R125, 60_exceptions.md R223). -/
def frameFailed (cmd : Command) (f : Frame) (s : State) : State :=
  raiseFault .busError cmd (emit (frameEvent s.params false f) (takeAnswers 1 s))

theorem uSetch_ok (cmd : Command) (c : Fin 16) (on off : Tick) {s : State} (h : (answerAt s 0).ok = true) :
    uSetch cmd c on off s = .going (framesSent [⟨c, on, off⟩] s) := by
  have e := bufferBytes_eq_frameBytes s.params ⟨c, on, off⟩
  simp only at e
  simp [uSetch, memWrite4_ok _ _ _ h, framesSent, setTicks, emit, takeAnswers, frameEvent, e]

theorem uSetch_fail (cmd : Command) (c : Fin 16) (on off : Tick) {s : State} (h : (answerAt s 0).ok = false) :
    uSetch cmd c on off s = .stopped (frameFailed cmd ⟨c, on, off⟩ s) := by
  have e := bufferBytes_eq_frameBytes s.params ⟨c, on, off⟩
  simp only at e
  simp [uSetch, memWrite4_fail _ _ _ h, frameFailed, frameEvent, e]

/-- Everything `u_setch` can do on a channel of the chip (40_pwm_driver.md R125). -/
theorem uSetch_cases (cmd : Command) (c : Fin 16) (on off : Tick) (s : State) :
    ((answerAt s 0).ok = true ∧ uSetch cmd c on off s = .going (framesSent [⟨c, on, off⟩] s))
    ∨ ((answerAt s 0).ok = false ∧ uSetch cmd c on off s = .stopped (frameFailed cmd ⟨c, on, off⟩ s)) := by
  cases h : (answerAt s 0).ok with
  | true => exact .inl ⟨rfl, uSetch_ok cmd c on off h⟩
  | false => exact .inr ⟨rfl, uSetch_fail cmd c on off h⟩

/-- `u_setch` outside 0..15 does nothing (40_pwm_driver.md R125). -/
theorem uSetch_of_ge (cmd : Command) {c : Nat} (on off : Tick) (s : State) (h : 16 ≤ c) :
    uSetch cmd c on off s = .going s := by
  simp [uSetch, Nat.not_lt.mpr h]

/-- Sending a list of frames one after the other. -/
def sendFrames (cmd : Command) : List Frame → State → Flow :=
  forEach fun f s => uSetch cmd f.ch f.on f.off s

theorem sendFrames_cons (cmd : Command) (f : Frame) (fs : List Frame) (s : State) :
    sendFrames cmd (f :: fs) s = (uSetch cmd f.ch f.on f.off s).andThen (sendFrames cmd fs) := rfl

/-- A list of frames on a bus that answers well. -/
theorem sendFrames_ok (cmd : Command) (fs : List Frame) :
    ∀ {s : State}, AnswersOk fs.length s → sendFrames cmd fs s = .going (framesSent fs s) := by
  induction fs with
  | nil => intro s _; simp [sendFrames]
  | cons f fs ih =>
    intro s h
    rw [sendFrames_cons, uSetch_ok cmd f.ch f.on f.off (h 0 (by simp)), Flow.going_andThen, ih,
      framesSent_append]
    · rfl
    · intro k hk
      rw [answerAt_framesSent]
      exact h _ (by simp at hk ⊢; omega)

/-- Everything a list of frames can do: all succeed, or the first that fails stops it. -/
theorem sendFrames_cases (cmd : Command) (fs : List Frame) :
    ∀ s : State, (AnswersOk fs.length s ∧ sendFrames cmd fs s = .going (framesSent fs s))
      ∨ ∃ pre f post, fs = pre ++ f :: post ∧ AnswersOk pre.length s
          ∧ (answerAt s pre.length).ok = false
          ∧ sendFrames cmd fs s = .stopped (frameFailed cmd f (framesSent pre s)) := by
  induction fs with
  | nil => intro s; exact .inl ⟨fun k hk => absurd hk (by simp), by simp [sendFrames]⟩
  | cons f fs ih =>
    intro s
    rcases uSetch_cases cmd f.ch f.on f.off s with ⟨hok, h⟩ | ⟨hbad, h⟩
    · rcases ih (framesSent [f] s) with ⟨hall, hgo⟩ | ⟨pre, g, post, hsplit, hall, hbad, hstop⟩
      · refine .inl ⟨?_, ?_⟩
        · intro k hk
          cases k with
          | zero => exact hok
          | succ k =>
            have := hall k (by simpa using hk)
            rwa [answerAt_framesSent, List.length_singleton, Nat.add_comm] at this
        · rw [sendFrames_cons, h, Flow.going_andThen, hgo, framesSent_append]; rfl
      · refine .inr ⟨f :: pre, g, post, by simp [hsplit], ?_, ?_, ?_⟩
        · intro k hk
          cases k with
          | zero => exact hok
          | succ k =>
            have := hall k (by simpa using hk)
            rwa [answerAt_framesSent, List.length_singleton, Nat.add_comm] at this
        · rwa [answerAt_framesSent, List.length_singleton, Nat.add_comm] at hbad
        · rw [sendFrames_cons, h, Flow.going_andThen, hstop, framesSent_append]; rfl
    · exact .inr ⟨[], f, fs, rfl, fun k hk => absurd hk (by simp), hbad, by
        rw [sendFrames_cons, h, Flow.stopped_andThen, framesSent_nil]⟩

/-- A frame that fails on an unfaulted block stops there (60_exceptions.md R223, R224). -/
theorem frameFailed_framesSent (cmd : Command) (done : List Frame) (f : Frame) {s : State} (h : s.fault = none) :
    frameFailed cmd f (framesSent done s) = stoppedAtFrame cmd done f s := by
  rw [frameFailed, raiseFault_of_noFault _ _ (by simpa using h)]
  simp [stoppedAtFrame, emit, takeAnswers, framesSent, Nat.add_assoc]

/-- A list of frames on an unfaulted block whose bus first fails frame number `k`. -/
theorem sendFrames_fail (cmd : Command) {fs : List Frame} {f : Frame} {k : Nat} {s : State} (h : s.fault = none)
    (hk : FailsFirstAt k s) (hf : fs[k]? = some f) :
    sendFrames cmd fs s = .stopped (stoppedAtFrame cmd (fs.take k) f s) := by
  obtain ⟨hlt, rfl⟩ := List.getElem?_eq_some_iff.mp hf
  rcases sendFrames_cases cmd fs s with ⟨hall, _⟩ | ⟨pre, g, post, hsplit, hall, hbad, hstop⟩
  · exact absurd (hall k hlt) (by simp [hk.2])
  · have : pre.length = k := by
      rcases Nat.lt_trichotomy pre.length k with hl | hl | hl
      · exact absurd (hk.1 _ hl) (by simp [hbad])
      · exact hl
      · exact absurd (hall _ hl) (by simp [hk.2])
    subst this
    rw [hstop, frameFailed_framesSent _ _ _ h]
    simp [hsplit]

/-- Two lists of frames, one after the other, are one list. -/
theorem sendFrames_append (cmd : Command) (fs gs : List Frame) (s : State) :
    sendFrames cmd (fs ++ gs) s = (sendFrames cmd fs s).andThen (sendFrames cmd gs) := by
  induction fs generalizing s with
  | nil => rfl
  | cons f fs ih =>
    rw [List.cons_append, sendFrames_cons, sendFrames_cons, Flow.andThen_assoc]
    congr 1; funext t; exact ih t

/-- `u_apply` is the three frames of its unit (41_color_engine.md R151). -/
theorem uApply_eq_sendFrames (cmd : Command) (u : LedUnit) (s : State) :
    uApply cmd u s = sendFrames cmd (ledFrames s.params s.brightness (s.led u) u) s := by
  simp only [uApply, ledFrames, sendFrames, forEach, ledDuty]
  congr 1; funext s1; congr 1; funext s2
  cases uSetch cmd (s.params.led u).blue 0#12 (BitVec.ofNat 12 (16 * scale (blueOf (s.led u)) s.brightness)) s2 <;> rfl

/-- `u_run` is the two frames of its unit (42_motor_engine.md R190). -/
theorem uRun_eq_sendFrames (cmd : Command) (m : MotorUnit) (speed : Int) (s : State) :
    uRun cmd m speed s = sendFrames cmd (motorFrames s.params m speed) s := by
  have last : ∀ f : Flow, f.andThen Flow.going = f := fun f => by cases f <;> rfl
  simp only [uRun, motorFrames, forwardDuty, reverseDuty]
  split <;> simp only [sendFrames, forEach] <;> congr 1 <;> funext s1 <;> exact (last _).symm

/-- The sixteen zero frames of `u_init`. -/
theorem zeroChannels_eq_sendFrames (cmd : Command) (s : State) :
    forEach (fun c t => uSetch cmd c 0#12 0#12 t) (List.range 16) s = sendFrames cmd zeroFrames s := rfl

/-! ### `u_setfreq` and `u_init` -/

/-- The state after `u_setfreq` on a bus that answers well. -/
def freqSet (hz : Nat) (s : State) : State :=
  { s with
    trace := s.trace ++ setfreqEvents s.params (answerAt s 0).byte hz
    busScript := s.busScript.drop 5
    drawCount := s.drawCount + 5 }

theorem uSetfreq_ok (cmd : Command) (hz : Nat) {s : State} (h : AnswersOk 5 s) :
    uSetfreq cmd hz s = .going (freqSet hz s) := by
  unfold uSetfreq
  rw [memRead_ok _ _ _ (h 0 (by omega)), memWrite1_ok, Flow.going_andThen, memWrite1_ok, Flow.going_andThen,
    memWrite1_ok, Flow.going_andThen, delay, Flow.going_andThen, memWrite1_ok]
  · simp [freqSet, setfreqEvents, emit, takeAnswers, prescaleByte, Config.wakeDelayUs]
  all_goals first
    | (simpa using h 1 (by omega))
    | (simpa using h 2 (by omega))
    | (simpa using h 3 (by omega))
    | (simpa using h 4 (by omega))

/-- The events of a `u_setfreq` whose transaction number `n` (0 to 4) failed. -/
def setfreqCut (p : Params) (old : Byte) (hz : Nat) : Nat → List Event
  | 0 => [.read p.chipAddr p.modeReg none]
  | 1 => (setfreqEvents p old hz).take 1
      ++ [.write p.chipAddr p.modeReg ((old &&& p.sleepKeepMask) ||| p.sleepMask) false]
  | 2 => (setfreqEvents p old hz).take 2 ++ [.write p.chipAddr p.prescaleReg (BitVec.ofInt 8 (prescale hz)) false]
  | 3 => (setfreqEvents p old hz).take 3 ++ [.write p.chipAddr p.modeReg old false]
  | _ => (setfreqEvents p old hz).take 5 ++ [.write p.chipAddr p.modeReg (old ||| p.wakeMask) false]

/-- The state after a `u_setfreq` whose transaction number `n` failed. -/
def freqCut (cmd : Command) (hz n : Nat) (s : State) : State :=
  raiseFault .busError cmd
    { s with
      trace := s.trace ++ setfreqCut s.params (answerAt s 0).byte hz n
      busScript := s.busScript.drop (n + 1)
      drawCount := s.drawCount + (n + 1) }

/-- Everything `u_setfreq` can do (40_pwm_driver.md R124). -/
theorem uSetfreq_cases (cmd : Command) (hz : Nat) (s : State) :
    (AnswersOk 5 s ∧ uSetfreq cmd hz s = .going (freqSet hz s))
    ∨ ∃ n, n < 5 ∧ (answerAt s n).ok = false ∧ uSetfreq cmd hz s = .stopped (freqCut cmd hz n s) := by
  cases h0 : (answerAt s 0).ok with
  | false =>
    refine .inr ⟨0, by omega, h0, ?_⟩
    rw [uSetfreq, memRead_fail _ _ _ h0]; rfl
  | true =>
  cases h1 : (answerAt s 1).ok with
  | false =>
    refine .inr ⟨1, by omega, h1, ?_⟩
    rw [uSetfreq, memRead_ok _ _ _ h0, memWrite1_fail _ _ _ (by simpa using h1), Flow.stopped_andThen]
    simp [freqCut, setfreqCut, setfreqEvents, emit, takeAnswers]
  | true =>
  cases h2 : (answerAt s 2).ok with
  | false =>
    refine .inr ⟨2, by omega, h2, ?_⟩
    rw [uSetfreq, memRead_ok _ _ _ h0, memWrite1_ok _ _ _ (by simpa using h1), Flow.going_andThen,
      memWrite1_fail _ _ _ (by simpa using h2), Flow.stopped_andThen]
    simp [freqCut, setfreqCut, setfreqEvents, emit, takeAnswers, prescaleByte]
  | true =>
  cases h3 : (answerAt s 3).ok with
  | false =>
    refine .inr ⟨3, by omega, h3, ?_⟩
    rw [uSetfreq, memRead_ok _ _ _ h0, memWrite1_ok _ _ _ (by simpa using h1), Flow.going_andThen,
      memWrite1_ok _ _ _ (by simpa using h2), Flow.going_andThen, memWrite1_fail _ _ _ (by simpa using h3),
      Flow.stopped_andThen]
    simp [freqCut, setfreqCut, setfreqEvents, emit, takeAnswers, prescaleByte]
  | true =>
  cases h4 : (answerAt s 4).ok with
  | false =>
    refine .inr ⟨4, by omega, h4, ?_⟩
    rw [uSetfreq, memRead_ok _ _ _ h0, memWrite1_ok _ _ _ (by simpa using h1), Flow.going_andThen,
      memWrite1_ok _ _ _ (by simpa using h2), Flow.going_andThen, memWrite1_ok _ _ _ (by simpa using h3),
      Flow.going_andThen, delay, Flow.going_andThen, memWrite1_fail _ _ _ (by simpa using h4)]
    simp [freqCut, setfreqCut, setfreqEvents, emit, takeAnswers, prescaleByte, Config.wakeDelayUs]
  | true =>
    have hall : AnswersOk 5 s := by
      intro k hk
      interval_cases k <;> assumption
    exact .inl ⟨hall, uSetfreq_ok cmd hz hall⟩

/-- The state after `u_init` has done the whole set-up. -/
def setupDone (s : State) : State :=
  { s with
    initialized := true
    chOn := Vector.replicate 16 (some 0#12)
    chOff := Vector.replicate 16 (some 0#12)
    trace := s.trace ++ initEvents s.params (answerAt s 1).byte
    busScript := s.busScript.drop 22
    drawCount := s.drawCount + 22 }

/-- Writing 0 to every one of the sixteen registers leaves all of them 0. -/
theorem foldl_zeroFrames (v : Vector (Option Tick) 16) :
    zeroFrames.foldl (fun v f => v.set f.ch (some f.on)) v = Vector.replicate 16 (some 0#12)
    ∧ zeroFrames.foldl (fun v f => v.set f.ch (some f.off)) v = Vector.replicate 16 (some 0#12) := by
  constructor <;>
    · ext i hi
      interval_cases i <;> simp [zeroFrames, List.finRange, List.ofFn, Fin.foldr, Fin.foldr.loop]

/-- The first write of the set-up, done. -/
def modeResetSent (s : State) : State :=
  emit (.write s.params.chipAddr s.params.modeReg s.params.modeResetValue true) (takeAnswers 1 s)

/-- `u_init` on an uninitialised block, as its three stages (40_pwm_driver.md R126). -/
theorem uInit_of_uninitialized (cmd : Command) {s : State} (h : s.initialized = false) :
    uInit cmd s = (memWrite1 cmd s.params.modeReg s.params.modeResetValue s).andThen fun s1 =>
      (uSetfreq cmd s1.params.initHz s1).andThen fun s2 =>
      (sendFrames cmd zeroFrames s2).andThen fun s3 => .going (setInitialized s3) := by
  simp only [uInit, h, zeroChannels_eq_sendFrames]; rfl

theorem uInit_ok (cmd : Command) {s : State} (hs : s.initialized = false) (h : AnswersOk 22 s) :
    uInit cmd s = .going (setupDone s) := by
  have h1 : AnswersOk 5 (modeResetSent s) := fun k hk => by
    simpa [modeResetSent] using h (1 + k) (by omega)
  have h2 : AnswersOk zeroFrames.length (freqSet s.params.initHz (modeResetSent s)) := fun k hk => by
    have hk' : k < 16 := hk
    simpa [freqSet, modeResetSent, answerAt, takeAnswers, emit, Nat.add_assoc] using h (6 + k) (by omega)
  rw [uInit_of_uninitialized cmd hs, memWrite1_ok _ _ _ (h 0 (by omega)), Flow.going_andThen]
  change (uSetfreq cmd s.params.initHz (modeResetSent s)).andThen _ = _
  rw [uSetfreq_ok _ _ h1, Flow.going_andThen, sendFrames_ok _ _ h2, Flow.going_andThen]
  simp only [setInitialized, framesSent, (foldl_zeroFrames _).1, (foldl_zeroFrames _).2]
  simp [setupDone, freqSet, modeResetSent, emit, takeAnswers, initEvents, zeroFrames, answerAt]

/-- `u_init` on an initialised block does nothing (40_pwm_driver.md R126). -/
theorem uInit_of_initialized (cmd : Command) {s : State} (h : s.initialized = true) :
    uInit cmd s = .going s := by
  simp [uInit, h]

end Sys2Proof.Machine
end

