-- ==== Sys2Proof/Laws/Exec.lean ====
section
/-! SUPPORT. Invariants through a whole command: a property that the shared operations keep is kept by every
command, so an invariant is proved once per operation and not once per command. -/

namespace Sys2Proof.Machine

/-- `G` holds of the state a flow goes on with, `S` of the state it stopped in. -/
def Flow.sat (G S : State → Prop) : Flow → Prop
  | .going s => G s
  | .stopped s => S s

@[simp] theorem Flow.sat_going {G S : State → Prop} {s : State} : (Flow.going s).sat G S ↔ G s := Iff.rfl
@[simp] theorem Flow.sat_stopped {G S : State → Prop} {s : State} : (Flow.stopped s).sat G S ↔ S s := Iff.rfl

theorem Flow.andThen_sat {G S : State → Prop} {f : Flow} {k : State → Flow} (hf : f.sat G S)
    (hk : ∀ s, G s → (k s).sat G S) : (f.andThen k).sat G S := by
  cases f with
  | going s => exact hk s hf
  | stopped s => exact hf

theorem forEach_sat {α : Type} {G S : State → Prop} {f : α → State → Flow}
    (hf : ∀ x s, G s → (f x s).sat G S) : ∀ (xs : List α) {s : State}, G s → (forEach f xs s).sat G S
  | [], _, hs => hs
  | x :: xs, s, hs => Flow.andThen_sat (hf x s hs) fun _ ht => forEach_sat hf xs ht

theorem Flow.sat.state {G S P : State → Prop} {f : Flow} (h : f.sat G S) (hG : ∀ s, G s → P s)
    (hS : ∀ s, S s → P s) : P f.state := by
  cases f with
  | going s => exact hG s h
  | stopped s => exact hS s h

theorem sendFrames_sat {cmd : Command} {G S : State → Prop}
    (hframe : ∀ (c : Fin 16) on off s, G s → (uSetch cmd c on off s).sat G S)
    (fs : List Frame) {s : State} (hs : G s) : (sendFrames cmd fs s).sat G S :=
  forEach_sat (fun (f : Frame) s => hframe f.ch f.on f.off s) fs hs

/-- What properties need so that the bus work of command `i` on a block with parameters `p` keeps them: `B`
holds before the lazy set-up, `G` after it and between the later operations, `S` of a state a bus failure
stopped in. Each clause asks only for what `i` does: its own channels, its own registers. -/
structure BusSat (i : Instr) (p : Params) (B G S : State → Prop) : Prop where
  params : ∀ s, G s → s.params = p
  init : ∀ s, B s → (uInit (encode i) s).sat G S
  freq : ∀ hz s, i = .setfreq hz → freqOutOfRange hz = false → G s → (uSetfreq (encode i) hz s).sat G S
  frame : ∀ (c : Fin 16) on off s, c ∈ channelsDriven p i → G s → (uSetch (encode i) c on off s).sat G S
  led : ∀ u color s, i = .setcolor (ledNumber u) color ∨ i = .setall color → G s → G (setLed u color s)
  bright : ∀ v s, i = .setbright v → G s → G (setBrightness (brightnessOf v) s)

theorem uApply_sat {i : Instr} {p : Params} {B G S : State → Prop} (h : BusSat i p B G S) (u : LedUnit)
    (hu : ∀ c ∈ [(p.led u).red, (p.led u).green, (p.led u).blue], c ∈ channelsDriven p i) {s : State}
    (hs : G s) : (uApply (encode i) u s).sat G S := by
  simp only [List.forall_mem_cons] at hu
  unfold uApply
  rw [h.params s hs]
  exact Flow.andThen_sat (h.frame _ _ _ _ hu.1 hs) fun t ht =>
    Flow.andThen_sat (h.frame _ _ _ _ hu.2.1 ht) fun t' ht' => h.frame _ _ _ _ hu.2.2.1 ht'

theorem uRun_sat {i : Instr} {p : Params} {B G S : State → Prop} (h : BusSat i p B G S) (m : MotorUnit) (v : Int)
    (hm : (p.motor m).forward ∈ channelsDriven p i ∧ (p.motor m).reverse ∈ channelsDriven p i) {s : State}
    (hs : G s) : (uRun (encode i) m v s).sat G S := by
  unfold uRun
  rw [h.params s hs]
  exact Flow.andThen_sat (h.frame _ _ _ _ hm.1 hs) fun t ht => h.frame _ _ _ _ hm.2 ht

/-- `u_init` keeps what its stages keep. -/
theorem uInit_sat {cmd : Command} {G S : State → Prop}
    (hmode : ∀ s, G s → (memWrite1 cmd s.params.modeReg s.params.modeResetValue s).sat G S)
    (hfreq : ∀ s, G s → (uSetfreq cmd s.params.initHz s).sat G S)
    (hframe : ∀ (c : Fin 16) on off s, G s → (uSetch cmd c on off s).sat G S)
    (hset : ∀ s, G s → G (setInitialized s)) (s : State) (hs : G s) : (uInit cmd s).sat G S := by
  cases h : s.initialized with
  | true => rw [uInit_of_initialized cmd h]; exact hs
  | false =>
    rw [uInit_of_uninitialized cmd h]
    refine Flow.andThen_sat (hmode s hs) fun s1 h1 => ?_
    refine Flow.andThen_sat (hfreq s1 h1) fun s2 h2 => ?_
    refine Flow.andThen_sat (sendFrames_sat hframe _ h2) fun s3 h3 => ?_
    exact hset s3 h3

theorem ledUnit?_eq_some {n : Nat} {u : LedUnit} (h : ledUnit? n = some u) : n = ledNumber u ∧ 1 ≤ n ∧ n ≤ 4 := by
  unfold ledUnit? at h; split at h <;> cases h <;> decide

theorem motorUnit?_eq_some {n : Nat} {m : MotorUnit} (h : motorUnit? n = some m) : 1 ≤ n ∧ n ≤ 2 := by
  unfold motorUnit? at h; split at h <;> simp_all

theorem ledUnit?_eq_none {n : Nat} (h : n < 1 ∨ 4 < n) : ledUnit? n = none := by
  unfold ledUnit?; split <;> first | omega | rfl

theorem motorUnit?_eq_none {n : Nat} (h : n < 1 ∨ 2 < n) : motorUnit? n = none := by
  unfold motorUnit?; split <;> first | omega | rfl

/-- The range test of SETFREQ (40_pwm_driver.md R123). -/
theorem freqOutOfRange_eq_false {hz : Nat} : freqOutOfRange hz = false ↔ 24 ≤ hz ∧ hz ≤ 12207 := by
  change (decide (hz < 24) || decide (hz > 12207)) = false ↔ _
  simp

/-- The range test of SETFREQ (40_pwm_driver.md R123). -/
theorem freqOutOfRange_eq_true {hz : Nat} : freqOutOfRange hz = true ↔ hz < 24 ∨ 12207 < hz := by
  change (decide (hz < 24) || decide (hz > 12207)) = true ↔ _
  simp

/-- A property of states that every single operation of a command keeps: the events with their answers, the
register writes and the record of a bus failure. -/
structure Closed (cmd : Command) (P : State → Prop) : Prop where
  write : ∀ s reg v ok, P s → P (emit (.write s.params.chipAddr reg v ok) (takeAnswers 1 s))
  read : ∀ s reg byte, P s → P (emit (.read s.params.chipAddr reg byte) (takeAnswers 1 s))
  frame : ∀ s f ok, P s → P (emit (frameEvent s.params ok f) (takeAnswers 1 s))
  wait : ∀ s, P s → P (emit (.delay 5000) s)
  ticks : ∀ s c on off, P s → P (setTicks c on off s)
  initialized : ∀ s, P s → P (setInitialized s)
  fault : ∀ s, P s → P (raiseFault .busError cmd s)

namespace Closed
variable {cmd : Command} {P : State → Prop}

theorem check (h : Closed cmd P) (ok : Bool) {s : State} (hs : P s) : (checkStatus cmd ok s).sat P P := by
  cases ok with
  | true => exact hs
  | false => exact h.fault s hs

theorem memWrite1_sat (h : Closed cmd P) (reg v : Byte) {s : State} (hs : P s) :
    (memWrite1 cmd reg v s).sat P P :=
  h.check _ (h.write s reg v _ hs)

theorem uSetch_sat (h : Closed cmd P) (c : Fin 16) (on off : Tick) {s : State} (hs : P s) :
    (uSetch cmd c on off s).sat P P := by
  rw [uSetch, dif_pos c.isLt]
  refine Flow.andThen_sat (G := P) ?_ fun t ht => h.ticks t _ on off ht
  have e := bufferBytes_eq_frameBytes s.params ⟨c, on, off⟩
  simp only at e
  rw [memWrite4, e]
  exact h.check _ (h.frame s ⟨c, on, off⟩ _ hs)

theorem uSetfreq_sat (h : Closed cmd P) (hz : Nat) {s : State} (hs : P s) : (uSetfreq cmd hz s).sat P P := by
  refine Flow.andThen_sat (h.check _ (h.read s _ _ hs)) fun s1 h1 => ?_
  refine Flow.andThen_sat (h.memWrite1_sat _ _ h1) fun s2 h2 => ?_
  refine Flow.andThen_sat (h.memWrite1_sat _ _ h2) fun s3 h3 => ?_
  refine Flow.andThen_sat (h.memWrite1_sat _ _ h3) fun s4 h4 => ?_
  exact h.memWrite1_sat _ _ (h.wait s4 h4)

/-- A closed property is kept by a command's bus work, and the parameters stay. -/
theorem busSat {i : Instr} {p : Params} (h : Closed (encode i) P)
    (hled : ∀ u color s, i = .setcolor (ledNumber u) color ∨ i = .setall color → P s → P (setLed u color s))
    (hbright : ∀ v s, i = .setbright v → P s → P (setBrightness (brightnessOf v) s)) :
    BusSat i p (fun s => P s ∧ s.params = p) (fun s => P s ∧ s.params = p) P :=
  have h' : Closed (encode i) (fun s => P s ∧ s.params = p) :=
    { write := fun s reg v ok hs => ⟨h.write s reg v ok hs.1, hs.2⟩
      read := fun s reg byte hs => ⟨h.read s reg byte hs.1, hs.2⟩
      frame := fun s f ok hs => ⟨h.frame s f ok hs.1, hs.2⟩
      wait := fun s hs => ⟨h.wait s hs.1, hs.2⟩
      ticks := fun s c on off hs => ⟨h.ticks s c on off hs.1, hs.2⟩
      initialized := fun s hs => ⟨h.initialized s hs.1, hs.2⟩
      fault := fun s hs => ⟨h.fault s hs.1, by simpa using hs.2⟩ }
  have drop : ∀ {f : Flow}, f.sat (fun s => P s ∧ s.params = p) (fun s => P s ∧ s.params = p) →
      f.sat (fun s => P s ∧ s.params = p) P := fun {f} hf => by
    cases f with
    | going t => exact hf
    | stopped t => exact hf.1
  { params := fun _ hs => hs.2
    init := fun s hs => drop (uInit_sat (fun _ hs => h'.memWrite1_sat _ _ hs) (fun _ hs => h'.uSetfreq_sat _ hs)
      (fun c on off _ hs => h'.uSetch_sat c on off hs) h'.initialized s hs)
    freq := fun hz s _ _ hs => drop (h'.uSetfreq_sat hz hs)
    frame := fun c on off s _ hs => drop (h'.uSetch_sat c on off hs)
    led := fun u c s hi hs => ⟨hled u c s hi hs.1, hs.2⟩
    bright := fun v s hi hs => ⟨hbright v s hi hs.1, hs.2⟩ }

end Closed

/-- Every command is a flow; what the shared operations keep, the command keeps. A command that ends
without bus work ends in a state of `B`. -/
theorem exec_sat {B G S : State → Prop} (i : Instr) {s : State} (hs : B s)
    (hbus : runsSetup i = true → BusSat i s.params B G S)
    (hfreq : ∀ hz, i = .setfreq hz → freqOutOfRange hz = true → S (raiseFault .freqRange (encode i) s))
    (hrgb : ∀ r g b c, i = .rgb r g b → B (setResult c s))
    (hhsl : ∀ h sat lum c, i = .hsl h sat lum → B (setResult c s)) :
    ∃ f : Flow, exec i s = .next f.state ∧ f.sat (fun t => B t ∨ G t) S := by
  have widen : ∀ {f : Flow}, f.sat G S → f.sat (fun t => B t ∨ G t) S := fun {f} h => by
    cases f with
    | going t => exact .inr h
    | stopped t => exact h
  have both : ∀ {m1 m2 : Int} {c : Instr}, BusSat c s.params B G S →
      (∀ m, (s.params.motor m).forward ∈ channelsDriven s.params c
        ∧ (s.params.motor m).reverse ∈ channelsDriven s.params c) →
      ((uInit (encode c) s).andThen fun s1 => (uRun (encode c) .m1 m1 s1).andThen (uRun (encode c) .m2 m2)).sat G S :=
    fun hb hc => Flow.andThen_sat (hb.init s hs) fun t ht =>
      Flow.andThen_sat (uRun_sat hb .m1 _ (hc .m1) ht) fun u hu => uRun_sat hb .m2 _ (hc .m2) hu
  cases i with
  | init => exact ⟨_, rfl, widen ((hbus rfl).init s hs)⟩
  | setfreq hz =>
    refine ⟨_, rfl, ?_⟩
    cases h : freqOutOfRange hz with
    | true => exact hfreq hz rfl h
    | false =>
      have hr : runsSetup (.setfreq hz) = true := by
        simpa [runsSetup] using freqOutOfRange_eq_false.mp h
      exact widen (Flow.andThen_sat ((hbus hr).init s hs) fun t ht => (hbus hr).freq hz t rfl h ht)
  | setch ch on off =>
    refine ⟨_, rfl, ?_⟩
    by_cases h : ch > 15
    · rw [if_pos h]; exact .inl hs
    · rw [if_neg h]
      have hr : runsSetup (.setch ch on off) = true := by simp [runsSetup]; omega
      have hc : ch < 16 := by omega
      exact widen (Flow.andThen_sat ((hbus hr).init s hs) fun t ht =>
        (hbus hr).frame ⟨ch, hc⟩ on off t (by simp [channelsDriven, hc]) ht)
  | setcolor unit color =>
    refine ⟨_, rfl, ?_⟩
    cases h : ledUnit? unit with
    | none => exact .inl hs
    | some u =>
      obtain ⟨hu, h1, h4⟩ := ledUnit?_eq_some h
      have hr : runsSetup (.setcolor unit color) = true := by simp [runsSetup, h1, h4]
      exact widen (Flow.andThen_sat ((hbus hr).init s hs) fun t ht =>
        uApply_sat (hbus hr) u (fun c hc => by simpa [channelsDriven, h] using hc)
          ((hbus hr).led u color t (.inl (by rw [hu])) ht))
  | setall color =>
    refine ⟨_, rfl, widen (Flow.andThen_sat ((hbus rfl).init s hs) fun t ht =>
      forEach_sat (fun u t ht => uApply_sat (hbus rfl) u (fun c hc => ?_)
        ((hbus rfl).led u color t (.inr rfl) ht)) _ ht)⟩
    exact List.mem_flatMap.mpr ⟨u, by cases u <;> simp [allLedUnits], hc⟩
  | setbright value =>
    refine ⟨_, rfl, widen (Flow.andThen_sat ((hbus rfl).init s hs) fun t ht =>
      forEach_sat (fun u t ht => uApply_sat (hbus rfl) u (fun c hc => ?_) ht) _ ((hbus rfl).bright _ t rfl ht))⟩
    exact List.mem_flatMap.mpr ⟨u, by cases u <;> simp [allLedUnits], hc⟩
  | rgb r g b => exact ⟨.going _, rfl, .inl (hrgb r g b _ rfl)⟩
  | hsl h sat lum => exact ⟨.going _, rfl, .inl (hhsl h sat lum _ rfl)⟩
  | run motor speed =>
    refine ⟨_, rfl, ?_⟩
    cases h : motorUnit? motor with
    | none => exact .inl hs
    | some m =>
      have hr : runsSetup (.run motor speed) = true := by
        have := motorUnit?_eq_some h; simp [runsSetup]; omega
      exact widen (Flow.andThen_sat ((hbus hr).init s hs) fun t ht =>
        uRun_sat (hbus hr) m speed (by simp [channelsDriven, h]) ht)
  | rundual a b => exact ⟨_, rfl, widen (both (hbus rfl) fun m => by cases m <;> simp [channelsDriven, Params.motor])⟩
  | move v => exact ⟨_, rfl, widen (both (hbus rfl) fun m => by cases m <;> simp [channelsDriven, Params.motor])⟩
  | stop motor =>
    refine ⟨_, rfl, ?_⟩
    cases h : motorUnit? motor with
    | none => exact .inl hs
    | some m =>
      have hr : runsSetup (.stop motor) = true := by
        have := motorUnit?_eq_some h; simp [runsSetup]; omega
      exact widen (Flow.andThen_sat ((hbus hr).init s hs) fun t ht =>
        uRun_sat (hbus hr) m 0 (by simp [channelsDriven, h]) ht)
  | stopall => exact ⟨_, rfl, widen (both (hbus rfl) fun m => by cases m <;> simp [channelsDriven, Params.motor])⟩

/-- Every command answers a next state: no command of the block ends in a fault or a refusal of the model. -/
theorem exec_next (i : Instr) (s : State) : ∃ t, exec i s = .next t := by
  cases i <;> exact ⟨_, rfl⟩

/-- Everything a step can do. -/
theorem step_cases (s : State) :
    (s.resetInput = true ∧ step s = .next (hostReset s))
    ∨ (s.resetInput = false ∧ s.fault.isSome = true ∧ step s = .next s)
    ∨ (s.resetInput = false ∧ s.fault = none ∧ presentedWord s = none ∧ step s = .next s)
    ∨ (s.resetInput = false ∧ s.fault = none ∧ ∃ w e, presentedWord s = some w ∧ decode w = .illegal e
        ∧ step s = .next { s with fault := some .illegalCommand, faultCmd := some w })
    ∨ (s.resetInput = false ∧ s.fault = none ∧ ∃ w i t, presentedWord s = some w ∧ decode w = .instr i
        ∧ exec i s = .next t ∧ step s = .next (advanceCursor t)) := by
  cases hr : s.resetInput with
  | true => exact .inl ⟨rfl, by simp [step, hr]⟩
  | false =>
  refine .inr ?_
  cases hf : s.fault with
  | some c => exact .inl ⟨rfl, rfl, by simp [step, hr, hf]⟩
  | none =>
  refine .inr ?_
  cases hw : presentedWord s with
  | none => exact .inl ⟨rfl, rfl, rfl, by simp [step, hr, hf, hw]⟩
  | some w =>
  refine .inr ?_
  cases hd : decode w with
  | illegal e =>
    refine .inl ⟨rfl, rfl, w, e, rfl, hd, ?_⟩
    simp [step, hr, hf, hw, hd, presentIllegal, raiseFault, advanceCursor]
  | instr i =>
    obtain ⟨t, ht⟩ := exec_next i s
    exact .inr ⟨rfl, rfl, w, i, t, rfl, hd, ht, by simp [step, hr, hf, hw, hd, ht]⟩

/-- An invariant of commands: what holds before, what the shared operations make of it, what it says at the end. -/
theorem exec_keeps {B G I : State → Prop} {i : Instr} {s t : State} (hx : exec i s = .next t) (hs : B s)
    (hB : ∀ u, B u → I u) (hG : ∀ u, G u → I u)
    (hbus : runsSetup i = true → BusSat i s.params B G I)
    (hfreq : ∀ hz, i = .setfreq hz → freqOutOfRange hz = true → I (raiseFault .freqRange (encode i) s))
    (hrgb : ∀ r g b c, i = .rgb r g b → B (setResult c s))
    (hhsl : ∀ h sat lum c, i = .hsl h sat lum → B (setResult c s)) : I t := by
  obtain ⟨f, he, hf⟩ := exec_sat i hs hbus hfreq hrgb hhsl
  rw [he] at hx
  injection hx with hx
  subst hx
  exact hf.state (fun u hu => hu.elim (hB u) (hG u)) fun _ h => h

/-- A property that every single operation keeps is kept by the whole command. -/
theorem exec_keeps_closed {P : State → Prop} {i : Instr} {s t : State} (hx : exec i s = .next t) (hs : P s)
    (h : Closed (encode i) P)
    (hled : ∀ u color s, i = .setcolor (ledNumber u) color ∨ i = .setall color → P s → P (setLed u color s))
    (hbright : ∀ v s, i = .setbright v → P s → P (setBrightness (brightnessOf v) s))
    (hfreq : ∀ hz, i = .setfreq hz → freqOutOfRange hz = true → P (raiseFault .freqRange (encode i) s))
    (hrgb : ∀ r g b c, i = .rgb r g b → P (setResult c s))
    (hhsl : ∀ h sat lum c, i = .hsl h sat lum → P (setResult c s)) : P t :=
  exec_keeps (B := fun u => P u ∧ u.params = s.params) (G := fun u => P u ∧ u.params = s.params) hx ⟨hs, rfl⟩
    (fun _ h => h.1) (fun _ h => h.1) (fun _ => h.busSat hled hbright) hfreq
    (fun r g b c e => ⟨hrgb r g b c e, rfl⟩) (fun x y z c e => ⟨hhsl x y z c e, rfl⟩)

/-- An invariant of steps: kept by reset, by the record of an illegal word, by the host's cursor and by
every command of an unfaulted block. -/
theorem step_keeps {I : State → Prop} (hreset : ∀ s, I s → I (hostReset s))
    (hillegal : ∀ s w e, I s → s.fault = none → decode w = .illegal e →
      I { s with fault := some .illegalCommand, faultCmd := some w })
    (hadvance : ∀ s, I s → I (advanceCursor s))
    (hexec : ∀ w i s t, I s → s.fault = none → decode w = .instr i → exec i s = .next t → I t)
    {s t : State} (hs : I s) (ht : step s = .next t) : I t := by
  rcases step_cases s with ⟨_, h⟩ | ⟨_, _, h⟩ | ⟨_, _, _, h⟩ | ⟨_, hf, w, e, _, hd, h⟩
      | ⟨_, hf, w, i, u, _, hd, hx, h⟩ <;> rw [h] at ht <;> injection ht with ht <;> subst ht
  · exact hreset s hs
  · exact hs
  · exact hs
  · exact hillegal s w e hs hf hd
  · exact hadvance _ (hexec w i s u hs hf hd hx)

/-- Everything `u_init` can do: nothing on an initialised block, the whole set-up, or a stop at its first
failed transaction with the flag still 0 (40_pwm_driver.md R126). -/
theorem uInit_cases (cmd : Command) (s : State) :
    (s.initialized = true ∧ uInit cmd s = .going s)
    ∨ (s.initialized = false ∧ AnswersOk 22 s ∧ uInit cmd s = .going (setupDone s))
    ∨ (s.initialized = false ∧ ∃ t, uInit cmd s = .stopped t ∧ t.initialized = false
        ∧ ∃ u, t = raiseFault .busError cmd u ∧ u.fault = s.fault ∧ u.faultCmd = s.faultCmd
          ∧ ∃ k, k < 22 ∧ (answerAt s k).ok = false) := by
  cases hi : s.initialized with
  | true => exact .inl ⟨rfl, uInit_of_initialized cmd hi⟩
  | false =>
  refine .inr ?_
  cases h0 : (answerAt s 0).ok with
  | false =>
    exact .inr ⟨rfl, _, by rw [uInit_of_uninitialized cmd hi, memWrite1_fail _ _ _ h0, Flow.stopped_andThen],
      by simpa using hi,
      emit (.write s.params.chipAddr s.params.modeReg s.params.modeResetValue false) (takeAnswers 1 s),
      rfl, rfl, rfl, 0, by omega, h0⟩
  | true =>
  have e0 : uInit cmd s = (uSetfreq cmd s.params.initHz (modeResetSent s)).andThen fun s2 =>
      (sendFrames cmd zeroFrames s2).andThen fun s3 => .going (setInitialized s3) := by
    rw [uInit_of_uninitialized cmd hi, memWrite1_ok _ _ _ h0, Flow.going_andThen]; rfl
  have a1 : ∀ k, answerAt (modeResetSent s) k = answerAt s (1 + k) := fun k => by simp [modeResetSent]
  rcases uSetfreq_cases cmd s.params.initHz (modeResetSent s) with ⟨hok, h⟩ | ⟨n, hn, hbad, h⟩
  · have a2 : ∀ k, answerAt (freqSet s.params.initHz (modeResetSent s)) k = answerAt s (6 + k) := fun k => by
      simp [freqSet, modeResetSent, answerAt, takeAnswers, emit, Nat.add_assoc]
    rcases sendFrames_cases cmd zeroFrames (freqSet s.params.initHz (modeResetSent s)) with
      ⟨hall, _⟩ | ⟨pre, f, post, hsplit, _, hbad, hstop⟩
    · have hgood : AnswersOk 22 s := by
        intro k hk
        rcases (by omega : k = 0 ∨ (1 ≤ k ∧ k < 6) ∨ 6 ≤ k) with rfl | ⟨h1, h2⟩ | h1
        · exact h0
        · have := hok (k - 1) (by omega)
          rwa [a1, Nat.add_sub_cancel' h1] at this
        · have := hall (k - 6) (show k - 6 < 16 by omega)
          rwa [a2, Nat.add_sub_cancel' h1] at this
      exact .inl ⟨rfl, hgood, uInit_ok cmd hi hgood⟩
    · refine .inr ⟨rfl, _, by rw [e0, h, Flow.going_andThen, hstop, Flow.stopped_andThen]; rfl, ?_,
        emit (frameEvent s.params false f)
          (takeAnswers 1 (framesSent pre (freqSet s.params.initHz (modeResetSent s)))), rfl, rfl, rfl,
        6 + pre.length, ?_, by rwa [a2] at hbad⟩
      · simpa [frameFailed, framesSent, freqSet, modeResetSent] using hi
      · have hlen : zeroFrames.length = 16 := rfl
        rw [hsplit] at hlen
        simp at hlen
        omega
  · refine .inr ⟨rfl, _, by rw [e0, h, Flow.stopped_andThen]; rfl, ?_,
      { modeResetSent s with
        trace := (modeResetSent s).trace
          ++ setfreqCut s.params (answerAt (modeResetSent s) 0).byte s.params.initHz n
        busScript := (modeResetSent s).busScript.drop (n + 1)
        drawCount := (modeResetSent s).drawCount + (n + 1) },
      rfl, rfl, rfl, 1 + n, by omega, by rwa [a1] at hbad⟩
    simpa [freqCut, modeResetSent] using hi

end Sys2Proof.Machine
end

