-- ==== Sys2Proof/Laws/Flows.lean ====
section
/-! SUPPORT. Two views of a command's flow: what it costs on the bus and when it goes through, and that the
word of the command only shows in what a bus failure records. The loops over the LED units and small facts of the
operands stand at the end. -/

namespace Sys2Proof.Machine

theorem Flow.going_ne_stopped (s t : State) : Flow.going s ≠ .stopped t := fun h => Flow.noConfusion h

/-- A flow begun at `s` that costs `n` transactions and `d` delays when it goes through: it goes through when
the bus answers well, and it raises a fault when it does not. -/
structure Flow.Costs (n d : Nat) (s : State) (f : Flow) : Prop where
  going_of_ok : AnswersOk n s → ∃ t, f = .going t
  of_going : ∀ t, f = .going t →
    transactions t.trace = transactions s.trace + n ∧ delays t.trace = delays s.trace + d
      ∧ t.fault = s.fault ∧ ∀ k, answerAt t k = answerAt s (n + k)
  of_stopped : ∀ t, f = .stopped t → t.fault ≠ none

theorem Flow.Costs.refl {s t : State} (htr : t.trace = s.trace) (hf : t.fault = s.fault)
    (ha : ∀ k, answerAt t k = answerAt s k) : (Flow.going t).Costs 0 0 s :=
  ⟨fun _ => ⟨t, rfl⟩, fun u hu => by obtain rfl := Flow.going.inj hu; simp [htr, hf, ha],
    fun u hu => absurd hu (Flow.going_ne_stopped t u)⟩

theorem Flow.Costs.andThen {n d m e : Nat} {s : State} {f : Flow} {k : State → Flow} (hf : f.Costs n d s)
    (hk : ∀ t, f = .going t → (k t).Costs m e t) : (f.andThen k).Costs (n + m) (d + e) s := by
  cases f with
  | stopped t =>
    exact ⟨fun h => absurd (hf.going_of_ok (h.mono (by omega))) (by simp),
      fun u hu => absurd hu.symm (Flow.going_ne_stopped u t),
      fun u hu => by obtain rfl := Flow.stopped.inj hu; exact hf.of_stopped t rfl⟩
  | going t =>
    obtain ⟨h1, h2, h3, h4⟩ := hf.of_going t rfl
    have hk := hk t rfl
    refine ⟨fun h => hk.going_of_ok fun j hj => by rw [h4]; exact h _ (by omega), fun u hu => ?_, hk.of_stopped⟩
    obtain ⟨g1, g2, g3, g4⟩ := hk.of_going u hu
    exact ⟨by omega, by omega, g3.trans h3, fun j => by rw [g4, h4, Nat.add_assoc]⟩

theorem raiseFault_fault_ne_none (cause : FaultCause) (w : Command) (s : State) :
    (raiseFault cause w s).fault ≠ none := by
  cases h : s.fault <;> simp [raiseFault, h]

theorem transactions_append (a b : List Event) : transactions (a ++ b) = transactions a + transactions b := by
  simp [transactions]

theorem delays_append (a b : List Event) : delays (a ++ b) = delays a + delays b := by simp [delays]

theorem memWrite1_costs (cmd : Command) (reg v : Byte) (s : State) : (memWrite1 cmd reg v s).Costs 1 0 s := by
  cases h : (answerAt s 0).ok with
  | true =>
    rw [memWrite1_ok _ _ _ h]
    refine ⟨fun _ => ⟨_, rfl⟩, fun t ht => ?_, fun t ht => absurd ht (Flow.going_ne_stopped _ t)⟩
    obtain rfl := Flow.going.inj ht
    simp only [emit_trace, takeAnswers_trace, transactions_append, delays_append]
    exact ⟨rfl, rfl, rfl, fun k => by simp⟩
  | false =>
    rw [memWrite1_fail _ _ _ h]
    refine ⟨fun ho => ?_, fun t ht => absurd ht.symm (Flow.going_ne_stopped t _),
      fun t ht => by obtain rfl := Flow.stopped.inj ht; exact raiseFault_fault_ne_none _ _ _⟩
    rw [ho 0 (by omega)] at h; cases h

theorem uSetch_costs (cmd : Command) (c : Fin 16) (on off : Tick) (s : State) :
    (uSetch cmd c on off s).Costs 1 0 s := by
  rcases uSetch_cases cmd c on off s with ⟨h, e⟩ | ⟨h, e⟩ <;> rw [e]
  · refine ⟨fun _ => ⟨_, rfl⟩, fun t ht => ?_, fun t ht => absurd ht (Flow.going_ne_stopped _ t)⟩
    obtain rfl := Flow.going.inj ht
    simp only [framesSent_trace, transactions_append, delays_append]
    exact ⟨rfl, rfl, rfl, fun k => answerAt_framesSent _ _ _⟩
  · refine ⟨fun ho => ?_, fun t ht => absurd ht.symm (Flow.going_ne_stopped t _),
      fun t ht => by obtain rfl := Flow.stopped.inj ht; exact raiseFault_fault_ne_none _ _ _⟩
    rw [ho 0 (by omega)] at h; cases h

theorem sendFrames_costs (cmd : Command) (fs : List Frame) :
    ∀ s : State, (sendFrames cmd fs s).Costs fs.length 0 s := by
  induction fs with
  | nil => exact fun s => Flow.Costs.refl rfl rfl fun _ => rfl
  | cons f fs ih =>
    intro s
    have := (uSetch_costs cmd f.ch f.on f.off s).andThen fun t _ => ih t
    rwa [Nat.add_comm] at this

theorem uSetfreq_costs (cmd : Command) (hz : Nat) (s : State) : (uSetfreq cmd hz s).Costs 5 1 s := by
  rcases uSetfreq_cases cmd hz s with ⟨h, e⟩ | ⟨n, hn, h, e⟩ <;> rw [e]
  · refine ⟨fun _ => ⟨_, rfl⟩, fun t ht => ?_, fun t ht => absurd ht (Flow.going_ne_stopped _ t)⟩
    obtain rfl := Flow.going.inj ht
    exact ⟨transactions_append _ _, delays_append _ _, rfl, fun k => by simp [freqSet, answerAt, Nat.add_assoc]⟩
  · refine ⟨fun ho => ?_, fun t ht => absurd ht.symm (Flow.going_ne_stopped t _),
      fun t ht => by obtain rfl := Flow.stopped.inj ht; exact raiseFault_fault_ne_none _ _ _⟩
    rw [ho n hn] at h; cases h

/-- The lazy set-up costs 22 transactions and one delay (70_reset_and_hazards.md R265). -/
theorem uInit_costs (cmd : Command) (s : State) :
    (uInit cmd s).Costs (if s.initialized then 0 else 22) (if s.initialized then 0 else 1) s := by
  cases h : s.initialized with
  | true => rw [uInit_of_initialized _ h]; exact Flow.Costs.refl rfl rfl fun _ => rfl
  | false =>
    rw [uInit_of_uninitialized _ h]
    have := (memWrite1_costs cmd s.params.modeReg s.params.modeResetValue s).andThen fun t _ =>
      (uSetfreq_costs cmd t.params.initHz t).andThen fun t _ =>
      (sendFrames_costs cmd zeroFrames t).andThen fun t _ =>
        Flow.Costs.refl (t := setInitialized t) rfl rfl fun _ => rfl
    exact this

theorem uRun_costs (cmd : Command) (m : MotorUnit) (v : Int) (s : State) : (uRun cmd m v s).Costs 2 0 s := by
  rw [uRun_eq_sendFrames]
  have := sendFrames_costs cmd (motorFrames s.params m v) s
  rwa [show (motorFrames s.params m v).length = 2 by unfold motorFrames; split <;> rfl] at this

theorem uApply_costs (cmd : Command) (u : LedUnit) (s : State) : (uApply cmd u s).Costs 3 0 s := by
  rw [uApply_eq_sendFrames]
  exact sendFrames_costs cmd (ledFrames s.params s.brightness (s.led u) u) s

theorem forEach_costs {α : Type} {f : α → State → Flow} {n : Nat} (hf : ∀ x s, (f x s).Costs n 0 s) :
    ∀ (xs : List α) (s : State), (forEach f xs s).Costs (n * xs.length) 0 s
  | [], s => Flow.Costs.refl rfl rfl fun _ => rfl
  | x :: xs, s => by
    have := (hf x s).andThen fun t _ => forEach_costs hf xs t
    rwa [Nat.add_comm n, ← Nat.mul_succ] at this

theorem storeAndApply_costs (cmd : Command) (color : Color) (u : LedUnit) (s : State) :
    (storeAndApply cmd color u s).Costs 3 0 s := by
  have h := uApply_costs cmd u (setLed u color s)
  exact ⟨h.going_of_ok, h.of_going, h.of_stopped⟩

/-- The two flows, begun on a block whose `fault` is `φ`, agree but for the word that a bus failure records. -/
def Flow.SameButWord (c c' : Command) (φ : Option FaultCause) (f f' : Flow) : Prop :=
  (∃ s, s.fault = φ ∧ f = .going s ∧ f' = .going s)
  ∨ ∃ s, s.fault = φ ∧ f = .stopped (raiseFault .busError c s) ∧ f' = .stopped (raiseFault .busError c' s)

theorem Flow.SameButWord.andThen {c c' : Command} {φ : Option FaultCause} {f f' : Flow} {k k' : State → Flow}
    (h : f.SameButWord c c' φ f') (hk : ∀ s, s.fault = φ → (k s).SameButWord c c' φ (k' s)) :
    (f.andThen k).SameButWord c c' φ (f'.andThen k') := by
  rcases h with ⟨s, hs, rfl, rfl⟩ | ⟨s, hs, rfl, rfl⟩
  · exact hk s hs
  · exact .inr ⟨s, hs, rfl, rfl⟩

theorem forEach_sameButWord (c c' : Command) {α : Type} {f f' : α → State → Flow}
    (hf : ∀ x s, (f x s).SameButWord c c' s.fault (f' x s)) :
    ∀ (xs : List α) (s : State), (forEach f xs s).SameButWord c c' s.fault (forEach f' xs s)
  | [], s => .inl ⟨s, rfl, rfl, rfl⟩
  | x :: xs, s => (hf x s).andThen fun t ht => ht ▸ forEach_sameButWord c c' hf xs t

theorem checkStatus_sameButWord (c c' : Command) (ok : Bool) (s : State) :
    (checkStatus c ok s).SameButWord c c' s.fault (checkStatus c' ok s) := by
  cases ok with
  | false => exact .inr ⟨s, rfl, rfl, rfl⟩
  | true => exact .inl ⟨s, rfl, rfl, rfl⟩

theorem memWrite1_sameButWord (c c' : Command) (reg v : Byte) (s : State) :
    (memWrite1 c reg v s).SameButWord c c' s.fault (memWrite1 c' reg v s) :=
  checkStatus_sameButWord c c' _ (emit _ (takeAnswers 1 s))

theorem uSetfreq_sameButWord (c c' : Command) (hz : Nat) (s : State) :
    (uSetfreq c hz s).SameButWord c c' s.fault (uSetfreq c' hz s) :=
  (checkStatus_sameButWord c c' _ (emit _ (takeAnswers 1 s))).andThen fun t ht => ht ▸
    (memWrite1_sameButWord c c' _ _ t).andThen fun t ht => ht ▸
    (memWrite1_sameButWord c c' _ _ t).andThen fun t ht => ht ▸
    (memWrite1_sameButWord c c' _ _ t).andThen fun t ht => ht ▸
    memWrite1_sameButWord c c' _ _ (emit _ t)

theorem uSetch_sameButWord (c c' : Command) (ch : Nat) (on off : Tick) (s : State) :
    (uSetch c ch on off s).SameButWord c c' s.fault (uSetch c' ch on off s) := by
  unfold uSetch
  split
  · exact (checkStatus_sameButWord c c' _ (emit _ (takeAnswers 1 s))).andThen fun t ht =>
      .inl ⟨setTicks _ on off t, ht, rfl, rfl⟩
  · exact .inl ⟨s, rfl, rfl, rfl⟩

theorem uInit_sameButWord (c c' : Command) (s : State) :
    (uInit c s).SameButWord c c' s.fault (uInit c' s) := by
  unfold uInit
  split
  · exact .inl ⟨s, rfl, rfl, rfl⟩
  · exact (memWrite1_sameButWord c c' _ _ s).andThen fun t ht => ht ▸
      (uSetfreq_sameButWord c c' _ t).andThen fun t ht => ht ▸
      (forEach_sameButWord c c' (fun n t => uSetch_sameButWord c c' n 0#12 0#12 t) _ t).andThen fun t ht =>
        .inl ⟨setInitialized t, ht, rfl, rfl⟩

theorem uRun_sameButWord (c c' : Command) (m : MotorUnit) (v : Int) (s : State) :
    (uRun c m v s).SameButWord c c' s.fault (uRun c' m v s) :=
  (uSetch_sameButWord c c' _ _ _ s).andThen fun t ht => ht ▸ uSetch_sameButWord c c' _ _ _ t

/-- An LED unit number in range names a unit. -/
theorem ledUnit?_isSome {n : Nat} (h1 : 1 ≤ n) (h4 : n ≤ 4) : ∃ u, ledUnit? n = some u := by
  interval_cases n <;> exact ⟨_, rfl⟩

/-- A motor unit number in range names a unit. -/
theorem motorUnit?_isSome {n : Nat} (h1 : 1 ≤ n) (h2 : n ≤ 2) : ∃ m, motorUnit? n = some m := by
  interval_cases n <;> exact ⟨_, rfl⟩

/-- A command that runs the lazy set-up is the set-up and then its own work (40_pwm_driver.md R121). -/
theorem exec_eq_setup_then_work {i : Instr} (hi : runsSetup i = true) :
    ∃ work : State → Flow, ∀ s, exec i s = endCommand ((uInit (encode i) s).andThen work) := by
  cases i with
  | init => exact ⟨Flow.going, fun s => by simp only [exec, execInit]; cases uInit (encode .init) s <;> rfl⟩
  | setfreq hz =>
    have h : freqOutOfRange hz = false := freqOutOfRange_eq_false.mpr (by simpa [runsSetup] using hi)
    exact ⟨_, fun s => by simp only [exec, execSetfreq, h]; rfl⟩
  | setch ch on off =>
    have h : ¬ch > 15 := by simpa [runsSetup] using hi
    exact ⟨_, fun s => by simp only [exec, execSetch, if_neg h]; rfl⟩
  | setcolor unit color =>
    simp only [runsSetup, Bool.and_eq_true, decide_eq_true_eq] at hi
    obtain ⟨u, h⟩ := ledUnit?_isSome hi.1 hi.2
    exact ⟨_, fun s => by simp only [exec, execSetcolor, h]; rfl⟩
  | setall color => exact ⟨_, fun s => rfl⟩
  | setbright v => exact ⟨_, fun s => rfl⟩
  | rgb r g b => cases hi
  | hsl h sat lum => cases hi
  | run motor speed =>
    simp only [runsSetup, Bool.and_eq_true, decide_eq_true_eq] at hi
    obtain ⟨m, h⟩ := motorUnit?_isSome hi.1 hi.2
    exact ⟨_, fun s => by simp only [exec, execRun, h]; rfl⟩
  | rundual a b => exact ⟨_, fun s => rfl⟩
  | move v => exact ⟨_, fun s => rfl⟩
  | stop motor =>
    simp only [runsSetup, Bool.and_eq_true, decide_eq_true_eq] at hi
    obtain ⟨m, h⟩ := motorUnit?_isSome hi.1 hi.2
    exact ⟨_, fun s => by simp only [exec, execStop, h]; rfl⟩
  | stopall => exact ⟨_, fun s => rfl⟩

/-- A flow that ended without a fault went through. -/
theorem Flow.Costs.eq_going {n d : Nat} {s t : State} {f : Flow} (h : f.Costs n d s) (hx : f.state = t)
    (ht : t.fault = none) : f = .going t := by
  cases f with
  | going u => rw [← hx]; rfl
  | stopped u => subst hx; exact absurd ht (h.of_stopped u rfl)

/-! ### The loops over the LED units -/

/-- Storing a unit's colour changes that unit's register only (41_color_engine.md R152). -/
theorem led_setLed (u v : LedUnit) (color : Color) (s : State) :
    (setLed u color s).led v = if v = u then color else s.led v := by
  cases u <;> cases v <;> simp [State.led, setLed, ledIndex]

/-- Applying units one after the other is one list of frames: no stored colour changes on the way
(41_color_engine.md R154). -/
theorem forEach_uApply_eq_sendFrames (cmd : Command) (us : List LedUnit) (s : State) :
    forEach (uApply cmd) us s
      = sendFrames cmd (us.flatMap fun u => ledFrames s.params s.brightness (s.led u) u) s := by
  induction us generalizing s with
  | nil => rfl
  | cons u us ih =>
    rw [List.flatMap_cons, sendFrames_append, forEach_cons, uApply_eq_sendFrames]
    rcases sendFrames_cases cmd (ledFrames s.params s.brightness (s.led u) u) s with
      ⟨_, h⟩ | ⟨_, _, _, _, _, _, h⟩ <;> rw [h]
    · exact ih _
    · rfl

/-- The loop of SETALL on a bus that first fails frame number `k`: the colour is stored in the units up to the
one being applied, each before its frames (41_color_engine.md R153, 92_eei_decisions.md D33). -/
theorem forEach_storeAndApply_fail (cmd : Command) (color : Color) {f : Frame} (us : List LedUnit) :
    ∀ {k : Nat} {s : State}, s.fault = none → FailsFirstAt k s →
      (us.flatMap (ledFrames s.params s.brightness color))[k]? = some f →
      ∃ r, forEach (storeAndApply cmd color) us s = .stopped r
        ∧ (∀ colors, { r with ledColor := colors } = { stoppedAtFrame cmd
            ((us.flatMap (ledFrames s.params s.brightness color)).take k) f s with ledColor := colors })
        ∧ ∀ u, r.led u = if u ∈ us.take (k / 3 + 1) then color else s.led u := by
  induction us with
  | nil => intro k s _ _ h; simp at h
  | cons u us ih =>
    intro k s hf hk h
    have hl : ∀ v, (ledFrames s.params s.brightness color v).length = 3 := fun _ => rfl
    have ht := fun v => led_setLed u v color s
    rw [List.flatMap_cons] at h ⊢
    rw [forEach_cons, storeAndApply, uApply_eq_sendFrames, ht, if_pos rfl]
    simp only [setLed_params, setLed_brightness]
    by_cases hk3 : k < 3
    · rw [List.getElem?_append_left (by rwa [hl])] at h
      rw [sendFrames_fail cmd (s := setLed u color s) hf hk h]
      refine ⟨_, rfl, fun _ => ?_, fun v => ?_⟩
      · rw [List.take_append_of_le_length (by rw [hl]; omega)]; rfl
      · rw [show k / 3 + 1 = 1 by omega]
        simp only [List.take_succ_cons, List.take_zero, List.mem_singleton]
        exact ht v
    · rw [List.getElem?_append_right (by rw [hl]; omega), hl] at h
      rw [sendFrames_ok cmd _ (s := setLed u color s) (fun j hj => hk.1 j (by rw [hl] at hj; omega)),
        Flow.going_andThen]
      obtain ⟨r, h1, h2, h3⟩ := ih
        (s := framesSent (ledFrames s.params s.brightness color u) (setLed u color s)) hf
        ⟨fun j hj => by rw [answerAt_framesSent, hl]; exact hk.1 _ (by omega),
          by rw [answerAt_framesSent, hl, Nat.add_sub_cancel' (by omega)]; exact hk.2⟩ h
      refine ⟨r, h1, fun c => ?_, fun v => ?_⟩
      · rw [h2, List.take_append,
          List.take_of_length_le (l := ledFrames s.params s.brightness color u) (by rw [hl]; omega), hl,
          stoppedAtFrame, stoppedAtFrame, framesSent_append]
        simp [framesSent, hl, Nat.add_assoc, List.foldl_append]
      · have hv : (framesSent (ledFrames s.params s.brightness color u) (setLed u color s)).led v
            = (setLed u color s).led v := rfl
        rw [h3, hv, ht, show k / 3 + 1 = (k - 3) / 3 + 1 + 1 by omega, List.take_succ_cons]
        simp only [List.mem_cons]
        by_cases a : v = u <;> by_cases b : v ∈ us.take ((k - 3) / 3 + 1) <;> simp [a, b]

/-! ### Operands -/

/-- Truncating division of naturals (00_scope.md R11). -/
theorem idiv_natCast (a b : Nat) : idiv (a : Int) (b : Int) = ((a / b : Nat) : Int) := by
  simp [idiv, Int.tdiv_eq_ediv]

/-- The stored brightness is the clamped value (41_color_engine.md R154). -/
theorem brightnessOf_toNat (v : Int) : ((brightnessOf v).toNat : Int) = max 0 (min v 255) := by
  unfold brightnessOf clamp
  split
  · simp; omega
  · split
    · simp; omega
    · rw [BitVec.toNat_ofInt]; omega

/-- A scaled component times 16 fits a 12-bit tick (41_color_engine.md R150). -/
theorem scale_mul_lt (comp br : Byte) : 16 * scale comp br < 4096 := by
  have hc := comp.isLt
  have hb := br.isLt
  unfold scale
  split
  · omega
  · rw [Nat.shiftRight_eq_div_pow]
    have : comp.toNat * br.toNat ≤ 255 * 255 := Nat.mul_le_mul (by omega) (by omega)
    omega

/-- The three channels of an LED unit differ (00_scope.md R7 (e)). -/
theorem led_channels_ne {p : Params} (h : p.valid = true) (u : LedUnit) :
    (p.led u).red ≠ (p.led u).green ∧ (p.led u).red ≠ (p.led u).blue ∧ (p.led u).green ≠ (p.led u).blue := by
  have h := ((valid_iff p).mp h).2.2.2.2.2.2
  simp [Params.channels] at h
  cases u <;> simp [Params.led, h]

/-- The two channels of a motor unit differ (00_scope.md R7 (e)). -/
theorem motor_channels_ne {p : Params} (h : p.valid = true) (m : MotorUnit) :
    (p.motor m).forward ≠ (p.motor m).reverse := by
  have h := ((valid_iff p).mp h).2.2.2.2.2.2
  simp [Params.channels] at h
  cases m <;> simp [Params.motor, h]

end Sys2Proof.Machine
end

