-- ==== Sys2Proof/Laws/PerInstr.lean ====
section
/-! SUPPORT. Families of statements about every command as syntax, one lemma per constructor. -/

namespace Sys2Proof.Laws.EncodeFitsRow

/-- The word of an instruction meets the match and mask of its own row of 30_encoding.md R94: its opcode is the row's
and its reserved bits are 0 (R81). -/
def Statement (i : Instr) : Prop :=
  ∀ r ∈ opcodeTable, r.op = i.op → encode i &&& r.mask = r.matchWord

/-- A statement about an instruction's row, from the one row that has the instruction's name. -/
theorem of_row {i : Instr} {P : OpcodeRow → Prop} (r : OpcodeRow)
    (hr : opcodeTable.filter (fun r => r.op == i.op) = [r]) (h : P r) :
    ∀ r ∈ opcodeTable, r.op = i.op → P r := by
  intro r' hmem hop
  have : r' ∈ opcodeTable.filter (fun r => r.op == i.op) := by simp [hmem, hop]
  rw [hr, List.mem_singleton] at this
  rwa [this]

theorem init : Statement .init := by
  refine of_row ⟨.init, 0x01#8, 0x0100000000#40, 0xFFFFFFFFFF#40⟩ rfl ?_
  decide

theorem setfreq (hz : Nat) : Statement (.setfreq hz) := by
  refine of_row ⟨.setfreq, 0x02#8, 0x0200000000#40, 0xFFFFFF0000#40⟩ rfl ?_
  simp only [encode, commandWord]
  ext i hi
  simp only [BitVec.getElem_and, BitVec.getElem_append]
  interval_cases i <;> simp

theorem setch (ch : Nat) (on off : Tick) : Statement (.setch ch on off) := by
  refine of_row ⟨.setch, 0x03#8, 0x0300000000#40, 0xFF00000000#40⟩ rfl ?_
  simp only [encode, commandWord]
  ext i hi
  simp only [BitVec.getElem_and, BitVec.getElem_append]
  interval_cases i <;> simp

theorem setcolor (unit : Nat) (color : Color) : Statement (.setcolor unit color) := by
  refine of_row ⟨.setcolor, 0x10#8, 0x1000000000#40, 0xFF00000000#40⟩ rfl ?_
  simp only [encode, commandWord]
  ext i hi
  simp only [BitVec.getElem_and, BitVec.getElem_append]
  interval_cases i <;> simp

theorem setall (color : Color) : Statement (.setall color) := by
  refine of_row ⟨.setall, 0x11#8, 0x1100000000#40, 0xFFFF000000#40⟩ rfl ?_
  simp only [encode, commandWord]
  ext i hi
  simp only [BitVec.getElem_and, BitVec.getElem_append]
  interval_cases i <;> simp

theorem setbright (value : Int) : Statement (.setbright value) := by
  refine of_row ⟨.setbright, 0x12#8, 0x1200000000#40, 0xFFFFFF0000#40⟩ rfl ?_
  simp only [encode, commandWord]
  ext i hi
  simp only [BitVec.getElem_and, BitVec.getElem_append]
  interval_cases i <;> simp

theorem rgb (r g b : BitVec 10) : Statement (.rgb r g b) := by
  refine of_row ⟨.rgb, 0x13#8, 0x1300000000#40, 0xFFC0000000#40⟩ rfl ?_
  simp only [encode, commandWord]
  ext i hi
  simp only [BitVec.getElem_and, BitVec.getElem_append]
  interval_cases i <;> simp

theorem hsl (h : Nat) (sat lum : Int) : Statement (.hsl h sat lum) := by
  refine of_row ⟨.hsl, 0x14#8, 0x1400000000#40, 0xFF00000000#40⟩ rfl ?_
  simp only [encode, commandWord]
  ext i hi
  simp only [BitVec.getElem_and, BitVec.getElem_append]
  interval_cases i <;> simp

theorem run (motor : Nat) (speed : Int) : Statement (.run motor speed) := by
  refine of_row ⟨.run, 0x20#8, 0x2000000000#40, 0xFF00FF0000#40⟩ rfl ?_
  simp only [encode, commandWord]
  ext i hi
  simp only [BitVec.getElem_and, BitVec.getElem_append]
  interval_cases i <;> simp

theorem rundual (speedA speedB : Int) : Statement (.rundual speedA speedB) := by
  refine of_row ⟨.rundual, 0x21#8, 0x2100000000#40, 0xFF00000000#40⟩ rfl ?_
  simp only [encode, commandWord]
  ext i hi
  simp only [BitVec.getElem_and, BitVec.getElem_append]
  interval_cases i <;> simp

theorem move (speed : Int) : Statement (.move speed) := by
  refine of_row ⟨.move, 0x22#8, 0x2200000000#40, 0xFFFFFF0000#40⟩ rfl ?_
  simp only [encode, commandWord]
  ext i hi
  simp only [BitVec.getElem_and, BitVec.getElem_append]
  interval_cases i <;> simp

theorem stop (motor : Nat) : Statement (.stop motor) := by
  refine of_row ⟨.stop, 0x23#8, 0x2300000000#40, 0xFF00FFFFFF#40⟩ rfl ?_
  simp only [encode, commandWord]
  ext i hi
  simp only [BitVec.getElem_and, BitVec.getElem_append]
  interval_cases i <;> simp

theorem stopall : Statement .stopall := by
  refine of_row ⟨.stopall, 0x24#8, 0x2400000000#40, 0xFFFFFFFFFF#40⟩ rfl ?_
  decide

end Sys2Proof.Laws.EncodeFitsRow
end

