-- ==== Sys2Proof/Tests/Slice0.lean ====
section
/-! SUPPORT. The model's own tests: expected values are those of spec/95_test_vectors.md (vector ids in the
comments) or worked by hand from the rules named; then a witness for the hypotheses of every obligation. -/

namespace Sys2Proof.Machine.Tests

/-! ### Fixture (95_test_vectors.md section 1) -/

/-- `n` good answers, a read returning `byte`. -/
def good (n : Nat) (byte : Byte) : List BusAnswer := List.replicate n ⟨true, byte⟩

/-- A failed transaction. -/
def bad : BusAnswer := ⟨false, 0#8⟩

/-- A block just reset, default parameters, mode register reading 0. -/
def fresh : State := { State.reset with params := Params.default, busScript := good 40 0x00#8 }

/-- The "initialised block" of 95_test_vectors.md section 1, its trace set aside; mode register 0xA0. -/
def ready : State :=
  { fresh with
    initialized := true
    chOn := Vector.replicate 16 (some 0#12)
    chOff := Vector.replicate 16 (some 0#12)
    busScript := good 40 0xA0#8 }

/-- The host presents `w` next to `s`. -/
def withWord (w : Command) (s : State) : State := { s with program := [w] }

/-- A field of the state an outcome goes on to. -/
def after {α : Type} (f : State → α) : Host.Outcome State Fault Refusal → Option α
  | .next t => some (f t)
  | .fault _ => none
  | .refused _ => none

/-- A register write at the default chip address. -/
def W (reg val : Byte) : Event := .write 0x40#7 reg val true
/-- A frame at the default chip address. -/
def B (reg b1 b2 b3 b4 : Byte) : Event := .buffer 0x40#7 [reg, b1, b2, b3, b4] true

/-! ### WellFormed: each check refuses an ill-formed term (30_encoding.md R99) -/

theorem test_wf_setfreq : (Instr.setfreq 65536).wellFormed = false := by decide
theorem test_wf_setch : (Instr.setch 256 0#12 0#12).wellFormed = false := by decide
theorem test_wf_setcolor : (Instr.setcolor 256 0#24).wellFormed = false := by decide
theorem test_wf_setbright : (Instr.setbright 32768).wellFormed = false
    ∧ (Instr.setbright (-32769)).wellFormed = false := by decide
theorem test_wf_hsl : (Instr.hsl 65536 0 0).wellFormed = false ∧ (Instr.hsl 0 128 0).wellFormed = false
    ∧ (Instr.hsl 0 (-129) 0).wellFormed = false ∧ (Instr.hsl 0 0 128).wellFormed = false
    ∧ (Instr.hsl 0 0 (-129)).wellFormed = false := by decide
theorem test_wf_run : (Instr.run 256 0).wellFormed = false ∧ (Instr.run 1 32768).wellFormed = false
    ∧ (Instr.run 1 (-32769)).wellFormed = false := by decide
theorem test_wf_rundual : (Instr.rundual 32768 0).wellFormed = false
    ∧ (Instr.rundual 0 (-32769)).wellFormed = false := by decide
theorem test_wf_move : (Instr.move 32768).wellFormed = false ∧ (Instr.move (-32769)).wellFormed = false := by decide
theorem test_wf_stop : (Instr.stop 256).wellFormed = false := by decide

/-! ### Decoding: words from 95_test_vectors.md section 3.1, E1 to E25 -/

/-- E1. -/
theorem test_decode_init : decode 0x0100000000#40 = .instr .init := by decide
/-- E2; the hz field is bits 15:0. -/
theorem test_decode_setfreq : decode 0x0200000032#40 = .instr (.setfreq 50) := by decide
/-- E3; ch 31:24, on 23:12, off 11:0. -/
theorem test_decode_setch : decode 0x030FABCDEF#40 = .instr (.setch 15 0xABC#12 0xDEF#12) := by decide
/-- E4; unit 31:24, color 23:0. -/
theorem test_decode_setcolor : decode 0x1001FF8000#40 = .instr (.setcolor 1 0xFF8000#24) := by decide
/-- E5. -/
theorem test_decode_setall : decode 0x11000000FF#40 = .instr (.setall 0x0000FF#24) := by decide
/-- E6. -/
theorem test_decode_setbright : decode 0x120000FFFF#40 = .instr (.setbright (-1)) := by decide
/-- E7; r 29:20, g 19:10, b 9:0. -/
theorem test_decode_rgb : decode 0x13100407FF#40 = .instr (.rgb 256#10 257#10 1023#10) := by decide
/-- E8; h 31:16, s 15:8, l 7:0. -/
theorem test_decode_hsl : decode 0x14002DFF32#40 = .instr (.hsl 45 (-1) 50) := by decide
/-- E9; motor 31:24, speed 15:0. -/
theorem test_decode_run : decode 0x200100FF9C#40 = .instr (.run 1 (-100)) := by decide
/-- E10; speedA 31:16, speedB 15:0. -/
theorem test_decode_rundual : decode 0x210064FFCE#40 = .instr (.rundual 100 (-50)) := by decide
/-- E11. -/
theorem test_decode_move : decode 0x2200008000#40 = .instr (.move (-32768)) := by decide
/-- E12; motor 31:24. -/
theorem test_decode_stop : decode 0x23FF000000#40 = .instr (.stop 255) := by decide
/-- E13. -/
theorem test_decode_stopall : decode 0x2400000000#40 = .instr .stopall := by decide

/-- E14 to E16: unassigned opcodes. -/
theorem test_decode_unassigned : decode 0x0000000000#40 = .illegal .unassignedOpcode
    ∧ decode 0xFFFFFFFFFF#40 = .illegal .unassignedOpcode
    ∧ decode 0x0400000000#40 = .illegal .unassignedOpcode := by decide
/-- E17 to E21: a reserved bit set. -/
theorem test_decode_reserved : decode 0x0100000001#40 = .illegal .reservedBits
    ∧ decode 0x0200010032#40 = .illegal .reservedBits ∧ decode 0x1101000000#40 = .illegal .reservedBits
    ∧ decode 0x1200010000#40 = .illegal .reservedBits ∧ decode 0x1340000000#40 = .illegal .reservedBits := by decide
/-- E22 to E25: a reserved bit set. -/
theorem test_decode_reserved_motor : decode 0x2001010064#40 = .illegal .reservedBits
    ∧ decode 0x2200010000#40 = .illegal .reservedBits ∧ decode 0x2301000001#40 = .illegal .reservedBits
    ∧ decode 0x2400000001#40 = .illegal .reservedBits := by decide

/-- No word matches two rows (30_encoding.md R94). -/
theorem test_rows_disjoint :
    opcodeTable.Pairwise (fun a b => a.matchWord &&& (a.mask &&& b.mask) ≠ b.matchWord &&& (a.mask &&& b.mask)) := by
  decide

/-- The table numbering is that of the word; a row with 40 bits loses none. -/
theorem test_table_word : decodeTableWord 40 0x2001000064 = some (.run 1 100)
    ∧ decodeTableWord 40 0x0400000000 = none := by decide

/-- 30_encoding.md R100. -/
theorem test_assemble : assembleLine "  RUN 1, -100   ; back".toList = .command (.run 1 (-100)) 0x200100FF9C#40
    ∧ assembleLine "SETCOLOR 1, 0x76C7F0".toList = .command (.setcolor 1 0x76C7F0#24) 0x100176C7F0#40 := by decide
/-- 30_encoding.md R100: out of range, a missing operand, an unknown mnemonic; a line that is a comment only. -/
theorem test_assemble_errors : assembleLine "SETCH 0, 0, 4096".toList = .error
    ∧ assembleLine "RUN 1".toList = .error ∧ assembleLine "HALT".toList = .error
    ∧ assembleLine " ; nothing".toList = .blank := by decide

/-! ### The PWM controller driver -/

/-- T1: the 23 events of INIT, its first six and its last here. -/
theorem test_init_trace : after (fun t => (t.trace.take 7, t.trace.length, t.trace.getLast?)) (exec .init fresh)
    = some ([W 0x00#8 0x00#8, .read 0x40#7 0x00#8 (some 0x00#8), W 0x00#8 0x10#8, W 0xFE#8 0x79#8, W 0x00#8 0x00#8,
        .delay 5000, W 0x00#8 0xA0#8], 23, some (B 0x42#8 0 0 0 0)) := by decide
/-- T1, T2: the state after. -/
theorem test_init_state : after (fun t => (t.initialized, t.chOff[7], t.status)) (exec .init fresh)
    = some (true, some 0#12, 0x01#8) := by decide
/-- F1: the mode register reads 0xA0. -/
theorem test_setfreq : after State.trace (exec (.setfreq 100) ready)
    = some [.read 0x40#7 0x00#8 (some 0xA0#8), W 0x00#8 0xB0#8, W 0xFE#8 0x3C#8, W 0x00#8 0xA0#8, .delay 5000,
        W 0x00#8 0xA0#8] := by decide
/-- F10: other masks. -/
theorem test_setfreq_masks : after (fun t => t.trace.drop 1)
    (exec (.setfreq 60) { ready with params := { Params.default with sleepKeepMask := 0x7F#8, wakeMask := 0xA1#8 } })
    = some [W 0x00#8 0x30#8, W 0xFE#8 0x65#8, W 0x00#8 0xA0#8, .delay 5000, W 0x00#8 0xA1#8] := by decide
/-- F11, F13, F15: FreqRange, no event, also before set-up. -/
theorem test_setfreq_range : after (fun t => (t.trace, t.status)) (exec (.setfreq 23) ready) = some ([], 0x0B#8)
    ∧ after (fun t => (t.trace, t.status)) (exec (.setfreq 12208) ready) = some ([], 0x0B#8)
    ∧ after (fun t => (t.trace, t.status)) (exec (.setfreq 23) fresh) = some ([], 0x0A#8) := by decide
/-- The ends of the range, F2 and F3, and a middle value, F4 (40_pwm_driver.md R122). -/
theorem test_prescale : prescale 24 = 253 ∧ prescale 12207 = 0 ∧ prescale 1000 = 5 := by decide
/-- C4. -/
theorem test_setch : after (fun t => (t.trace, t.chOn[15], t.chOff[15])) (exec (.setch 15 0xABC#12 0xDEF#12) ready)
    = some ([B 0x42#8 0xBC#8 0x0A#8 0xEF#8 0x0D#8], some 0xABC#12, some 0xDEF#12) := by decide
/-- C10: a no-op before set-up. -/
theorem test_setch_range : after id (exec (.setch 16 0#12 0x064#12) fresh) = some fresh := by decide

/-! ### The colour and brightness engine -/

/-- L5. -/
theorem test_setcolor : after (fun t => (t.trace, t.led .u1))
    (exec (.setcolor 1 0xFF8000#24) { ready with brightness := 100#8 })
    = some ([B 0x16#8 0 0 0x30#8 0x06#8, B 0x1A#8 0 0 0x20#8 0x03#8, B 0x1E#8 0 0 0 0], 0xFF8000#24) := by decide
/-- L9, L10. -/
theorem test_setcolor_range : after id (exec (.setcolor 0 0xFFFFFF#24) ready) = some ready
    ∧ after id (exec (.setcolor 5 0xFFFFFF#24) ready) = some ready := by decide
/-- L20: SETALL blue at brightness 128: only channels 6, 9, 12, 15 are lit. -/
theorem test_setall : after (fun t => (t.trace.length, t.led .u4, t.chOff[6], t.chOff[15], t.chOff[14]))
    (exec (.setall 0x0000FF#24) { ready with brightness := 128#8 })
    = some (12, 0x0000FF#24, some 0x7F0#12, some 0x7F0#12, some 0#12) := by decide
/-- P1, word 3: a refresh of unit 1 at 128. -/
theorem test_setbright : after (fun t => (t.trace.take 4, t.brightness))
    (exec (.setbright 128) { ready with ledColor := ready.ledColor.set 0 0x76C7F0#24 })
    = some ([B 0x16#8 0 0 0xB0#8 0x03#8, B 0x1A#8 0 0 0x30#8 0x06#8, B 0x1E#8 0 0 0x80#8 0x07#8,
        B 0x22#8 0 0 0 0], 128#8) := by decide
/-- L13, L16, L18: the clamp. -/
theorem test_setbright_clamp : after State.brightness (exec (.setbright (-1)) ready) = some 0#8
    ∧ after State.brightness (exec (.setbright 256) ready) = some 255#8
    ∧ after State.brightness (exec (.setbright (-32768)) ready) = some 0#8 := by decide
/-- G4, on a block just reset. -/
theorem test_rgb : after (fun t => (t.result, t.status, t.initialized)) (exec (.rgb 256#10 257#10 1023#10) fresh)
    = some (some 0x0001FF#24, 0x10#8, false) := by decide
/-- H13, H8. -/
theorem test_hsl : after State.result (exec (.hsl 200 80 70) fresh) = some (some 0x76C7F0#24)
    ∧ after State.result (exec (.hsl 359 99 50) fresh) = some (some 0xFE0105#24) := by decide
/-- H23, H24, H26: wrap and clamps. -/
theorem test_hsl_normalise : after State.result (exec (.hsl 65535 99 50) fresh) = some (some 0xFE4001#24)
    ∧ after State.result (exec (.hsl 45 127 127) fresh) = some (some 0xFFFDFA#24)
    ∧ after State.result (exec (.hsl 45 50 (-128)) fresh) = some (some 0x000000#24) := by decide

/-! ### The motor engine -/

/-- M4: unit 2 is mirrored. -/
theorem test_run : after State.trace (exec (.run 2 100) ready)
    = some [B 0x0E#8 0 0 0 0, B 0x12#8 0 0 0x40#8 0x06#8] := by decide
/-- M20 saturates, M22 is a no-op. -/
theorem test_run_edges : after State.trace (exec (.run 2 (-32768)) ready)
    = some [B 0x0E#8 0 0 0xFF#8 0x0F#8, B 0x12#8 0 0 0 0] ∧ after id (exec (.run 3 100) ready) = some ready := by decide
/-- M24. -/
theorem test_rundual : after State.trace (exec (.rundual 100 (-50)) ready)
    = some [B 0x06#8 0 0 0x40#8 0x06#8, B 0x0A#8 0 0 0 0, B 0x0E#8 0 0 0x20#8 0x03#8, B 0x12#8 0 0 0 0] := by decide
/-- M25. -/
theorem test_move : after State.trace (exec (.move 200) ready)
    = some [B 0x06#8 0 0 0x80#8 0x0C#8, B 0x0A#8 0 0 0 0, B 0x0E#8 0 0 0 0, B 0x12#8 0 0 0x80#8 0x0C#8] := by decide
/-- M26, M27. -/
theorem test_stop : after State.trace (exec (.stop 2) ready) = some [B 0x0E#8 0 0 0 0, B 0x12#8 0 0 0 0]
    ∧ after id (exec (.stop 0) ready) = some ready := by decide
/-- M28. -/
theorem test_stopall : after State.trace (exec .stopall { ready with chOff := ready.chOff.set 0 (some 0xC80#12) })
    = some [B 0x06#8 0 0 0 0, B 0x0A#8 0 0 0 0, B 0x0E#8 0 0 0 0, B 0x12#8 0 0 0 0] := by decide

/-! ### Faults, steps and reset -/

/-- X3: the fourth transaction of the lazy set-up fails. -/
theorem test_bus_error_in_setup :
    after (fun t => (t.trace, t.faultCmd, t.status, t.chOff[0]))
      (exec (.run 1 100) { fresh with busScript := good 3 0x00#8 ++ [bad] })
    = some ([W 0x00#8 0x00#8, .read 0x40#7 0x00#8 (some 0x00#8), W 0x00#8 0x10#8, .write 0x40#7 0xFE#8 0x79#8 false],
        some 0x2001000064#40, 0x0E#8, none) := by decide
/-- X4: the second frame of a SETCOLOR fails. -/
theorem test_bus_error_in_frames :
    after (fun t => (t.faultCmd, t.status, t.led .u1))
      (exec (.setcolor 1 0xFF8000#24) { ready with busScript := good 1 0x00#8 ++ [bad] })
      = some (some 0x1001FF8000#40, 0x0F#8, 0xFF8000#24)
    ∧ after (fun t => (t.trace.length, t.chOff[4], t.chOff[5]))
      (exec (.setcolor 1 0xFF8000#24) { ready with busScript := good 1 0x00#8 ++ [bad] })
      = some (2, some 0xFF0#12, some 0#12) := by decide
/-- A failed read returns no byte (60_exceptions.md R223). -/
theorem test_failed_read : after State.trace (exec (.setfreq 50) { ready with busScript := [bad] })
    = some [.read 0x40#7 0x00#8 none] := by decide
/-- E14: an illegal word; the cursor stays. -/
theorem test_step_illegal : after (fun t => (t.fault, t.faultCmd, t.cursor, t.status)) (step (withWord 0#40 ready))
    = some (some .illegalCommand, some 0#40, 0, 0x07#8) := by decide
/-- A command that completes: the cursor advances by 1 (10_state.md R21). -/
theorem test_step_advances : after State.cursor (step (withWord 0x2001000064#40 ready)) = some 1 := by decide
/-- X5: a faulted block does nothing, not even INIT. -/
theorem test_step_faulted : after (fun t => (t.trace, t.initialized, t.fault))
    (step (withWord 0x0100000000#40 { fresh with fault := some .freqRange, faultCmd := some 0x0200000017#40 }))
    = some ([], false, some .freqRange) := by decide
/-- 70_reset_and_hazards.md R250: reset clears a fault. -/
theorem test_step_reset : after (fun t => (t.fault, t.faultCmd, t.initialized, t.status))
    (step { ready with fault := some .busError, faultCmd := some 1#40, resetInput := true })
    = some (none, none, false, 0x00#8) := by decide
/-- The word placed runs as the first command after reset, whatever the free parameters are. -/
theorem test_fetch_word : after State.result (step (State.reset.withFetchWord 40 0x13100407FF))
    = some (some 0x0001FF#24) := by decide

/-! ### Witnesses: concrete values that meet the hypotheses of each obligation -/

/-- For DecodeOfEncode: every numeric operand at an end of its range. -/
theorem witness_DecodeOfEncode : (Instr.setfreq 65535).wellFormed = true
    ∧ (Instr.setch 255 0xFFF#12 0#12).wellFormed = true ∧ (Instr.setcolor 255 0#24).wellFormed = true
    ∧ (Instr.setbright (-32768)).wellFormed = true ∧ (Instr.hsl 65535 127 (-128)).wellFormed = true
    ∧ (Instr.run 255 32767).wellFormed = true ∧ (Instr.rundual (-32768) 32767).wellFormed = true
    ∧ (Instr.stop 255).wellFormed = true := by decide
theorem witness_EncodeOfDecode : decode 0x23FF000000#40 = .instr (.stop 255) := by decide
theorem witness_WordEncodesRow : (⟨.stop, 0x23#8, 0x2300000000#40, 0xFF00FFFFFF#40⟩ : OpcodeRow) ∈ opcodeTable
    ∧ 0x23FF000000#40 &&& 0xFF00FFFFFF#40 = 0x2300000000#40 := by decide
/-- For LinesAssembleAsSpelled, first clause: the greatest motor number in hexadecimal, the least speed in decimal,
with white space and a comment. -/
theorem witness_LinesAssembleAsSpelled : (Instr.run 255 (-32768)).wellFormed = true
    ∧ List.Forall₂ (fun (fv : FieldRange × Int) text => NumberText fv.1.signed text fv.2)
      ((fieldRanges .run).zip (operandValues (.run 255 (-32768)))) ["0xFF".toList, "-32768".toList]
    ∧ SpellsLine (mnemonicOf .run) ["0xFF".toList, "-32768".toList] " RUN 0xFF, -32768 ; back".toList := by
  refine ⟨by decide, .cons ?_ (.cons ?_ .nil), [' '], " 0xFF, -32768 ".toList, "; back".toList, by simp [Blanks],
    .inr ⟨_, rfl⟩, rfl, .inr ⟨' ', "0xFF, -32768 ".toList, by simp [Blanks], rfl, ?_⟩⟩
  · exact .inl ⟨255, rfl, .inr ⟨[15, 15], true, by decide, by decide, rfl, rfl⟩⟩
  · exact .inr ⟨rfl, 32768, "32768".toList, rfl, rfl, [3, 2, 7, 6, 8], by decide, by decide, rfl, rfl⟩
  · exact .more [] "0xFF".toList [] _ " -32768 ".toList (by simp [Blanks]) (by simp [Blanks])
      (.one [' '] "-32768".toList [' '] (by simp [Blanks]) (by simp [Blanks]))
/-- Second clause: 256 is no motor; third clause: a line that assembles. -/
theorem witness_LinesAssembleAsSpelled_errors :
    List.Forall₂ (fun v text => NumberText true text v) [(256 : Int)] ["256".toList]
    ∧ ¬ List.Forall₂ (fun (r : FieldRange) v => r.lo ≤ v ∧ v ≤ r.hi) (fieldRanges .stop) [256]
    ∧ SpellsLine (mnemonicOf .stop) ["256".toList] "STOP 256".toList
    ∧ assembleLine "STOP 0xFF".toList = .command (.stop 255) 0x23FF000000#40 := by
  refine ⟨.cons (.inl ⟨256, rfl, .inl ⟨[2, 5, 6], by decide, by decide, rfl, rfl⟩⟩) .nil, ?_, ?_, by decide⟩
  · rintro (_ | ⟨⟨_, h⟩, _⟩)
    exact absurd h (by decide)
  · exact ⟨[], " 256".toList, [], by simp [Blanks], .inl rfl, rfl, .inr ⟨' ', "256".toList, by simp [Blanks], rfl,
      .one [] _ [] (by simp [Blanks]) (by simp [Blanks])⟩⟩
theorem witness_StepRunsDecodedCommand : (withWord 0x2400000000#40 ready).resetInput = false
    ∧ (withWord 0x2400000000#40 ready).fault = none
    ∧ (withWord 0x2400000000#40 ready).program[(withWord 0x2400000000#40 ready).cursor]? = some 0x2400000000#40
    ∧ decode 0x2400000000#40 = .instr .stopall ∧ ∃ t, exec .stopall (withWord 0x2400000000#40 ready) = .next t :=
  ⟨rfl, rfl, rfl, by decide, exec_next _ _⟩
theorem witness_IllegalWordOnlyRecordsFault : (withWord 0#40 ready).resetInput = false
    ∧ (withWord 0#40 ready).fault = none
    ∧ (withWord 0#40 ready).program[(withWord 0#40 ready).cursor]? = some 0#40
    ∧ decode 0#40 = .illegal .unassignedOpcode := by decide

/-- A faulted block. -/
def faulted : State := { ready with fault := some .busError, faultCmd := some 0x2400000000#40 }

/-- For FaultedBlockAcceptsNothing and FaultedRunStaysPut. -/
theorem witness_Faulted : faulted.resetInput = false ∧ faulted.fault ≠ none := by decide
theorem witness_IdleBlockWaits : ready.resetInput = false ∧ ready.program[ready.cursor]? = none := by decide
theorem witness_ResetRestoresBlockState : { faulted with resetInput := true }.resetInput = true := by decide

/-- For FaultRaisedOnlyForItsReason and RegisterWriters: a word of each kind, a step from each; the cause raised. -/
theorem witness_FaultRaisedOnlyForItsReason :
    after State.fault (step (withWord 0x0100000001#40 ready)) = some (some .illegalCommand)
    ∧ after State.fault (step (withWord 0x0200000017#40 ready)) = some (some .freqRange)
    ∧ after State.fault (step (withWord 0x2400000000#40 { ready with busScript := [bad] })) = some (some .busError)
    ∧ after State.fault (step (withWord 0x0200000018#40 ready)) = some none := by decide
theorem witness_BusFailureStopsCommandThere : ready.fault = none
    ∧ after State.fault (exec .stopall { ready with busScript := [bad] }) = some (some .busError)
    ∧ after State.fault (exec .stopall ready) = some none := by decide
theorem witness_GoodBusMeansNoFault : fresh.fault = none ∧ runsSetup (.setfreq 24) = true ∧ fresh.initialized = false
    ∧ busCost (.setfreq 24) = 5 ∧ AnswersOk (5 + 22) fresh := by decide

/-- For PrescaleIsNearestInteger and PrescaleFitsByteExactlyInRange: the values next to both ends of the range. -/
theorem witness_Prescale : prescale 23 = 264 ∧ prescale 24 = 253 ∧ prescale 12207 = 0 ∧ prescale 12208 = -1 := by decide
/-- For SetfreqRunsSequence and the other driver statements on an initialised block. -/
theorem witness_ReadyDriver : ready.initialized = true ∧ ready.fault = none ∧ AnswersOk 12 ready := by decide
theorem witness_SetfreqOutOfRangeFaults : (23 < 24 ∨ 12207 < 23) ∧ (12208 < 24 ∨ 12207 < 12208) ∧ ready.fault = none := by
  decide
theorem witness_InitProgramsWholeChip : fresh.initialized = false ∧ fresh.fault = none ∧ AnswersOk 22 fresh := by decide
theorem witness_SetchProgramsChannel : 15 < 16 ∧ 0 < 16 ∧ ready.initialized = true ∧ AnswersOk 1 ready := by decide
/-- The out-of-range numbers next to the ranges. -/
theorem witness_OutOfRangeIndexIsNoOp : 15 < 16 ∧ (0 < 1 ∨ 4 < 0) ∧ (5 < 1 ∨ 4 < 5) ∧ (0 < 1 ∨ 2 < 0)
    ∧ (3 < 1 ∨ 2 < 3) := by decide
/-- A set-up that completes, and one that fails. -/
theorem witness_LazySetupComesFirst : runsSetup .stopall = true ∧ fresh.initialized = false ∧ fresh.fault = none
    ∧ after State.fault (exec .init fresh) = some none
    ∧ after State.fault (exec .init { fresh with busScript := [bad] }) = some (some .busError) := by decide
/-- Parameters that meet 00_scope.md R7, for FrameAddressesStayApart and every statement that assumes them. -/
theorem witness_Params : Params.default.valid = true ∧ (0 : Fin 16) ≠ 15 := by decide
/-- For SleepBitLeftAsRead: both clauses, SETFREQ at each end of its range. -/
theorem witness_SleepBitLeftAsRead : Params.default.valid = true
    ∧ Params.default.wakeMask &&& Params.default.sleepMask = 0#8
    ∧ ready.params = Params.default ∧ ready.fault = none ∧ ready.initialized = true ∧ AnswersOk 5 ready
    ∧ (24 ≤ 24 ∧ 24 ≤ 12207) ∧ (24 ≤ 12207 ∧ 12207 ≤ 12207)
    ∧ fresh.params = Params.default ∧ fresh.fault = none ∧ fresh.initialized = false ∧ AnswersOk 22 fresh := by decide
/-- The mode writes of F1 and T1, taken from their traces. -/
theorem test_mode_writes : after (fun t => modeWrites t.params t.trace) (exec (.setfreq 100) ready)
      = some [0xB0#8, 0xA0#8, 0xA0#8]
    ∧ after (fun t => modeWrites t.params t.trace) (exec .init fresh) = some [0x00#8, 0x10#8, 0x00#8, 0xA0#8] := by
  decide
/-- For BrightnessScaling: the clauses at 255, 254 and 0 (L6, L7, L8). -/
theorem witness_BrightnessScaling : scale 0xFF#8 255#8 = 255 ∧ scale 0xFF#8 254#8 = 253 ∧ scale 0xFF#8 0#8 = 0 := by
  decide
/-- For SetcolorDrivesUnit, SetallDrivesEveryUnit, SetallEqualsFourSetcolors, SetbrightRefreshesEveryUnit,
RunAndStopDriveUnit and DualCommandsDriveBothUnits. -/
theorem witness_ReadyEngines : ready.initialized = true ∧ ready.fault = none ∧ AnswersOk 3 ready ∧ AnswersOk 12 ready
    ∧ AnswersOk 2 ready ∧ AnswersOk 4 ready := by decide
/-- For SetcolorLeavesDuties: also at brightness 255. -/
theorem witness_SetcolorLeavesDuties : ready.params.valid = true ∧ ready.initialized = true ∧ ready.fault = none
    ∧ AnswersOk 3 ready ∧ ready.brightness = 255#8 := by decide
/-- The clauses of HslHueWrapsOthersClamp and HslGreyAndBlack at their boundaries. -/
theorem witness_HslClauses : (-1 : Int) < 0 ∧ (99 : Int) < 100 ∧ (0 : Int) ≤ 0 := by decide
/-- The largest normalised inputs of HslComponentsFitByte (H21 has its largest component at 99, 99). -/
theorem witness_HslComponentsFitByte : 359 < 360 ∧ 99 ≤ 99 ∧ (hslComponents 0 99 99).1 = 255 := by decide
/-- The clauses of MotorDutyMapping where they meet: M9, M12, M10, M13. -/
theorem witness_MotorDutyMapping : motorDuty .m1 255 = 4080 ∧ motorDuty .m1 256 = 4095
    ∧ motorDuty .m1 (-255) = -4080 ∧ motorDuty .m1 (-256) = -4095 := by decide
theorem witness_MotorCommandsDefinedByOthers : ready.fault = none ∧ (∃ t, exec (.move 7) ready = .next t)
    ∧ (∃ t, exec (.rundual 7 7) ready = .next t) ∧ (∃ t, exec (.stop 2) ready = .next t)
    ∧ (∃ t, exec (.run 2 0) ready = .next t) :=
  ⟨rfl, exec_next _ _, exec_next _ _, exec_next _ _, exec_next _ _⟩
theorem witness_NoStaleMotorDuty : ready.params.valid = true ∧ ready.fault = none
    ∧ after State.fault (exec (.run 1 256) ready) = some none ∧ after State.fault (exec (.stop 2) ready) = some none
    ∧ after State.fault (exec (.rundual 1 (-1)) ready) = some none := by decide
/-- For the three frame statements, CommandCosts and ParametersFixedTraceGrows: commands that run through. -/
theorem witness_Frames : ready.initialized = true ∧ ready.fault = none
    ∧ after State.fault (exec (.setch 15 0#12 1#12) ready) = some none
    ∧ after State.fault (exec (.setall 0xFFFFFF#24) ready) = some none
    ∧ after State.fault (exec (.move 1) ready) = some none := by decide
/-- For InitializedSetBySetupOnly: a step that sets the flag, on a free run of the block. -/
theorem witness_InitializedSetBySetupOnly : fresh.resetInput = false ∧ fresh.initialized = false
    ∧ after State.initialized (step (withWord 0x0100000000#40 fresh)) = some true
    ∧ fresh.fault = none ∧ AnswersOk 22 fresh ∧ decode 0x0100000000#40 = .instr .init ∧ runsSetup .init = true := by decide
/-- For RegisterWriters: each of the three kinds of register does change. -/
theorem witness_RegisterWriters : after State.brightness (step (withWord 0x1200000080#40 ready)) = some 128#8
    ∧ after (fun t => t.led .u1) (step (withWord 0x1001FF8000#40 ready)) = some 0xFF8000#24
    ∧ after State.result (step (withWord 0x1300000000#40 ready)) = some (some 0#24) := by decide

/-- An initialised block whose bus fails transaction number `k` and none before it. -/
def failingAt (k : Nat) : State := { ready with busScript := good k 0x00#8 ++ [bad] }

/-- For LedBusFailureKeepsEarlierWrites: the first and the last frame of each command, at its own brightness. -/
theorem witness_LedBusFailureKeepsEarlierWrites : FailsFirstAt 0 (failingAt 0) ∧ FailsFirstAt 2 (failingAt 2)
    ∧ FailsFirstAt 11 (failingAt 11) ∧ (failingAt 11).initialized = true ∧ (failingAt 11).fault = none
    ∧ (ledFrames Params.default 255#8 0xFF8000#24 .u1)[2]?.isSome = true
    ∧ ([LedUnit.u1, .u2, .u3, .u4].flatMap (ledFrames Params.default 255#8 0xFF8000#24))[11]?.isSome = true := by decide
/-- D33: a SETALL that fails at unit 2's first frame has stored the colour in units 1 and 2 only. -/
theorem test_setall_fails_midway :
    after (fun t => (t.led .u1, t.led .u2, t.led .u3, t.trace.length)) (exec (.setall 0xFF8000#24) (failingAt 3))
      = some (0xFF8000#24, 0xFF8000#24, 0x000000#24, 4) := by decide
/-- R154: the clamped value is stored although the first frame fails. -/
theorem test_setbright_fails : after (fun t => (t.brightness, t.status)) (exec (.setbright 300) { failingAt 0 with brightness := 7#8 })
      = some (255#8, 0x0F#8) := by decide
/-- For ChannelBusFailureKeepsEarlierFrames: the first and the last frame of the commands. -/
theorem witness_ChannelBusFailureKeepsEarlierFrames : FailsFirstAt 0 (failingAt 0) ∧ FailsFirstAt 3 (failingAt 3)
    ∧ (failingAt 3).initialized = true ∧ (failingAt 3).fault = none
    ∧ (motorFrames Params.default .m1 100)[0]?.isSome = true ∧ (motorFrames Params.default .m2 0)[1]?.isSome = true
    ∧ (motorFrames Params.default .m1 1 ++ motorFrames Params.default .m2 (-1))[3]?.isSome = true := by decide

/-- A block that has sent one frame on channel 15 and recorded it; then a SETALL ran into a bus failure. -/
def recorded : State :=
  { fresh with
    chOn := fresh.chOn.set 15 (some 0xABC#12)
    chOff := fresh.chOff.set 15 (some 0xDEF#12)
    fault := some .busError
    faultCmd := some 0x1100000000#40
    trace := [W 0x00#8 0x10#8, W 0xFE#8 0x79#8, B 0x42#8 0xBC#8 0x0A#8 0xEF#8 0x0D#8, .write 0x40#7 0x00#8 0#8 false] }

/-- The premises of the six invariants and of the steps they speak of, on a state with a trace. -/
theorem witness_Invariants : ShadowsRecordTrace recorded ∧ PrescaleOnlyAsleep recorded ∧ TracePrecise recorded
    ∧ SetupRecorded recorded ∧ FaultRecordFits recorded ∧ recorded.params.valid = true := by
  refine ⟨by decide, by decide, ⟨by decide, ?_⟩, by decide, by decide, by decide⟩
  exact ⟨fun _ => ⟨_, rfl, rfl⟩, fun _ => rfl⟩
/-- Every event of that trace is in the register map. -/
theorem witness_TraceInMapKept : TraceInMap recorded := by
  intro e he
  simp only [recorded, W, B, List.mem_cons, List.not_mem_nil, or_false] at he
  rcases he with rfl | rfl | rfl | rfl
  · exact ⟨rfl, .inl rfl⟩
  · exact ⟨rfl, .inr ⟨rfl, by decide⟩⟩
  · exact ⟨rfl, ⟨15, 0xABC#12, 0xDEF#12⟩, by decide⟩
  · exact ⟨rfl, .inl rfl⟩
/-- Each of those states has a next one. -/
theorem witness_step : ∃ t, step recorded = .next t := ⟨_, rfl⟩

end Sys2Proof.Machine.Tests
end

/-! PROOFS. The statements of spec/00_scope.md: what a step does with the presented word (R8), where a failing bus
stops a command (R15), and that the frame addresses stay apart (R7). -/

namespace Sys2Proof.Machine

/-! ### A presented command -/

/-- On an unfaulted block with the reset input low, a presented command runs and the host's cursor follows
(00_scope.md R8, 10_state.md R21). -/
theorem step_of_presented_instr {s t : State} {w : Command} {i : Instr} (hr : s.resetInput = false)
    (hf : s.fault = none) (hw : presentedWord s = some w) (hd : decode w = .instr i) (hx : exec i s = .next t) :
    step s = .next (advanceCursor t) := by
  simp [step, hr, hf, hw, hd, hx]

/-- Settles O7: the cursor rule of 10_state.md R21, by whether the command raised a fault. -/
theorem stepRunsDecodedCommand : Obligations.StepRunsDecodedCommand := by
  intro s t w i hr hf hw hd hx
  rw [step_of_presented_instr hr hf hw hd hx]
  by_cases ht : t.fault = none
  · rw [advanceCursor_of_noFault ht, if_pos ht]
  · rw [advanceCursor_of_faulted (Option.isSome_iff_ne_none.mpr ht), if_neg ht]

/-! ### Frame addresses -/

/-- Under 00_scope.md R7 (a) the address of a channel's first register does not wrap (20_memory.md R52). -/
theorem frameAddr_toNat {p : Params} (h : p.regBase.toNat + 63 ≤ 255) (c : Fin 16) :
    (frameAddr p c).toNat = p.regBase.toNat + 4 * c.val := by
  have hc := c.isLt
  rw [frameAddr, BitVec.toNat_add, BitVec.toNat_ofNat]
  omega

/-- Settles O27: every address is `REG_BASE + 4c + k` on naturals, and two channels lie at least 4 apart. -/
theorem frameAddressesStayApart : Obligations.FrameAddressesStayApart := by
  intro p hp c
  obtain ⟨hbase, hmode, hprescale, -⟩ := (valid_iff p).mp hp
  have hc := c.isLt
  rw [frameAddr_toNat hbase c]
  refine ⟨rfl, fun k hk => ⟨by omega, by omega, by omega, fun d j hj hdc => ?_⟩⟩
  rw [frameAddr_toNat hbase d]
  have : d.val ≠ c.val := Fin.val_ne_of_ne hdc
  omega

/-! ### Where a failing bus stops a command -/

/-- A command begun at `s` is still running at `t`: nothing has been raised, every event since `s` succeeded and
each transaction among them used one bus answer. -/
def AllSucceeded (s t : State) : Prop :=
  t.params = s.params ∧ t.fault = none ∧ ∃ evs, t.trace = s.trace ++ evs
    ∧ t.drawCount = s.drawCount + transactions evs ∧ ∀ e ∈ evs, e.ok = true

/-- How the command with word `cmd`, begun at `s`, ends: a `BusError` records its word and its failed transaction is
its last event; without one every event since `s` succeeded (00_scope.md R15, 60_exceptions.md R223, R224). -/
def EndsAtFailure (cmd : Command) (s t : State) : Prop :=
  ∃ evs, t.trace = s.trace ++ evs
    ∧ t.drawCount = s.drawCount + transactions evs
    ∧ (t.fault = some .busError →
        t.faultCmd = some cmd
        ∧ ∃ before last, evs = before ++ [last] ∧ last.ok = false ∧ ∀ e ∈ before, e.ok = true)
    ∧ (t.fault ≠ some .busError → ∀ e ∈ evs, e.ok = true)

/-- A transaction counts for one, whatever came before it. -/
theorem transactions_concat {e : Event} (he : e.isTransaction = true) (evs : List Event) :
    transactions (evs ++ [e]) = transactions evs + 1 := by
  simp [transactions, he]

namespace AllSucceeded
variable {s t : State}

theorem refl (h : s.fault = none) : AllSucceeded s s :=
  ⟨rfl, h, [], by simp, rfl, by simp⟩

theorem endsAtFailure (cmd : Command) (h : AllSucceeded s t) : EndsAtFailure cmd s t := by
  obtain ⟨_, hf, evs, htr, hdraw, hok⟩ := h
  exact ⟨evs, htr, hdraw, by simp [hf], fun _ => hok⟩

/-- Only the parameters, the fault, the trace and the number of answers used are spoken of. -/
theorem congr {u : State} (h : AllSucceeded s t) (hp : u.params = t.params) (hf : u.fault = t.fault)
    (htr : u.trace = t.trace) (hd : u.drawCount = t.drawCount) : AllSucceeded s u := by
  unfold AllSucceeded
  rw [hp, hf, htr, hd]
  exact h

/-- A delay is an event that succeeds and uses no answer (00_scope.md R14). -/
theorem emit_delay (h : AllSucceeded s t) (us : Nat) : AllSucceeded s (emit (.delay us) t) := by
  obtain ⟨hp, hf, evs, htr, hdraw, hok⟩ := h
  refine ⟨hp, hf, evs ++ [.delay us], by simp [htr], ?_, ?_⟩
  · rw [emit_drawCount, hdraw, transactions_append]; rfl
  · exact List.forall_mem_append.mpr ⟨hok, List.forall_mem_singleton.mpr rfl⟩

/-- One transaction, with the status its event carries: on `ok` all has still succeeded, on `fail` the command ends
with this event (60_exceptions.md R223). -/
theorem transaction_sat (h : AllSucceeded s t) (cmd : Command) {e : Event} {ok : Bool} (he : e.isTransaction = true)
    (hst : e.ok = ok) : (checkStatus cmd ok (emit e (takeAnswers 1 t))).sat (AllSucceeded s) (EndsAtFailure cmd s) := by
  subst hst
  obtain ⟨hp, hf, evs, htr, hdraw, hok⟩ := h
  have htrace : (emit e (takeAnswers 1 t)).trace = s.trace ++ (evs ++ [e]) := by simp [htr]
  have hdraws : (emit e (takeAnswers 1 t)).drawCount = s.drawCount + transactions (evs ++ [e]) := by
    rw [transactions_concat he, emit_drawCount, takeAnswers_drawCount, hdraw, Nat.add_assoc]
  cases hst : e.ok with
  | true =>
    exact ⟨hp, hf, evs ++ [e], htrace, hdraws,
      List.forall_mem_append.mpr ⟨hok, List.forall_mem_singleton.mpr hst⟩⟩
  | false =>
    rw [checkStatus_false, raiseFault_of_noFault _ _ (by simpa using hf)]
    exact ⟨evs ++ [e], htrace, hdraws, fun _ => ⟨rfl, evs, e, rfl, hst, hok⟩, fun hne => absurd rfl hne⟩

theorem memWrite1_sat (h : AllSucceeded s t) (cmd : Command) (reg v : Byte) :
    (memWrite1 cmd reg v t).sat (AllSucceeded s) (EndsAtFailure cmd s) :=
  h.transaction_sat cmd rfl rfl

theorem memRead_sat (h : AllSucceeded s t) (cmd : Command) (reg : Byte) {k : Byte → State → Flow}
    (hk : ∀ byte u, AllSucceeded s u → (k byte u).sat (AllSucceeded s) (EndsAtFailure cmd s)) :
    (memRead cmd reg k t).sat (AllSucceeded s) (EndsAtFailure cmd s) := by
  refine Flow.andThen_sat (h.transaction_sat cmd rfl ?_) (hk _)
  cases hok : (answerAt t 0).ok <;> rfl

theorem uSetch_sat (h : AllSucceeded s t) (cmd : Command) (c : Fin 16) (on off : Tick) :
    (uSetch cmd c on off t).sat (AllSucceeded s) (EndsAtFailure cmd s) := by
  rw [uSetch, dif_pos c.isLt]
  exact Flow.andThen_sat (h.transaction_sat cmd rfl rfl) fun _ hu => hu.congr rfl rfl rfl rfl

theorem uSetfreq_sat (h : AllSucceeded s t) (cmd : Command) (hz : Nat) :
    (uSetfreq cmd hz t).sat (AllSucceeded s) (EndsAtFailure cmd s) :=
  h.memRead_sat cmd _ fun _ _ h1 =>
    Flow.andThen_sat (h1.memWrite1_sat cmd _ _) fun _ h2 =>
    Flow.andThen_sat (h2.memWrite1_sat cmd _ _) fun _ h3 =>
    Flow.andThen_sat (h3.memWrite1_sat cmd _ _) fun _ h4 =>
    (h4.emit_delay _).memWrite1_sat cmd _ _

/-- The bus work of every command keeps the account of its events. -/
theorem busSat (i : Instr) (s : State) :
    BusSat i s.params (AllSucceeded s) (AllSucceeded s) (EndsAtFailure (encode i) s) where
  params _ h := h.1
  init := uInit_sat (fun _ h => h.memWrite1_sat _ _ _) (fun _ h => h.uSetfreq_sat _ _)
    (fun c on off _ h => h.uSetch_sat _ c on off) fun _ h => h.congr rfl rfl rfl rfl
  freq hz _ _ _ h := h.uSetfreq_sat _ hz
  frame c on off _ _ h := h.uSetch_sat _ c on off
  led _ _ _ _ h := h.congr rfl rfl rfl rfl
  bright _ _ _ h := h.congr rfl rfl rfl rfl

end AllSucceeded

/-- A frequency out of range raises its fault before any event (40_pwm_driver.md R128). -/
theorem endsAtFailure_freqRange (cmd : Command) {s : State} (h : s.fault = none) :
    EndsAtFailure cmd s (raiseFault .freqRange cmd s) := by
  rw [raiseFault_of_noFault _ _ h]
  exact ⟨[], by simp, rfl, by simp, by simp⟩

/-- Settles O16: `AllSucceeded` holds at the start and through every operation of the command, and the operation
whose transaction fails ends it (`AllSucceeded.transaction_sat`). -/
theorem busFailureStopsCommandThere : Obligations.BusFailureStopsCommandThere := by
  intro i s t hf hx
  have hs := AllSucceeded.refl hf
  exact exec_keeps (I := EndsAtFailure (encode i) s) hx hs
    (fun _ h => h.endsAtFailure _) (fun _ h => h.endsAtFailure _) (fun _ => AllSucceeded.busSat i s)
    (fun _ _ _ => endsAtFailure_freqRange _ hf)
    (fun _ _ _ _ _ => hs.congr rfl rfl rfl rfl) (fun _ _ _ _ _ => hs.congr rfl rfl rfl rfl)

end Sys2Proof.Machine

/-! PROOFS. The statements of spec/10_state.md: the state after reset (R37), the status view (R26), which commands
write which register (R24, R27, R28, R33), the fixed parameters (R34), and what the shadow registers record (R31,
R32). -/

namespace Sys2Proof.Machine

/-! ### The state after reset -/

@[simp] theorem reset_chOn_getElem (c : Fin 16) : State.reset.chOn[c] = none := by simp [State.reset]
@[simp] theorem reset_chOff_getElem (c : Fin 16) : State.reset.chOff[c] = none := by simp [State.reset]
@[simp] theorem reset_led (u : LedUnit) : State.reset.led u = 0x000000#24 := by cases u <;> rfl

/-- Settles O13: each register holds its value of 10_state.md R37. -/
theorem stateAfterReset : Obligations.StateAfterReset :=
  ⟨rfl, rfl, reset_led, fun c => ⟨reset_chOn_getElem c, reset_chOff_getElem c⟩, rfl, rfl, rfl, rfl⟩

/-! ### The status view -/

/-- The fields of the status byte, one above the other (10_state.md R26). -/
theorem status_getLsbD (s : State) (k : Nat) : s.status.getLsbD k =
    if k < 1 then (BitVec.ofBool s.initialized).getLsbD k
    else if k < 2 then (BitVec.ofBool s.fault.isSome).getLsbD (k - 1)
    else if k < 4 then (causeCode s.fault).getLsbD (k - 2)
    else (BitVec.ofBool s.result.isSome).getLsbD (k - 4) := by
  change BitVec.getLsbD (0#3 ++ BitVec.ofBool s.result.isSome ++ causeCode s.fault
    ++ BitVec.ofBool s.fault.isSome ++ BitVec.ofBool s.initialized) k = _
  simp only [BitVec.getLsbD_append, BitVec.getLsbD_zero, Nat.sub_sub]
  grind

/-- `STATUS[0]` shows the flag (10_state.md R26). -/
theorem status_getLsbD_zero (s : State) : s.status.getLsbD 0 = s.initialized := by
  rw [status_getLsbD]; simp

/-- Settles O14: the fields of the status byte, read bit by bit. -/
theorem statusViewBits : Obligations.StatusViewBits := by
  intro s
  refine ⟨status_getLsbD_zero s, ?_, ?_, ?_, ?_⟩
  · rw [status_getLsbD]; simp
  · change _ = causeCode s.fault
    ext i hi
    rw [BitVec.getElem_extractLsb', status_getLsbD]
    interval_cases i <;> simp
  · rw [status_getLsbD]; simp
  · ext i hi
    rw [BitVec.getElem_extractLsb', status_getLsbD]
    interval_cases i <;> simp

/-! ### Steps without a reset -/

/-- A step with the reset input high is the reset (70_reset_and_hazards.md R250). -/
theorem step_of_reset {s : State} (hr : s.resetInput = true) : step s = .next (hostReset s) := by
  simp [step, hr]

/-- Everything a step that is no reset does to the block: an unfaulted block runs the command presented, if one is,
and else nothing but the two fault registers may be written. -/
theorem step_cases_noReset {s t : State} (hr : s.resetInput = false) (ht : step s = .next t) :
    (∃ w i u, presentedWord s = some w ∧ decode w = .instr i ∧ exec i s = .next u ∧ t = advanceCursor u)
    ∨ ((∀ w i, s.fault = none → presentedWord s = some w → decode w ≠ .instr i)
      ∧ ∃ cause cmd, t = { s with fault := cause, faultCmd := cmd }) := by
  rcases step_cases s with ⟨hr', _⟩ | ⟨_, hf, h⟩ | ⟨_, _, hw, h⟩ | ⟨_, _, w, e, hw, hd, h⟩
      | ⟨_, _, w, i, u, hw, hd, hx, h⟩
  · simp [hr] at hr'
  all_goals rw [h] at ht; injection ht with ht; subst ht
  · exact .inr ⟨fun _ _ hn => by simp [hn] at hf, s.fault, s.faultCmd, rfl⟩
  · exact .inr ⟨fun _ _ _ hw' => by simp [hw] at hw', s.fault, s.faultCmd, rfl⟩
  · exact .inr ⟨fun _ _ _ hw' => by cases hw.symm.trans hw'; simp [hd], some .illegalCommand, some w, rfl⟩
  · exact .inl ⟨w, i, u, hw, hd, hx, rfl⟩

/-! ### The parameters and the trace -/

/-- From `s` to `t` the parameters stay and the trace only grows (10_state.md R34, 00_scope.md R16). -/
def Extends (s t : State) : Prop := t.params = s.params ∧ ∃ evs, t.trace = s.trace ++ evs

namespace Extends
variable {s t u : State}

theorem refl (s : State) : Extends s s := ⟨rfl, [], by simp⟩

/-- Only the parameters and the trace are spoken of. -/
theorem congr (h : Extends s t) (hp : u.params = t.params) (htr : u.trace = t.trace) : Extends s u :=
  ⟨hp.trans h.1, htr ▸ h.2⟩

/-- One more event. -/
theorem emit (h : Extends s t) (e : Event) : Extends s (emit e t) := by
  obtain ⟨hp, evs, htr⟩ := h
  exact ⟨hp, evs ++ [e], by simp [htr]⟩

theorem closed (cmd : Command) (s : State) : Closed cmd (Extends s) where
  write _ _ _ _ h := (h.congr rfl rfl).emit _
  read _ _ _ h := (h.congr rfl rfl).emit _
  frame _ _ _ h := (h.congr rfl rfl).emit _
  wait _ h := h.emit _
  ticks _ _ _ _ h := h.congr rfl rfl
  initialized _ h := h.congr rfl rfl
  fault _ h := h.congr (by simp) (by simp)

end Extends

/-- No command changes a parameter or takes an event back. -/
theorem exec_extends {i : Instr} {s t : State} (hx : exec i s = .next t) : Extends s t :=
  have h := Extends.refl s
  exec_keeps_closed hx h (Extends.closed _ s) (fun _ _ _ _ h => h.congr rfl rfl) (fun _ _ _ h => h.congr rfl rfl)
    (fun _ _ _ => h.congr (by simp) (by simp)) (fun _ _ _ _ _ => h.congr rfl rfl) (fun _ _ _ _ _ => h.congr rfl rfl)

/-- No step but reset changes a parameter or takes an event back. -/
theorem step_extends {s t : State} (hr : s.resetInput = false) (ht : step s = .next t) : Extends s t := by
  rcases step_cases_noReset hr ht with ⟨w, i, u, _, _, hx, rfl⟩ | ⟨_, cause, cmd, rfl⟩
  · exact (exec_extends hx).congr (by simp) (by simp)
  · exact (Extends.refl s).congr rfl rfl

/-- Settles O49: reset keeps the parameters, every other step extends the state. -/
theorem parametersFixedTraceGrows : Obligations.ParametersFixedTraceGrows := by
  intro s t ht
  cases hr : s.resetInput with
  | true =>
    rw [step_of_reset hr] at ht
    injection ht with ht
    subst ht
    exact ⟨rfl, nofun⟩
  | false =>
    obtain ⟨hp, hgrows⟩ := step_extends hr ht
    exact ⟨hp, fun _ => hgrows⟩

/-! ### The set-up and its flag -/

/-- A command that runs the set-up on an uninitialised block, all 22 transactions answered ok, does what it does
after the set-up (40_pwm_driver.md R121, R126). -/
theorem exec_eq_exec_setupDone {i : Instr} {s : State} (hi : runsSetup i = true) (hs : s.initialized = false)
    (hok : AnswersOk 22 s) : exec i s = exec i (setupDone s) := by
  obtain ⟨work, h⟩ := exec_eq_setup_then_work hi
  rw [h, h, uInit_ok _ hs hok, uInit_of_initialized _ rfl]

/-- The flag is still clear, and where no fault is recorded nothing has been sent since `s`. -/
def SetupNotDone (s t : State) : Prop :=
  t.initialized = false ∧ (t.fault = none → t.trace = s.trace ∧ t.chOn = s.chOn ∧ t.chOff = s.chOff)

/-- A fault was raised before the set-up was done. -/
theorem setupNotDone_of_faulted {s t : State} (ht : t.initialized = false) (hf : t.fault ≠ none) : SetupNotDone s t :=
  ⟨ht, fun h => absurd h hf⟩

/-- A command that does not run the set-up leaves the flag and sends nothing (40_pwm_driver.md R121). -/
theorem exec_of_not_runsSetup {i : Instr} {s t : State} (hi : runsSetup i = false) (hs : s.initialized = false)
    (hx : exec i s = .next t) : SetupNotDone s t :=
  exec_keeps (B := SetupNotDone s) (G := SetupNotDone s) hx ⟨hs, fun _ => ⟨rfl, rfl, rfl⟩⟩
    (fun _ h => h) (fun _ h => h) (fun h => by simp [hi] at h)
    (fun _ _ _ => setupNotDone_of_faulted (by simpa using hs) (raiseFault_fault_ne_none _ _ _))
    (fun _ _ _ _ _ => ⟨hs, fun _ => ⟨rfl, rfl, rfl⟩⟩) (fun _ _ _ _ _ => ⟨hs, fun _ => ⟨rfl, rfl, rfl⟩⟩)

/-- Everything a command can do on an uninitialised block: the whole set-up and then its work as on the initialised
block, or no set-up done (10_state.md R24, 40_pwm_driver.md R126). -/
theorem exec_of_uninitialized {i : Instr} {s t : State} (hs : s.initialized = false) (hx : exec i s = .next t) :
    (AnswersOk 22 s ∧ exec i (setupDone s) = .next t) ∨ SetupNotDone s t := by
  cases hi : runsSetup i with
  | false => exact .inr (exec_of_not_runsSetup hi hs hx)
  | true =>
    rcases uInit_cases (encode i) s with ⟨hs', _⟩ | ⟨_, hok, _⟩ | ⟨_, u, hu, hflag, v, rfl, -⟩
    · simp [hs] at hs'
    · exact .inl ⟨hok, exec_eq_exec_setupDone hi hs hok ▸ hx⟩
    · obtain ⟨work, h⟩ := exec_eq_setup_then_work hi
      rw [h, hu, Flow.stopped_andThen, endCommand_eq_next, Flow.stopped_state] at hx
      exact .inr (setupNotDone_of_faulted (hx ▸ hflag) (hx ▸ raiseFault_fault_ne_none _ _ v))

/-- The set-up has been done: the flag is set and every shadow register is known (10_state.md R24, R32). -/
def SetUp (s : State) : Prop :=
  s.initialized = true ∧ ∀ c : Fin 16, s.chOn[c].isSome = true ∧ s.chOff[c].isSome = true

theorem setUp_setupDone (s : State) : SetUp (setupDone s) :=
  ⟨rfl, fun c => by simp [setupDone]⟩

namespace SetUp
variable {s t : State}

/-- Only the flag and the shadow registers are spoken of. -/
theorem congr (h : SetUp s) (hi : t.initialized = s.initialized) (hon : t.chOn = s.chOn) (hoff : t.chOff = s.chOff) :
    SetUp t := by
  unfold SetUp
  rw [hi, hon, hoff]
  exact h

/-- Writing a channel's shadow registers makes them known and leaves the others. -/
theorem setTicks (h : SetUp s) (c : Fin 16) (on off : Tick) : SetUp (setTicks c on off s) := by
  obtain ⟨hi, hk⟩ := h
  refine ⟨hi, fun d => ?_⟩
  obtain ⟨hon, hoff⟩ := hk d
  simp only [setTicks_chOn, setTicks_chOff, Fin.getElem_fin, Vector.getElem_set]
  split
  · exact ⟨rfl, rfl⟩
  · exact ⟨hon, hoff⟩

theorem closed (cmd : Command) : Closed cmd SetUp where
  write _ _ _ _ h := h.congr rfl rfl rfl
  read _ _ _ h := h.congr rfl rfl rfl
  frame _ _ _ h := h.congr rfl rfl rfl
  wait _ h := h.congr rfl rfl rfl
  ticks _ c on off h := h.setTicks c on off
  initialized _ h := ⟨rfl, h.2⟩
  fault _ h := h.congr (by simp) (by simp) (by simp)

end SetUp

/-- Once set-up is done, every command keeps it so. -/
theorem exec_keeps_setUp {i : Instr} {s t : State} (hx : exec i s = .next t) (h : SetUp s) : SetUp t :=
  exec_keeps_closed hx h (SetUp.closed _) (fun _ _ _ _ h => h.congr rfl rfl rfl) (fun _ _ _ h => h.congr rfl rfl rfl)
    (fun _ _ _ => h.congr (by simp) (by simp) (by simp))
    (fun _ _ _ _ _ => h.congr rfl rfl rfl) (fun _ _ _ _ _ => h.congr rfl rfl rfl)

theorem initialized_closed (cmd : Command) : Closed cmd (fun s => s.initialized = true) where
  write _ _ _ _ h := h
  read _ _ _ h := h
  frame _ _ _ h := h
  wait _ h := h
  ticks _ _ _ _ h := h
  initialized _ _ := rfl
  fault _ h := by simpa using h

/-- No command clears the flag (10_state.md R24). -/
theorem exec_keeps_initialized {i : Instr} {s t : State} (hx : exec i s = .next t) (h : s.initialized = true) :
    t.initialized = true :=
  exec_keeps_closed hx h (initialized_closed _) (fun _ _ _ _ h => h) (fun _ _ _ h => h)
    (fun _ _ _ => by simpa using h) (fun _ _ _ _ _ => h) (fun _ _ _ _ _ => h)

/-- A set-up that was done keeps its 23 events at the head of what the command sent. -/
theorem initEvents_of_exec_setupDone {i : Instr} {s t : State} (hx : exec i (setupDone s) = .next t) :
    ∃ rest, t.trace = s.trace ++ initEvents s.params (answerAt s 1).byte ++ rest :=
  (exec_extends hx).2

/-- Settles O50: a step but reset changes the flag only through `exec`, and `exec_of_uninitialized` says when. -/
theorem initializedSetBySetupOnly : Obligations.InitializedSetBySetupOnly := by
  refine ⟨rfl, status_getLsbD_zero, fun s t ht hr => ?_⟩
  rcases step_cases_noReset hr ht with ⟨w, i, u, hw, hd, hx, rfl⟩ | ⟨hidle, cause, cmd, rfl⟩
  · rw [advanceCursor_initialized, advanceCursor_trace]
    refine ⟨exec_keeps_initialized hx, fun h0 h1 => ?_, fun h0 _ hok w' j hw' hd' hj => ?_⟩
    · rcases exec_of_uninitialized h0 hx with ⟨hok, hx'⟩ | ⟨h0', _⟩
      · exact ⟨hok, initEvents_of_exec_setupDone hx'⟩
      · simp [h0'] at h1
    · cases hw.symm.trans hw'
      cases hd.symm.trans hd'
      rw [exec_eq_exec_setupDone hj h0 hok] at hx
      exact exec_keeps_initialized hx rfl
  · exact ⟨id, fun h0 h1 => by simp [h0] at h1, fun _ hf _ w i hw hd => absurd hd (hidle w i hf hw)⟩

/-! ### `initialized`, the shadow registers and the trace -/

namespace SetupRecorded
variable {s t : State}

/-- Only the flag, the shadow registers, the fault and the trace are spoken of. -/
theorem congr (h : SetupRecorded s) (hi : t.initialized = s.initialized) (hon : t.chOn = s.chOn)
    (hoff : t.chOff = s.chOff) (hf : t.fault = s.fault) (htr : t.trace = s.trace) : SetupRecorded t := by
  unfold SetupRecorded
  rw [hi, hon, hoff, hf, htr]
  exact h

theorem of_setUp (h : SetUp s) : SetupRecorded s :=
  ⟨fun _ => h.2, fun h0 => by simp [h.1] at h0⟩

/-- Where the set-up was not done, the shadow registers and the trace are those before it. -/
theorem of_setupNotDone (h : SetupRecorded s) (hi : s.initialized = false) (hf : s.fault = none)
    (ht : SetupNotDone s t) : SetupRecorded t := by
  obtain ⟨h0, hsame⟩ := ht
  refine ⟨fun h1 => by simp [h0] at h1, fun _ hft => ?_⟩
  obtain ⟨htr, hon, hoff⟩ := hsame hft
  rw [htr, hon, hoff]
  exact h.2 hi hf

theorem hostReset (s : State) : SetupRecorded (hostReset s) :=
  ⟨nofun, fun _ _ => ⟨rfl, fun c => ⟨reset_chOn_getElem c, reset_chOff_getElem c⟩⟩⟩

end SetupRecorded

/-- A command ends set up, or with the set-up not done. -/
theorem exec_keeps_setupRecorded {i : Instr} {s t : State} (h : SetupRecorded s) (hf : s.fault = none)
    (hx : exec i s = .next t) : SetupRecorded t := by
  cases hi : s.initialized with
  | true => exact .of_setUp (exec_keeps_setUp hx ⟨hi, h.1 hi⟩)
  | false =>
    rcases exec_of_uninitialized hi hx with ⟨_, hx'⟩ | hnot
    · exact .of_setUp (exec_keeps_setUp hx' (setUp_setupDone s))
    · exact h.of_setupNotDone hi hf hnot

/-- Settles O55: reset forgets everything, an illegal word records a fault, a command keeps the record. -/
theorem setupRecordedKept : Obligations.SetupRecordedKept := fun _ _ hs ht =>
  step_keeps (fun s _ => .hostReset s) (fun _ _ _ h _ _ => ⟨h.1, fun _ => nofun⟩)
    (fun _ h => h.congr (by simp) (by simp) (by simp) (by simp) (by simp))
    (fun _ _ _ _ h hf _ hx => exec_keeps_setupRecorded h hf hx) hs ht

/-! ### Brightness, the stored colours and `result` -/

/-- From `s` to `t` command `i` has changed the brightness, the stored colours and `result` only as it may
(10_state.md R27, R28, R33). -/
structure WrittenBy (i : Instr) (s t : State) : Prop where
  brightness : t.brightness = s.brightness ∨ ∃ v, i = .setbright v ∧ t.brightness = brightnessOf v
  led : ∀ u, t.led u = s.led u ∨ i = .setcolor (ledNumber u) (t.led u) ∨ i = .setall (t.led u)
  result : t.result = s.result ∨ (∃ r g b, i = .rgb r g b) ∨ ∃ h sat lum, i = .hsl h sat lum

namespace WrittenBy
variable {i : Instr} {s t u : State}

theorem refl (i : Instr) (s : State) : WrittenBy i s s := ⟨.inl rfl, fun _ => .inl rfl, .inl rfl⟩

/-- Only the three kinds of register are spoken of. -/
theorem congr (h : WrittenBy i s t) (hb : u.brightness = t.brightness) (hl : u.ledColor = t.ledColor)
    (hr : u.result = t.result) : WrittenBy i s u := by
  have hled : ∀ v, u.led v = t.led v := fun v => by simp [State.led, hl]
  exact ⟨by rw [hb]; exact h.brightness, fun v => by rw [hled]; exact h.led v, by rw [hr]; exact h.result⟩

/-- The bus work writes none of the three. -/
theorem closed (cmd : Command) : Closed cmd (WrittenBy i s) where
  write _ _ _ _ h := h.congr rfl rfl rfl
  read _ _ _ h := h.congr rfl rfl rfl
  frame _ _ _ h := h.congr rfl rfl rfl
  wait _ h := h.congr rfl rfl rfl
  ticks _ _ _ _ h := h.congr rfl rfl rfl
  initialized _ h := h.congr rfl rfl rfl
  fault _ h := h.congr (by simp) (by simp) (by simp)

theorem setLed (h : WrittenBy i s t) (u : LedUnit) (color : Color)
    (hi : i = .setcolor (ledNumber u) color ∨ i = .setall color) : WrittenBy i s (setLed u color t) := by
  refine ⟨h.brightness, fun v => ?_, h.result⟩
  rw [led_setLed]
  split
  · subst v; exact .inr hi
  · exact h.led v

theorem setBrightness (h : WrittenBy i s t) (v : Int) (hi : i = .setbright v) :
    WrittenBy i s (setBrightness (brightnessOf v) t) :=
  ⟨.inr ⟨v, hi, rfl⟩, h.led, h.result⟩

theorem setResult (h : WrittenBy i s t) (c : Color)
    (hi : (∃ r g b, i = .rgb r g b) ∨ ∃ h sat lum, i = .hsl h sat lum) : WrittenBy i s (setResult c t) :=
  ⟨h.brightness, h.led, .inr hi⟩

end WrittenBy

theorem exec_writtenBy {i : Instr} {s t : State} (hx : exec i s = .next t) : WrittenBy i s t :=
  have h := WrittenBy.refl i s
  exec_keeps_closed hx h (WrittenBy.closed _) (fun u color _ hi h => h.setLed u color hi)
    (fun v _ hi h => h.setBrightness v hi) (fun _ _ _ => h.congr (by simp) (by simp) (by simp))
    (fun r g b c e => h.setResult c (.inl ⟨r, g, b, e⟩))
    (fun x sat lum c e => h.setResult c (.inr ⟨x, sat, lum, e⟩))

/-- Settles O51: a register that changed was written by the command that `WrittenBy` names. -/
theorem registerWriters : Obligations.RegisterWriters := by
  intro s t w hr hw ht
  rcases step_cases_noReset hr ht with ⟨w', i, u, hw', hd, hx, rfl⟩ | ⟨_, cause, cmd, rfl⟩
  · cases hw'.symm.trans hw
    have h : WrittenBy i s (advanceCursor u) := (exec_writtenBy hx).congr (by simp) (by simp) (by simp)
    simp only [hd, Decoded.instr.injEq]
    refine ⟨fun hne => ?_, fun v hne => ⟨_, rfl, (h.led v).resolve_left hne⟩, h.result.resolve_left⟩
    obtain ⟨v, hv, hbr⟩ := h.brightness.resolve_left hne
    exact ⟨v, hv, hbr ▸ brightnessOf_toNat v⟩
  · exact ⟨fun hne => absurd rfl hne, fun _ hne => absurd rfl hne, fun hne => absurd rfl hne⟩

/-! ### The shadow registers and the last frames -/

/-- A tick is read back from its low byte and its high nibble (30_encoding.md R102). -/
theorem tick_of_bytes (x : Tick) : ((x.extractLsb' 8 4).setWidth 8 ++ x.extractLsb' 0 8).setWidth 12 = x := by
  ext k hk
  rw [BitVec.getElem_setWidth, BitVec.getLsbD_append]
  split
  · simp [*]
  · have hsum : 8 + (k - 8) = k := by omega
    have hnibble : k - 8 < 4 := by omega
    have hbyte : k - 8 < 8 := by omega
    simp [hsum, hnibble, hbyte, hk]

/-- The first addresses of two channels differ (20_memory.md R52). -/
theorem frameAddr_inj {p : Params} {c d : Fin 16} : frameAddr p c = frameAddr p d ↔ c = d := by
  have hc := c.isLt
  have hd := d.isLt
  rw [frameAddr, frameAddr, BitVec.add_right_inj, Fin.ext_iff, ← BitVec.toNat_inj, BitVec.toNat_ofNat,
    BitVec.toNat_ofNat]
  omega

/-- A frame that succeeded counts for its own channel, with its own ticks. -/
theorem frameTicks_frameEvent (p : Params) (c : Fin 16) (f : Frame) :
    frameTicks p c (frameEvent p true f) = if f.ch = c then some (f.on, f.off) else none := by
  have h : frameTicks p c (frameEvent p true f) = if frameAddr p f.ch = frameAddr p c
    then some (((f.on.extractLsb' 8 4).setWidth 8 ++ f.on.extractLsb' 0 8).setWidth 12,
      ((f.off.extractLsb' 8 4).setWidth 8 ++ f.off.extractLsb' 0 8).setWidth 12) else none := rfl
  rw [h, tick_of_bytes, tick_of_bytes]
  simp only [frameAddr_inj]

theorem lastFrame_append (p : Params) (c : Fin 16) (tr evs : List Event) :
    lastFrame p c (tr ++ evs) = (lastFrame p c evs).or (lastFrame p c tr) := by
  simp [lastFrame, List.findSome?_append]

theorem lastFrame_singleton (p : Params) (c : Fin 16) (e : Event) : lastFrame p c [e] = frameTicks p c e := by
  simp [lastFrame]

/-- A `u_setfreq` whose transaction failed has sent no frame. -/
theorem lastFrame_setfreqCut (p q : Params) (c : Fin 16) (old : Byte) (hz n : Nat) :
    lastFrame p c (setfreqCut q old hz n) = none := by
  unfold setfreqCut
  split <;> rfl

/-- The shadow registers record the trace, on a block with the parameters `p`. -/
def Records (p : Params) (s : State) : Prop := s.params = p ∧ ShadowsRecordTrace s

namespace Records
variable {p : Params} {s t : State}

theorem of_hostReset (s : State) : Records s.params (hostReset s) :=
  ⟨rfl, fun c => ⟨reset_chOn_getElem c, reset_chOff_getElem c⟩⟩

/-- Events that are no successful frames, with the shadow registers as they were. -/
theorem append (h : Records p s) {evs : List Event} (hp : t.params = s.params) (hon : t.chOn = s.chOn)
    (hoff : t.chOff = s.chOff) (htr : t.trace = s.trace ++ evs) (hev : ∀ c, lastFrame s.params c evs = none) :
    Records p t := by
  refine ⟨hp.trans h.1, ?_⟩
  unfold ShadowsRecordTrace
  simp only [hp, hon, hoff, htr, lastFrame_append, hev, Option.none_or]
  exact h.2

/-- Only the parameters, the shadow registers and the trace are spoken of. -/
theorem congr (h : Records p s) (hp : t.params = s.params) (hon : t.chOn = s.chOn) (hoff : t.chOff = s.chOff)
    (htr : t.trace = s.trace) : Records p t :=
  h.append (evs := []) hp hon hoff (by simpa using htr) fun _ => rfl

theorem raiseFault (h : Records p s) (cause : FaultCause) (cmd : Command) : Records p (raiseFault cause cmd s) :=
  h.congr (by simp) (by simp) (by simp) (by simp)

/-- A frame that succeeded is the last one of its channel, and that channel's shadow registers hold its ticks. -/
theorem framesSent (h : Records p s) (f : Frame) : Records p (framesSent [f] s) := by
  refine ⟨h.1, fun c => ?_⟩
  obtain ⟨hon, hoff⟩ := h.2 c
  simp only [framesSent_params, framesSent_trace, List.map_singleton, lastFrame_append, lastFrame_singleton,
    frameTicks_frameEvent, framesSent_chOn, framesSent_chOff, List.foldl_cons, List.foldl_nil, Fin.getElem_fin,
    Vector.getElem_set, Fin.val_inj]
  split
  · exact ⟨rfl, rfl⟩
  · exact ⟨hon, hoff⟩

theorem memWrite1_sat (h : Records p s) (cmd : Command) (reg v : Byte) :
    (memWrite1 cmd reg v s).sat (Records p) (Records p) := by
  cases hok : (answerAt s 0).ok with
  | true =>
    rw [memWrite1_ok _ _ _ hok]
    exact h.append rfl rfl rfl rfl fun _ => rfl
  | false =>
    rw [memWrite1_fail _ _ _ hok]
    refine Records.raiseFault ?_ _ _
    exact h.append rfl rfl rfl rfl fun _ => rfl

theorem uSetfreq_sat (h : Records p s) (cmd : Command) (hz : Nat) :
    (uSetfreq cmd hz s).sat (Records p) (Records p) := by
  rcases uSetfreq_cases cmd hz s with ⟨_, e⟩ | ⟨n, _, _, e⟩ <;> rw [e]
  · exact h.append rfl rfl rfl rfl fun _ => rfl
  · refine Records.raiseFault ?_ _ _
    exact h.append rfl rfl rfl rfl fun c => lastFrame_setfreqCut _ _ c _ hz n

theorem uSetch_sat (h : Records p s) (cmd : Command) (c : Fin 16) (on off : Tick) :
    (uSetch cmd c on off s).sat (Records p) (Records p) := by
  rcases uSetch_cases cmd c on off s with ⟨_, e⟩ | ⟨_, e⟩ <;> rw [e]
  · exact h.framesSent _
  · refine Records.raiseFault ?_ _ _
    exact h.append rfl rfl rfl rfl fun _ => rfl

/-- The bus work of every command keeps the record. -/
theorem busSat (i : Instr) (p : Params) : BusSat i p (Records p) (Records p) (Records p) where
  params _ h := h.1
  init := uInit_sat (fun _ h => h.memWrite1_sat _ _ _) (fun _ h => h.uSetfreq_sat _ _)
    (fun c on off _ h => h.uSetch_sat _ c on off) fun _ h => h.congr rfl rfl rfl rfl
  freq hz _ _ _ h := h.uSetfreq_sat _ hz
  frame c on off _ _ h := h.uSetch_sat _ c on off
  led _ _ _ _ h := h.congr rfl rfl rfl rfl
  bright _ _ _ h := h.congr rfl rfl rfl rfl

end Records

/-- Every command keeps the record. -/
theorem exec_keeps_records {i : Instr} {s t : State} (hx : exec i s = .next t) (h : Records s.params s) :
    Records s.params t :=
  exec_keeps hx h (fun _ h => h) (fun _ h => h) (fun _ => Records.busSat i s.params) (fun _ _ _ => h.raiseFault _ _)
    (fun _ _ _ _ _ => h.congr rfl rfl rfl rfl) (fun _ _ _ _ _ => h.congr rfl rfl rfl rfl)

/-- Settles O52: only a frame that succeeds changes a shadow register or counts as a last frame
(`Records.framesSent`), and reset clears both sides. -/
theorem shadowsRecordTraceKept : Obligations.ShadowsRecordTraceKept := by
  intro s t hs ht
  have start : ∀ {s}, ShadowsRecordTrace s → Records s.params s := fun h => ⟨rfl, h⟩
  refine step_keeps (fun s _ => (Records.of_hostReset s).2) (fun _ _ _ h _ _ => ?_) (fun _ h => ?_)
    (fun _ _ _ _ h _ _ hx => (exec_keeps_records hx (start h)).2) hs ht
  · exact ((start h).congr rfl rfl rfl rfl).2
  · exact ((start h).congr (by simp) (by simp) (by simp) (by simp)).2

/-! ### The invariants at reset -/

/-- Settles O58: nothing has been sent, nothing is known and nothing has been raised. -/
theorem invariantsHoldAtReset : Obligations.InvariantsHoldAtReset :=
  ⟨(Records.of_hostReset .reset).2, rfl, ⟨nofun, ⟨nofun, nofun⟩⟩,
    SetupRecorded.hostReset .reset, rfl, nofun, config_params_valid⟩

end Sys2Proof.Machine

/-! PROOFS. The statements of spec/20_memory.md: every event stays in the block's register map (R50 to R52, R58). -/

namespace Sys2Proof.Machine

/-! ### The prescale byte -/

/-- In the frequency range the prescale lies in 0..253 (40_pwm_driver.md R123, 30_encoding.md R105). -/
theorem prescale_bounds {hz : Nat} (hlo : 24 ≤ hz) (hhi : hz ≤ 12207) :
    0 ≤ prescale hz ∧ prescale hz ≤ 253 := by
  have hq : prescale hz = (((50000000 + 4096 * hz) / (8192 * hz) : Nat) : Int) - 1 :=
    congrArg (· - 1) (idiv_natCast (50000000 + 4096 * hz) (8192 * hz))
  have hpos : 0 < 8192 * hz := by omega
  have h1 : 1 ≤ (50000000 + 4096 * hz) / (8192 * hz) := (Nat.le_div_iff_mul_le hpos).mpr (by omega)
  have h255 : (50000000 + 4096 * hz) / (8192 * hz) < 255 := (Nat.div_lt_iff_lt_mul hpos).mpr (by omega)
  omega

/-- In the frequency range the byte written to the prescale register is at most 253 (30_encoding.md R105). -/
theorem prescaleByte_toNat_le {hz : Nat} (hlo : 24 ≤ hz) (hhi : hz ≤ 12207) : (prescaleByte hz).toNat ≤ 253 := by
  obtain ⟨h0, h253⟩ := prescale_bounds hlo hhi
  rw [prescaleByte, BitVec.toNat_ofInt]
  omega

/-! ### The events of a command -/

/-- The block has the parameters `p` and every event of its trace is of their register map. -/
def InMap (p : Params) (s : State) : Prop := s.params = p ∧ ∀ e ∈ s.trace, e.inMap p

namespace InMap
variable {p : Params} {s t : State}

/-- Only the parameters and the trace are spoken of. -/
theorem congr (h : InMap p s) (hp : t.params = s.params) (htr : t.trace = s.trace) : InMap p t := by
  unfold InMap
  rw [hp, htr]
  exact h

/-- One more event of the map. -/
theorem emit (h : InMap p s) {e : Event} (he : e.inMap s.params) : InMap p (emit e s) := by
  obtain ⟨rfl, hmap⟩ := h
  exact ⟨rfl, List.forall_mem_append.mpr ⟨hmap, List.forall_mem_singleton.mpr he⟩⟩

/-- A transaction of the map, whether it succeeds or fails: a failed one is in the trace too (60_exceptions.md
R223). -/
theorem transaction_sat (h : InMap p s) (cmd : Command) (ok : Bool) {e : Event} (he : e.inMap s.params) :
    (checkStatus cmd ok (Machine.emit e (takeAnswers 1 s))).sat (InMap p) (InMap p) := by
  have hsent : InMap p (Machine.emit e (takeAnswers 1 s)) := InMap.emit (h.congr rfl rfl) he
  cases ok with
  | true => exact hsent
  | false => exact hsent.congr (by simp) (by simp)

theorem memWrite1_modeReg_sat (h : InMap p s) (cmd : Command) (v : Byte) :
    (memWrite1 cmd s.params.modeReg v s).sat (InMap p) (InMap p) :=
  h.transaction_sat cmd _ ⟨rfl, .inl rfl⟩

theorem memWrite1_prescaleReg_sat (h : InMap p s) (cmd : Command) {v : Byte} (hv : v.toNat ≤ 253) :
    (memWrite1 cmd s.params.prescaleReg v s).sat (InMap p) (InMap p) :=
  h.transaction_sat cmd _ ⟨rfl, .inr ⟨rfl, hv⟩⟩

/-- A frame's buffer has the layout of 30_encoding.md R102. -/
theorem uSetch_sat (h : InMap p s) (cmd : Command) (c : Fin 16) (on off : Tick) :
    (uSetch cmd c on off s).sat (InMap p) (InMap p) := by
  rw [uSetch, dif_pos c.isLt]
  refine Flow.andThen_sat (h.transaction_sat cmd _ ?_) fun _ hu => hu.congr rfl rfl
  exact ⟨rfl, ⟨c, on, off⟩, bufferBytes_eq_frameBytes s.params ⟨c, on, off⟩⟩

/-- The sequence of 40_pwm_driver.md R124 for a frequency in range: only the prescale byte needs the range. -/
theorem uSetfreq_sat (h : InMap p s) (cmd : Command) {hz : Nat} (hlo : 24 ≤ hz) (hhi : hz ≤ 12207) :
    (uSetfreq cmd hz s).sat (InMap p) (InMap p) := by
  refine Flow.andThen_sat (h.transaction_sat cmd _ ⟨rfl, rfl⟩) fun s1 h1 => ?_
  refine Flow.andThen_sat (h1.memWrite1_modeReg_sat cmd _) fun s2 h2 => ?_
  refine Flow.andThen_sat (h2.memWrite1_prescaleReg_sat cmd (prescaleByte_toNat_le hlo hhi)) fun s3 h3 => ?_
  refine Flow.andThen_sat (h3.memWrite1_modeReg_sat cmd _) fun s4 h4 => ?_
  have hwaited : InMap p (Machine.emit (.delay Config.wakeDelayUs) s4) := h4.emit rfl
  exact hwaited.memWrite1_modeReg_sat cmd _

/-- The set-up's frequency is in range under 00_scope.md R7 (c). -/
theorem uSetfreq_initHz_sat (hp : p.valid = true) (h : InMap p s) (cmd : Command) :
    (uSetfreq cmd s.params.initHz s).sat (InMap p) (InMap p) := by
  obtain ⟨-, -, -, -, hlo, hhi, -⟩ := (valid_iff p).mp hp
  rw [h.1]
  exact h.uSetfreq_sat cmd hlo hhi

/-- The bus work of every command stays in the map; SETFREQ gets there only with a frequency in range. -/
theorem busSat (hp : p.valid = true) (i : Instr) : BusSat i p (InMap p) (InMap p) (InMap p) where
  params _ h := h.1
  init := uInit_sat (fun _ h => h.memWrite1_modeReg_sat _ _) (fun _ h => h.uSetfreq_initHz_sat hp _)
    (fun c on off _ h => h.uSetch_sat _ c on off) fun _ h => h.congr rfl rfl
  freq _ _ _ hin h :=
    have ⟨hlo, hhi⟩ := freqOutOfRange_eq_false.mp hin
    h.uSetfreq_sat _ hlo hhi
  frame c on off _ _ h := h.uSetch_sat _ c on off
  led _ _ _ _ h := h.congr rfl rfl
  bright _ _ _ h := h.congr rfl rfl

end InMap

/-- Every command stays in the map. -/
theorem exec_keeps_inMap {p : Params} (hp : p.valid = true) {i : Instr} {s t : State} (h : InMap p s)
    (hx : exec i s = .next t) : InMap p t :=
  exec_keeps hx h (fun _ h => h) (fun _ h => h) (fun _ => h.1 ▸ InMap.busSat hp i)
    (fun _ _ _ => h.congr (by simp) (by simp))
    (fun _ _ _ _ _ => h.congr rfl rfl) (fun _ _ _ _ _ => h.congr rfl rfl)

/-- Settles O57: reset empties the trace, an illegal word sends nothing, and each transaction of a command is one of
the map (`InMap.busSat`). -/
theorem traceInMapKept : Obligations.TraceInMapKept := by
  intro s t hp hs ht
  have hkept : InMap s.params t :=
    step_keeps (fun _ h => ⟨h.1, nofun⟩) (fun _ _ _ h _ _ => h.congr rfl rfl)
      (fun _ h => h.congr (by simp) (by simp)) (fun _ _ _ _ h _ _ hx => exec_keeps_inMap hp h hx) ⟨rfl, hs⟩ ht
  obtain ⟨hparams, hmap⟩ := hkept
  rw [TraceInMap, hparams]
  exact hmap

end Sys2Proof.Machine

/-! PROOFS. The statements of spec/30_encoding.md: the round trip between words and commands (R94, R95, R99, R100),
which words are illegal and what an illegal word does (R81, R96), the text form (R100), and the motor commands that
stand for others (R101). -/

namespace Sys2Proof.Machine

/-! ### Rows of the opcode map -/

/-- Every row's mask covers the opcode, and its match holds the opcode there (30_encoding.md R94). -/
theorem opcodeOf_mask_matchWord : ∀ r ∈ opcodeTable,
    opcodeOf r.mask = BitVec.allOnes 8 ∧ opcodeOf r.matchWord = r.opcode := by decide

/-- Every name has a row. -/
theorem exists_row (o : Op) : ∃ r ∈ opcodeTable, r.op = o := by
  cases o <;> decide

/-- Where the mask covers a whole slice, a word that matches holds the match's bits there. -/
theorem slice_of_match {w mask m : Command} (h : w &&& mask = m) {lo n : Nat}
    (hmask : mask.extractLsb' lo n = BitVec.allOnes n) : w.extractLsb' lo n = m.extractLsb' lo n := by
  rw [← h, BitVec.extractLsb'_and, hmask, BitVec.and_allOnes]

/-- A word that matches a row has the row's opcode. -/
theorem opcodeOf_of_match {w : Command} {r : OpcodeRow} (hr : r ∈ opcodeTable) (h : w &&& r.mask = r.matchWord) :
    opcodeOf w = r.opcode := by
  obtain ⟨hmask, hop⟩ := opcodeOf_mask_matchWord r hr
  exact (slice_of_match h hmask).trans hop

/-! ### The answers of the decoder -/

/-- The decoder's answer for a word whose opcode has a row (30_encoding.md R95). -/
theorem decode_of_opcode {w : Command} {r : OpcodeRow} (hr : r ∈ opcodeTable) (h : r.opcode = opcodeOf w) :
    decode w = if w &&& r.mask = r.matchWord then .instr (r.op.cut w) else .illegal .reservedBits := by
  simp only [decode, find_row_of_mem hr h]

/-- A word whose opcode has no row is unassigned (30_encoding.md R96). -/
theorem decode_of_no_row {w : Command} (h : ∀ r ∈ opcodeTable, r.opcode ≠ opcodeOf w) :
    decode w = .illegal .unassignedOpcode := by
  have hfind : opcodeTable.find? (fun r => r.opcode == opcodeOf w) = none :=
    List.find?_eq_none.mpr fun r hr => by simpa using h r hr
  simp only [decode, hfind]

/-- A word that matches a row decodes to the command of its fields. -/
theorem decode_of_match {w : Command} {r : OpcodeRow} (hr : r ∈ opcodeTable) (h : w &&& r.mask = r.matchWord) :
    decode w = .instr (r.op.cut w) := by
  rw [decode_of_opcode hr (opcodeOf_of_match hr h).symm, if_pos h]

/-- Everything the decoder can answer: it finds no row, or the one row with the word's opcode. -/
theorem decode_cases (w : Command) :
    ((∀ r ∈ opcodeTable, r.opcode ≠ opcodeOf w) ∧ decode w = .illegal .unassignedOpcode)
    ∨ ∃ r ∈ opcodeTable, r.opcode = opcodeOf w
        ∧ ((w &&& r.mask = r.matchWord ∧ decode w = .instr (r.op.cut w))
          ∨ (w &&& r.mask ≠ r.matchWord ∧ decode w = .illegal .reservedBits)) := by
  by_cases hrow : ∃ r ∈ opcodeTable, r.opcode = opcodeOf w
  · obtain ⟨r, hr, hop⟩ := hrow
    refine .inr ⟨r, hr, hop, ?_⟩
    rw [decode_of_opcode hr hop]
    by_cases hm : w &&& r.mask = r.matchWord
    · exact .inl ⟨hm, if_pos hm⟩
    · exact .inr ⟨hm, if_neg hm⟩
  · have hno : ∀ r ∈ opcodeTable, r.opcode ≠ opcodeOf w := fun r hr hop => hrow ⟨r, hr, hop⟩
    exact .inl ⟨hno, decode_of_no_row hno⟩

/-! ### The round trip -/

/-- The word of a command matches the command's own row (30_encoding.md R94). -/
theorem encode_fits_row (i : Instr) : Laws.EncodeFitsRow.Statement i := by
  cases i with
  | init => exact Laws.EncodeFitsRow.init
  | setfreq hz => exact Laws.EncodeFitsRow.setfreq hz
  | setch ch on off => exact Laws.EncodeFitsRow.setch ch on off
  | setcolor unit color => exact Laws.EncodeFitsRow.setcolor unit color
  | setall color => exact Laws.EncodeFitsRow.setall color
  | setbright value => exact Laws.EncodeFitsRow.setbright value
  | rgb r g b => exact Laws.EncodeFitsRow.rgb r g b
  | hsl h sat lum => exact Laws.EncodeFitsRow.hsl h sat lum
  | run motor speed => exact Laws.EncodeFitsRow.run motor speed
  | rundual speedA speedB => exact Laws.EncodeFitsRow.rundual speedA speedB
  | move speed => exact Laws.EncodeFitsRow.move speed
  | stop motor => exact Laws.EncodeFitsRow.stop motor
  | stopall => exact Laws.EncodeFitsRow.stopall

/-- A slice of the payload is a slice of the word (30_encoding.md R80). -/
theorem extractLsb'_commandWord (op : BitVec 8) (payload : BitVec 32) {lo n : Nat} (h : lo + n ≤ 32) :
    (commandWord op payload).extractLsb' lo n = payload.extractLsb' lo n :=
  BitVec.extractLsb'_append_eq_of_add_le h

/-- The fields cut from a command's word are the command's operands: a slice of a concatenation is one of its parts,
and a value in range is read back from its field (30_encoding.md R99, R100). -/
theorem cut_encode {i : Instr} (hi : i.wellFormed = true) : i.op.cut (encode i) = i := by
  cases i <;>
    simp (disch := omega) only [Instr.op, Op.cut, encode, fieldU, fieldS, extractLsb'_commandWord,
      BitVec.extractLsb'_append_eq_of_add_le, BitVec.extractLsb'_append_eq_of_le, BitVec.extractLsb'_eq_self,
      Nat.reduceSub] <;>
    simp_all only [Instr.wellFormed, Bool.and_eq_true, toNat_ofNat_of_fitsU, toInt_ofInt_of_fitsS]

/-- Settles O2: the word matches the command's row, and the row's fields are the operands (`cut_encode`). -/
theorem decodeOfEncode : Obligations.DecodeOfEncode := by
  intro i hi
  obtain ⟨r, hr, hop⟩ := exists_row i.op
  rw [decode_of_match hr (encode_fits_row i r hr hop), hop, cut_encode hi]

/-- The decoder gives operands in the ranges of 30_encoding.md R99 only. -/
theorem wellFormed_cut (o : Op) (w : Command) : (o.cut w).wellFormed = true := by
  cases o <;> simp [Op.cut, Instr.wellFormed, fitsU_fieldU, fitsS_fieldS]

/-- A word is its opcode and its payload (30_encoding.md R80). -/
theorem commandWord_opcodeOf (w : Command) : commandWord (opcodeOf w) (w.extractLsb' 0 32) = w :=
  (BitVec.extractLsb'_append_extractLsb'_eq_extractLsb' rfl).trans BitVec.extractLsb'_eq_self

/-- Putting an unsigned field's value back into its width gives the field's bits. -/
theorem ofNat_fieldU (w : Command) (lo n : Nat) : BitVec.ofNat n (fieldU w lo n) = w.extractLsb' lo n := by
  rw [fieldU, BitVec.ofNat_toNat, BitVec.setWidth_eq]

/-- Putting a two's-complement field's value back into its width gives the field's bits. -/
theorem ofInt_fieldS (w : Command) (lo n : Nat) : BitVec.ofInt n (fieldS w lo n) = w.extractLsb' lo n :=
  BitVec.ofInt_toInt

/-- The reserved bits of a row's format, as their lowest bit and their number; no bit for a format without any
(30_encoding.md R82 to R93). -/
def reservedBits : Op → Nat × Nat
  | .init | .stopall => (0, 32)
  | .setfreq | .setbright | .move => (16, 16)
  | .setall => (24, 8)
  | .rgb => (30, 2)
  | .run => (16, 8)
  | .stop => (0, 24)
  | .setch | .setcolor | .hsl | .rundual => (0, 0)

/-- The mask of a row covers its reserved bits, and the match has 0 there. -/
theorem mask_matchWord_reservedBits : ∀ r ∈ opcodeTable,
    r.mask.extractLsb' (reservedBits r.op).1 (reservedBits r.op).2 = BitVec.allOnes _
    ∧ r.matchWord.extractLsb' (reservedBits r.op).1 (reservedBits r.op).2 = 0#_ := by decide

/-- A word that matches a row has the row's reserved bits 0 (30_encoding.md R81). -/
theorem reservedBits_of_match {w : Command} {r : OpcodeRow} (hr : r ∈ opcodeTable)
    (h : w &&& r.mask = r.matchWord) : w.extractLsb' (reservedBits r.op).1 (reservedBits r.op).2 = 0#_ := by
  obtain ⟨hmask, hzero⟩ := mask_matchWord_reservedBits r hr
  exact (slice_of_match h hmask).trans hzero

/-- Where the reserved bits are 0, the operands cut from a word make up its payload: neighbouring slices join. -/
theorem payload_encode_cut (o : Op) {w : Command}
    (h : w.extractLsb' (reservedBits o).1 (reservedBits o).2 = 0#_) :
    (encode (o.cut w)).extractLsb' 0 32 = w.extractLsb' 0 32 := by
  cases o <;> simp only [reservedBits] at h <;>
    simp (disch := omega) only [Op.cut, encode, ofNat_fieldU, ofInt_fieldS, extractLsb'_commandWord, ← h,
      BitVec.extractLsb'_append_extractLsb'_eq_extractLsb', BitVec.extractLsb'_eq_self]

/-- A word that matches a row is the word of the command cut from it: opcode and payload agree. -/
theorem encode_cut {w : Command} {r : OpcodeRow} (hr : r ∈ opcodeTable) (hm : w &&& r.mask = r.matchWord) :
    encode (r.op.cut w) = w := by
  have hm' := encode_fits_row (r.op.cut w) r hr (op_cut r.op w).symm
  rw [← commandWord_opcodeOf (encode (r.op.cut w)), opcodeOf_of_match hr hm', ← opcodeOf_of_match hr hm,
    payload_encode_cut r.op (reservedBits_of_match hr hm), commandWord_opcodeOf]

/-- Settles O3: the command is cut from a word that matches its row (`wellFormed_cut`, `encode_cut`). -/
theorem encodeOfDecode : Obligations.EncodeOfDecode := by
  intro w i h
  obtain ⟨r, hr, -, hm, rfl⟩ := decode_eq_instr h
  exact ⟨wellFormed_cut r.op w, encode_cut hr hm⟩

/-! ### Which words encode which row -/

/-- Settles O4: a word decodes to a command of the row it matches, and rows are told apart by their names. -/
theorem wordEncodesRowExactlyWhenItMatches : Obligations.WordEncodesRowExactlyWhenItMatches := by
  intro w r hr
  constructor
  · rintro ⟨i, h, hop⟩
    obtain ⟨r', hr', -, hm, rfl⟩ := decode_eq_instr h
    rw [op_cut] at hop
    rwa [← op_inj r' hr' r hr hop]
  · intro hm
    exact ⟨r.op.cut w, decode_of_match hr hm, op_cut r.op w⟩

/-- Settles O5, by the cases of the decoder; the opcodes listed are those of the rows. -/
theorem illegalWordsAreUnassignedOrReserved : Obligations.IllegalWordsAreUnassignedOrReserved := by
  intro w
  change (_ ↔ opcodeOf w ∉ opcodeTable.map OpcodeRow.opcode) ∧ _
  rcases decode_cases w with ⟨hno, hd⟩ | ⟨r, hr, hop, hcase⟩
  · have hmem : opcodeOf w ∉ opcodeTable.map OpcodeRow.opcode := fun h =>
      have ⟨r, hr, hop⟩ := List.mem_map.mp h
      hno r hr hop
    exact ⟨iff_of_true hd hmem, iff_of_false (by simp [hd]) fun ⟨r, hr, hop, _⟩ => hno r hr hop⟩
  · have hmem : opcodeOf w ∈ opcodeTable.map OpcodeRow.opcode := List.mem_map.mpr ⟨r, hr, hop⟩
    rcases hcase with ⟨hm, hd⟩ | ⟨hm, hd⟩
    · refine ⟨iff_of_false (by simp [hd]) (not_not_intro hmem), iff_of_false (by simp [hd]) ?_⟩
      rintro ⟨r', hr', hop', hm'⟩
      obtain rfl := opcode_inj r' hr' r hr (hop'.trans hop.symm)
      exact hm' hm
    · exact ⟨iff_of_false (by simp [hd]) (not_not_intro hmem), iff_of_true hd ⟨r, hr, hop, hm⟩⟩

/-- Settles O1: each word is decoded by evaluation. -/
theorem sampleWordsDecode : Obligations.SampleWordsDecode := by
  unfold Obligations.SampleWordsDecode
  decide

/-! ### Lines of text -/

/-- A command is well-formed exactly when its operands lie in the ranges of 30_encoding.md R99. -/
theorem wellFormed_iff_inRange (i : Instr) : i.wellFormed = true ↔
    List.Forall₂ (fun (r : FieldRange) v => r.lo ≤ v ∧ v ≤ r.hi) (fieldRanges i.op) (operandValues i) := by
  cases i <;> simp [Instr.wellFormed, Instr.op, fieldRanges, operandValues, fitsU_eq_true, fitsS_eq_true] <;> omega

/-- Texts that spell numbers have no white space, comma or semicolon. -/
theorem plain_of_spelled {α : Type} {signed : α → Bool} {value : α → Int} {xs : List α} {texts : List (List Char)}
    (h : List.Forall₂ (fun x text => NumberText (signed x) text (value x)) xs texts) :
    ∀ t ∈ texts, t ≠ [] ∧ ∀ c ∈ t, Plain c := by
  induction h with
  | nil => nofun
  | cons ht _ ih => exact List.forall_mem_cons.mpr ⟨ht.plain, ih⟩

/-- The texts of a command's operands, each spelled as its field allows, are read as that command. -/
theorem buildOperands_of_spelled {i : Instr} {texts : List (List Char)}
    (h : List.Forall₂ (fun (fv : FieldRange × Int) text => NumberText fv.1.signed text fv.2)
      ((fieldRanges i.op).zip (operandValues i)) texts) : buildOperands texts i.op = some i := by
  cases i with
  | init | stopall => cases h; rfl
  | setfreq hz | stop motor =>
    obtain _ | ⟨h1, _ | _⟩ := h
    simp [buildOperands, Instr.op, readUnsigned_of_unsigned h1]
  | setall color =>
    obtain _ | ⟨h1, _ | _⟩ := h
    simp [buildOperands, Instr.op, readBits_of_unsigned h1]
  | setbright v | move v =>
    obtain _ | ⟨h1, _ | _⟩ := h
    simp [buildOperands, Instr.op, readSigned_of_numberText h1]
  | setcolor unit color =>
    obtain _ | ⟨h1, _ | ⟨h2, _ | _⟩⟩ := h
    simp [buildOperands, Instr.op, readUnsigned_of_unsigned h1, readBits_of_unsigned h2]
  | run motor speed =>
    obtain _ | ⟨h1, _ | ⟨h2, _ | _⟩⟩ := h
    simp [buildOperands, Instr.op, readUnsigned_of_unsigned h1, readSigned_of_numberText h2]
  | rundual a b =>
    obtain _ | ⟨h1, _ | ⟨h2, _ | _⟩⟩ := h
    simp [buildOperands, Instr.op, readSigned_of_numberText h1, readSigned_of_numberText h2]
  | setch ch on off =>
    obtain _ | ⟨h1, _ | ⟨h2, _ | ⟨h3, _ | _⟩⟩⟩ := h
    simp [buildOperands, Instr.op, readUnsigned_of_unsigned h1, readBits_of_unsigned h2, readBits_of_unsigned h3]
  | rgb r g b =>
    obtain _ | ⟨h1, _ | ⟨h2, _ | ⟨h3, _ | _⟩⟩⟩ := h
    simp [buildOperands, Instr.op, readBits_of_unsigned h1, readBits_of_unsigned h2, readBits_of_unsigned h3]
  | hsl h sat lum =>
    obtain _ | ⟨h1, _ | ⟨h2, _ | ⟨h3, _ | _⟩⟩⟩ := h
    simp [buildOperands, Instr.op, readUnsigned_of_unsigned h1, readSigned_of_numberText h2,
      readSigned_of_numberText h3]

/-- A text that an unsigned field accepts, a signed one reads as the same number. -/
theorem readSigned_of_readUnsigned {text : List Char} {n : Nat} (h : readUnsigned text = some n) :
    readSigned text = some (n : Int) := by
  unfold readSigned
  split
  · rw [readUnsigned_minus] at h; cases h
  · rw [h]; rfl

/-- A text that a bit-vector field accepts, a signed field reads as the same number. -/
theorem readSigned_of_readBits {n : Nat} {text : List Char} {b : BitVec n} (h : readBits n text = some b) :
    readSigned text = some (b.toNat : Int) := by
  unfold readBits at h
  split at h
  · cases h
  · rename_i v hv
    split at h
    · rename_i hlt
      cases h
      rw [readSigned_of_readUnsigned hv, BitVec.toNat_ofNat, Nat.mod_eq_of_lt hlt]
    · cases h

/-- The command built is one of the row asked for, and its operands are the numbers the texts read as. -/
theorem readSigned_of_buildOperands {o : Op} {texts : List (List Char)} {i : Instr}
    (h : buildOperands texts o = some i) : i.op = o ∧ texts.map readSigned = (operandValues i).map some := by
  cases o <;> simp only [buildOperands] at h <;> split at h <;>
    simp only [Option.bind_eq_some_iff, Option.map_eq_some_iff, Option.some.injEq, reduceCtorEq] at h
  -- one goal per row, in which each operand text has been read by the reader of its field
  all_goals grind [readSigned_of_readUnsigned, readSigned_of_readBits, operandValues, Instr.op]

/-- Spelled numbers are read as themselves. -/
theorem readSigned_of_spelled {vals : List Int} {texts : List (List Char)}
    (h : List.Forall₂ (fun v text => NumberText true text v) vals texts) : texts.map readSigned = vals.map some := by
  induction h with
  | nil => rfl
  | cons ht _ ih => simp only [List.map_cons, readSigned_of_numberText ht, ih]

/-- A command built from spelled numbers has these numbers as its operands. -/
theorem operandValues_of_buildOperands {o : Op} {vals : List Int} {texts : List (List Char)} {i : Instr}
    (hspell : List.Forall₂ (fun v text => NumberText true text v) vals texts) (h : buildOperands texts o = some i) :
    i.op = o ∧ operandValues i = vals := by
  obtain ⟨hop, hread⟩ := readSigned_of_buildOperands h
  exact ⟨hop, List.map_injective_iff.mpr (Option.some_injective Int)
    (hread.symm.trans (readSigned_of_spelled hspell))⟩

/-- A line that assembles to a command assembles to a well-formed one and to its encoding. -/
theorem wellFormed_of_assembleLine {line : List Char} {i : Instr} {w : Command}
    (h : assembleLine line = .command i w) : i.wellFormed = true ∧ w = encode i := by
  simp only [assembleLine] at h
  split at h
  · cases h
  · split at h
    · cases h
    · split at h
      · rename_i hi
        cases h
        exact ⟨hi, rfl⟩
      · cases h

/-- Settles O6: a spelled line reaches `buildOperands` with its row and its texts (`assembleLine_of_spellsLine`);
operands in range are read as the command, and a command built from a number out of range is ill-formed. -/
theorem linesAssembleAsSpelled : Obligations.LinesAssembleAsSpelled := by
  refine ⟨fun i texts line hi htexts hline => ?_, fun o vals texts line htexts _ hrange hline => ?_,
    fun line i w h => ?_⟩
  · rw [assembleLine_of_spellsLine (plain_of_spelled htexts) hline, buildOperands_of_spelled htexts]
    exact if_pos hi
  · rw [assembleLine_of_spellsLine (plain_of_spelled htexts) hline]
    cases hb : buildOperands texts o with
    | none => rfl
    | some i =>
      obtain ⟨rfl, rfl⟩ := operandValues_of_buildOperands htexts hb
      exact if_neg fun hi => hrange ((wellFormed_iff_inRange i).mp hi)
  · obtain ⟨hi, rfl⟩ := wellFormed_of_assembleLine h
    exact ⟨hi, rfl, decodeOfEncode i hi⟩

/-! ### A presented illegal word -/

/-- Settles O8: the fault is raised on an unfaulted block, and the cursor stays (30_encoding.md R96, 10_state.md
R21). -/
theorem illegalWordOnlyRecordsFault : Obligations.IllegalWordOnlyRecordsFault := by
  intro s w e hr hf hw hd
  have hraise : presentIllegal w s = { s with fault := some .illegalCommand, faultCmd := some w } :=
    raiseFault_of_noFault _ w hf
  have hstay : advanceCursor (presentIllegal w s) = presentIllegal w s :=
    advanceCursor_of_faulted (by rw [hraise]; rfl)
  have hstep : step s = .next (advanceCursor (presentIllegal w s)) := by
    simp [step, hr, hf, presentedWord, hw, hd]
  rw [hstep, hstay, hraise]

/-! ### The motor commands that stand for others -/

/-- Flows that agree but for the recorded word end in states that agree but for `fault_cmd`. -/
theorem Flow.SameButWord.state_eq {c c' : Command} {φ : Option FaultCause} {f f' : Flow}
    (h : f.SameButWord c c' φ f') : { f.state with faultCmd := none } = { f'.state with faultCmd := none } := by
  rcases h with ⟨s, -, rfl, rfl⟩ | ⟨s, -, rfl, rfl⟩
  · rfl
  · simp only [Flow.stopped_state, raiseFault]
    split <;> rfl

/-- The lazy set-up and then the same work, under two words. -/
theorem setup_sameButWord (c c' : Command) {k k' : State → Flow}
    (hk : ∀ t, (k t).SameButWord c c' t.fault (k' t)) (s : State) :
    ((uInit c s).andThen k).SameButWord c c' s.fault ((uInit c' s).andThen k') :=
  (uInit_sameButWord c c' s).andThen fun t ht => ht ▸ hk t

/-- Both motors driven, under two words. -/
theorem setup_bothRun_sameButWord (c c' : Command) (v1 v2 : Int) (s : State) :
    ((uInit c s).andThen fun t => (uRun c .m1 v1 t).andThen (uRun c .m2 v2)).SameButWord c c' s.fault
      ((uInit c' s).andThen fun t => (uRun c' .m1 v1 t).andThen (uRun c' .m2 v2)) :=
  setup_sameButWord c c'
    (fun t => (uRun_sameButWord c c' .m1 v1 t).andThen fun u hu => hu ▸ uRun_sameButWord c c' .m2 v2 u) s

/-- Commands whose flows agree but for the recorded word end in states that agree but for `fault_cmd`. -/
theorem endCommand_eq_but_word {c c' : Command} {φ : Option FaultCause} {f f' : Flow} (h : f.SameButWord c c' φ f')
    {t t' : State} (ht : endCommand f = .next t) (ht' : endCommand f' = .next t') :
    { t with faultCmd := none } = { t' with faultCmd := none } := by
  rw [← endCommand_eq_next.mp ht, ← endCommand_eq_next.mp ht']
  exact h.state_eq

/-- Settles O43: the two commands are the same flow but for the word a bus failure records. -/
theorem motorCommandsDefinedByOthers : Obligations.MotorCommandsDefinedByOthers := by
  intro s _
  refine ⟨fun v t t' => endCommand_eq_but_word (setup_bothRun_sameButWord _ _ v v s), fun m t t' => ?_,
    fun t t' => endCommand_eq_but_word (setup_bothRun_sameButWord _ _ 0 0 s)⟩
  refine endCommand_eq_but_word (φ := s.fault) (c := encode (.stop m)) (c' := encode (.run m 0)) ?_
  cases motorUnit? m with
  | none => exact .inl ⟨s, rfl, rfl, rfl⟩
  | some u => exact setup_sameButWord _ _ (uRun_sameButWord _ _ u 0) s

end Sys2Proof.Machine

/-! PROOFS. The statements of spec/40_pwm_driver.md: the prescale (R122, R123), the frequency sequence (R124, R128),
the set-up and INIT (R121, R126, R127), SETCH (R125, R129), what these commands leave alone, and where a failing bus
stops the commands that send frames of their own. -/

namespace Sys2Proof.Machine

/-! ### The prescale -/

/-- The prescale as a floor division (40_pwm_driver.md R122). -/
theorem prescale_eq_div (hz : Nat) :
    prescale hz = (((50000000 + 4096 * hz) / (8192 * hz) : Nat) : Int) - 1 :=
  congrArg (· - 1) (idiv_natCast (50000000 + 4096 * hz) (8192 * hz))

/-- Which numbers the prescale reaches, without a division. -/
theorem le_prescale_iff {hz : Nat} (h : 1 ≤ hz) (k : Int) :
    k ≤ prescale hz ↔ 4096 * hz * (2 * k + 1) ≤ 50000000 := by
  have hpos : (0 : Int) < 8192 * hz := by omega
  have hdiv : k + 1 ≤ (50000000 + 4096 * hz : Int) / (8192 * hz) ↔ (k + 1) * (8192 * hz) ≤ 50000000 + 4096 * hz :=
    Int.le_ediv_iff_mul_le hpos
  rw [prescale_eq_div]
  push_cast
  rw [Int.le_sub_one_iff, ← Int.add_one_le_iff, hdiv]
  constructor <;> intro hk <;> linarith

/-- No frequency lies half-way between two prescales: 4096 does not divide 50000000 (40_pwm_driver.md R122). -/
theorem prescale_no_tie (hz : Nat) (k : Int) : 4096 * hz * (2 * k + 1) ≠ 50000000 := by
  rw [mul_assoc]
  omega

/-- Settles O18: the prescale is reached and the next number is not, and a tie cannot occur. -/
theorem prescaleIsNearestInteger : Obligations.PrescaleIsNearestInteger := by
  intro hz h
  refine ⟨prescale_eq_div hz, ?_⟩
  have hreached : 4096 * hz * (2 * prescale hz + 1) < 50000000 :=
    lt_of_le_of_ne ((le_prescale_iff h _).mp le_rfl) (prescale_no_tie hz _)
  have hnext : 50000000 < 4096 * hz * (2 * (prescale hz + 1) + 1) :=
    not_le.mp (mt (le_prescale_iff h _).mpr (by omega))
  have hdist : |2 * (25000000 - 4096 * hz * (prescale hz + 1))| < 4096 * hz :=
    abs_lt.mpr ⟨by linarith, by linarith⟩
  rwa [abs_mul, abs_two] at hdist

/-- The prescale does not increase with the frequency (40_pwm_driver.md R123). -/
theorem prescale_antitone {a b : Nat} (ha : 1 ≤ a) (hab : a ≤ b) : prescale b ≤ prescale a := by
  rw [le_prescale_iff ha]
  have hb := (le_prescale_iff (ha.trans hab) (prescale b)).mp le_rfl
  have hab' : (a : Int) ≤ b := by exact_mod_cast hab
  rcases le_total 0 (2 * prescale b + 1) with hpos | hneg
  · calc 4096 * a * (2 * prescale b + 1) ≤ 4096 * b * (2 * prescale b + 1) := by gcongr
      _ ≤ 50000000 := hb
  · have := mul_nonpos_of_nonneg_of_nonpos (show (0 : Int) ≤ 4096 * a by omega) hneg
    omega

/-- In the frequency range the byte written is the prescale (30_encoding.md R105). -/
theorem prescaleByte_toNat {hz : Nat} (hlo : 24 ≤ hz) (hhi : hz ≤ 12207) :
    ((prescaleByte hz).toNat : Int) = prescale hz := by
  obtain ⟨h0, h253⟩ := prescale_bounds hlo hhi
  rw [prescaleByte, BitVec.toNat_ofInt]
  omega

/-- Settles O19: 0 is reached up to 12207 Hz and 256 is not from 24 Hz on. -/
theorem prescaleFitsByteExactlyInRange : Obligations.PrescaleFitsByteExactlyInRange := by
  refine ⟨fun hz h => ?_, fun a b => prescale_antitone,
    fun hz hlo hhi => ⟨prescaleByte_toNat hlo hhi, (prescale_bounds hlo hhi).2⟩⟩
  have h0 := le_prescale_iff h 0
  have h256 := le_prescale_iff h 256
  omega

/-! ### The commands of the driver, by their arguments and the flag -/

/-- SETFREQ out of range records its fault and does nothing else (40_pwm_driver.md R128). -/
theorem exec_setfreq_of_outOfRange {hz : Nat} (h : hz < 24 ∨ 12207 < hz) (s : State) :
    exec (.setfreq hz) s = .next (raiseFault .freqRange (encode (.setfreq hz)) s) := by
  simp only [exec, execSetfreq, freqOutOfRange_eq_true.mpr h]
  rfl

/-- SETFREQ in range on an initialised block is its sequence (40_pwm_driver.md R128). -/
theorem exec_setfreq_of_initialized {hz : Nat} {s : State} (hlo : 24 ≤ hz) (hhi : hz ≤ 12207)
    (hs : s.initialized = true) : exec (.setfreq hz) s = endCommand (uSetfreq (encode (.setfreq hz)) hz s) := by
  simp only [exec, execSetfreq, freqOutOfRange_eq_false.mpr ⟨hlo, hhi⟩, uInit_of_initialized _ hs]
  rfl

/-- SETCH on an initialised block is one frame (40_pwm_driver.md R129). -/
theorem exec_setch_of_initialized (c : Fin 16) (on off : Tick) {s : State} (hs : s.initialized = true) :
    exec (.setch c on off) s = endCommand (uSetch (encode (.setch c on off)) c on off s) := by
  have hc : ¬c.val > 15 := by omega
  simp only [exec, execSetch, if_neg hc, uInit_of_initialized _ hs, Flow.going_andThen]

/-- INIT on an initialised block does nothing (40_pwm_driver.md R127). -/
theorem exec_init_of_initialized {s : State} (hs : s.initialized = true) : exec .init s = .next s := by
  rw [exec, execInit, uInit_of_initialized _ hs]
  rfl

/-- Settles O20: the sequence on a bus that answers well (`uSetfreq_ok`). -/
theorem setfreqRunsSequence : Obligations.SetfreqRunsSequence := by
  intro hz s hlo hhi hs _ hok
  rw [exec_setfreq_of_initialized hlo hhi hs, uSetfreq_ok _ _ hok]
  rfl

/-- Settles O21: the range check comes before the set-up and before any event. -/
theorem setfreqOutOfRangeFaults : Obligations.SetfreqOutOfRangeFaults := by
  intro hz s h hf
  rw [exec_setfreq_of_outOfRange h, raiseFault_of_noFault _ _ hf]

/-- Settles O22: the set-up on a bus that answers well (`uInit_ok`). -/
theorem initProgramsWholeChip : Obligations.InitProgramsWholeChip := by
  intro s hs _ hok
  rw [exec, execInit, uInit_ok _ hs hok]
  rfl

/-- Settles O23: the set-up runs once. -/
theorem initAgainIsNoOp : Obligations.InitAgainIsNoOp := fun _ => exec_init_of_initialized

/-- Settles O24: one frame that succeeds (`uSetch_ok`). -/
theorem setchProgramsChannel : Obligations.SetchProgramsChannel := by
  intro ch h on off s hs _ hok
  rw [exec_setch_of_initialized ⟨ch, h⟩ on off hs, uSetch_ok _ _ _ _ (hok 0 (by omega))]
  rfl

/-- Settles O25: each command checks its index first, and ends there. -/
theorem outOfRangeIndexIsNoOp : Obligations.OutOfRangeIndexIsNoOp := by
  intro s
  refine ⟨fun ch on off h => ?_, fun unit color h => ?_, fun motor speed h => ?_, fun motor h => ?_⟩
  · simp only [exec, execSetch, if_pos h]; rfl
  · simp only [exec, execSetcolor, ledUnit?_eq_none h]; rfl
  · simp only [exec, execRun, motorUnit?_eq_none h]; rfl
  · simp only [exec, execStop, motorUnit?_eq_none h]; rfl

/-! ### The lazy set-up -/

/-- A set-up that went through leaves the flag set (40_pwm_driver.md R126). -/
theorem initialized_of_uInit_going {cmd : Command} {s t : State} (h : uInit cmd s = .going t) :
    t.initialized = true := by
  rcases uInit_cases cmd s with ⟨hs, e⟩ | ⟨_, _, e⟩ | ⟨_, u, e, _⟩
  · obtain rfl := Flow.going.inj (h.symm.trans e)
    exact hs
  · obtain rfl := Flow.going.inj (h.symm.trans e)
    rfl
  · exact absurd (h.symm.trans e) (Flow.going_ne_stopped t u)

/-- Settles O26: INIT and the command run the same set-up but for the word a bus failure records
(`uInit_sameButWord`), and one that went through is not run again. -/
theorem lazySetupComesFirst : Obligations.LazySetupComesFirst := by
  intro i s t hi _ hf hx
  have hinit : (uInit (encode .init) s).state = t := endCommand_eq_next.mp hx
  obtain ⟨work, hwork⟩ := exec_eq_setup_then_work hi
  rw [hwork, hwork]
  rcases uInit_sameButWord (encode .init) (encode i) s with ⟨u, hu, e, e'⟩ | ⟨u, hu, e, e'⟩ <;>
    (rw [e] at hinit; subst hinit; rw [e'])
  · refine ⟨fun _ => ?_, fun hne => absurd (hu.trans hf) hne⟩
    rw [Flow.going_state, uInit_of_initialized _ (initialized_of_uInit_going e)]
  · refine ⟨fun hnone => absurd hnone (raiseFault_fault_ne_none _ _ _), fun _ => ?_⟩
    rw [Flow.stopped_state, raiseFault_of_noFault _ _ (hu.trans hf), raiseFault_of_noFault _ _ (hu.trans hf)]
    rfl

/-! ### What a command leaves alone -/

/-- From `s` to `t` the host's side and the parameters stay, and so does `fault_cmd` unless a fault is recorded. -/
def LeavesHostSide (s t : State) : Prop :=
  SameHostSide s t ∧ (t.fault = none → t.faultCmd = s.faultCmd)

namespace LeavesHostSide
variable {s t : State}

theorem refl (s : State) : LeavesHostSide s s := ⟨⟨rfl, rfl, rfl, rfl⟩, fun _ => rfl⟩

/-- A recorded fault accounts for the word beside it. -/
theorem raiseFault (h : LeavesHostSide s t) (cause : FaultCause) (cmd : Command) :
    LeavesHostSide s (raiseFault cause cmd t) :=
  ⟨by simpa [SameHostSide] using h.1, fun hf => absurd hf (raiseFault_fault_ne_none _ _ _)⟩

theorem closed (cmd : Command) (s : State) : Closed cmd (LeavesHostSide s) where
  write _ _ _ _ h := h
  read _ _ _ h := h
  frame _ _ _ h := h
  wait _ h := h
  ticks _ _ _ _ h := h
  initialized _ h := h
  fault _ h := h.raiseFault _ _

end LeavesHostSide

/-- No command writes the host's side, a parameter, or `fault_cmd` without a fault. -/
theorem exec_leavesHostSide {i : Instr} {s t : State} (hx : exec i s = .next t) : LeavesHostSide s t :=
  have h := LeavesHostSide.refl s
  exec_keeps_closed hx h (LeavesHostSide.closed _ s) (fun _ _ _ _ h => h) (fun _ _ _ h => h)
    (fun _ _ _ => h.raiseFault _ _) (fun _ _ _ _ _ => h) (fun _ _ _ _ _ => h)

/-- The stored colours are the four units' (10_state.md R28). -/
theorem ledColor_eq_of_led {s t : State} (h : ∀ u, t.led u = s.led u) : t.ledColor = s.ledColor := by
  ext k hk : 1
  interval_cases k
  · exact h .u1
  · exact h .u2
  · exact h .u3
  · exact h .u4

/-- On an initialised block from `s` to `t` only frames to the channels `cs` were sent. -/
def OnlyFrames (cs : List (Fin 16)) (s t : State) : Prop :=
  t.initialized = true ∧ t.params = s.params ∧ OnlyChannels cs s t

namespace OnlyFrames
variable {cs : List (Fin 16)} {s t u : State}

theorem refl (h : s.initialized = true) : OnlyFrames cs s s :=
  ⟨h, rfl, fun _ _ => ⟨rfl, rfl⟩, [], by simp, by simp⟩

/-- Only the flag, the parameters, the shadow registers and the trace are spoken of. -/
theorem congr (h : OnlyFrames cs s t) (hi : u.initialized = t.initialized) (hp : u.params = t.params)
    (hon : u.chOn = t.chOn) (hoff : u.chOff = t.chOff) (htr : u.trace = t.trace) : OnlyFrames cs s u := by
  unfold OnlyFrames OnlyChannels
  rw [hi, hp, hon, hoff, htr]
  exact h

theorem raiseFault (h : OnlyFrames cs s t) (cause : FaultCause) (cmd : Command) :
    OnlyFrames cs s (raiseFault cause cmd t) :=
  h.congr (by simp) (by simp) (by simp) (by simp) (by simp)

/-- One more frame event to one of the channels. -/
theorem emit_frameEvent (h : OnlyFrames cs s t) {f : Frame} (hf : f.ch ∈ cs) (ok : Bool) :
    OnlyFrames cs s (emit (frameEvent t.params ok f) t) := by
  obtain ⟨hi, hp, hsame, evs, htr, hevs⟩ := h
  refine ⟨hi, hp, hsame, evs ++ [frameEvent t.params ok f], by simp [htr], ?_⟩
  exact List.forall_mem_append.mpr ⟨hevs, List.forall_mem_singleton.mpr ⟨f, ok, hf, by rw [hp]⟩⟩

/-- Shadow registers of one of the channels. -/
theorem setTicks (h : OnlyFrames cs s t) {c : Fin 16} (hc : c ∈ cs) (on off : Tick) :
    OnlyFrames cs s (setTicks c on off t) := by
  obtain ⟨hi, hp, hsame, hevs⟩ := h
  refine ⟨hi, hp, fun d hd => ?_, hevs⟩
  have hne : c.val ≠ d.val := fun he => hd (Fin.ext he ▸ hc)
  simpa [hne] using hsame d hd

theorem uSetch_sat (h : OnlyFrames cs s t) (cmd : Command) {c : Fin 16} (hc : c ∈ cs) (on off : Tick) :
    (uSetch cmd c on off t).sat (OnlyFrames cs s) (OnlyFrames cs s) := by
  have hsent : ∀ ok, OnlyFrames cs s (Machine.emit (frameEvent t.params ok ⟨c, on, off⟩) (takeAnswers 1 t)) :=
    (h.congr (u := takeAnswers 1 t) rfl rfl rfl rfl rfl).emit_frameEvent hc
  rcases uSetch_cases cmd c on off t with ⟨_, e⟩ | ⟨_, e⟩ <;> rw [e]
  · exact (hsent true).setTicks hc on off
  · exact (hsent false).raiseFault _ _

/-- The bus work of every command but SETFREQ on an initialised block: frames to its own channels. -/
theorem busSat {i : Instr} (hi : ∀ hz, i ≠ .setfreq hz) (s : State) :
    BusSat i s.params (OnlyFrames (channelsDriven s.params i) s) (OnlyFrames (channelsDriven s.params i) s)
      (OnlyFrames (channelsDriven s.params i) s) where
  params _ h := h.2.1
  init _ h := by rw [uInit_of_initialized _ h.1]; exact h
  freq hz _ e _ _ := absurd e (hi hz)
  frame _ on off _ hc h := h.uSetch_sat _ hc on off
  led _ _ _ _ h := h.congr rfl rfl rfl rfl rfl
  bright _ _ _ h := h.congr rfl rfl rfl rfl rfl

end OnlyFrames

/-- On an initialised block a command that is not SETFREQ sends frames to its own channels and writes no other
channel's shadow registers. -/
theorem exec_onlyChannels {i : Instr} {s t : State} (hi : ∀ hz, i ≠ .setfreq hz) (hs : s.initialized = true)
    (hx : exec i s = .next t) : OnlyChannels (channelsDriven s.params i) s t :=
  have h := OnlyFrames.refl hs
  (exec_keeps hx h (fun _ h => h) (fun _ h => h) (fun _ => OnlyFrames.busSat hi s) (fun hz e _ => absurd e (hi hz))
    (fun _ _ _ _ _ => h.congr rfl rfl rfl rfl rfl) (fun _ _ _ _ _ => h.congr rfl rfl rfl rfl rfl)).2.2

/-- The event is no set-channel frame. -/
def Event.notBuffer (e : Event) : Prop := ∀ chip bytes ok, e ≠ .buffer chip bytes ok

/-- No event of the frequency sequence is a frame (40_pwm_driver.md R124). -/
theorem setfreqEvents_notBuffer (p : Params) (old : Byte) (hz : Nat) :
    ∀ e ∈ setfreqEvents p old hz, e.notBuffer := by
  simp [setfreqEvents, Event.notBuffer]

/-- No event of a frequency sequence that failed is a frame. -/
theorem setfreqCut_notBuffer (p : Params) (old : Byte) (hz n : Nat) :
    ∀ e ∈ setfreqCut p old hz n, e.notBuffer := by
  unfold setfreqCut
  split <;> simp [setfreqEvents, Event.notBuffer]

/-- On an initialised block SETFREQ writes no shadow register and sends no frame, in range or not and whatever the
bus answers (40_pwm_driver.md R128). -/
theorem exec_setfreq_sends_no_frame {hz : Nat} {s t : State} (hs : s.initialized = true)
    (hx : exec (.setfreq hz) s = .next t) :
    t.chOn = s.chOn ∧ t.chOff = s.chOff ∧ ∃ evs, t.trace = s.trace ++ evs ∧ ∀ e ∈ evs, e.notBuffer := by
  by_cases hr : 24 ≤ hz ∧ hz ≤ 12207
  · rw [exec_setfreq_of_initialized hr.1 hr.2 hs, endCommand_eq_next] at hx
    subst hx
    rcases uSetfreq_cases (encode (.setfreq hz)) hz s with ⟨_, e⟩ | ⟨n, _, _, e⟩ <;> rw [e]
    · exact ⟨rfl, rfl, _, rfl, setfreqEvents_notBuffer _ _ _⟩
    · exact ⟨by simp [freqCut], by simp [freqCut], setfreqCut s.params (answerAt s 0).byte hz n, by simp [freqCut],
        setfreqCut_notBuffer _ _ _ n⟩
  · rw [exec_setfreq_of_outOfRange (by omega)] at hx
    injection hx with hx
    subst hx
    exact ⟨by simp, by simp, [], by simp, by simp⟩

/-- Settles O45: `exec_writtenBy` for the colour side, `exec_leavesHostSide` for the host's side, and the flag and the
channels by the command. -/
theorem driverCommandsFrame : Obligations.DriverCommandsFrame := by
  intro i s t hi _ hx
  obtain ⟨hhost, hword⟩ := exec_leavesHostSide hx
  have hw := exec_writtenBy hx
  have hkeep : t.brightness = s.brightness ∧ t.ledColor = s.ledColor ∧ t.result = s.result := by
    rcases hi with rfl | ⟨hz, rfl⟩ | ⟨ch, on, off, rfl⟩ <;>
      exact ⟨by simpa using hw.brightness, ledColor_eq_of_led fun u => by simpa using hw.led u,
        by simpa using hw.result⟩
  obtain ⟨hbright, hled, hresult⟩ := hkeep
  refine ⟨hbright, hled, hresult, hhost, hword, exec_keeps_initialized hx, ?_, ?_, ?_⟩
  · rintro hs rfl
    rw [exec_init_of_initialized hs] at hx
    injection hx with hx
    exact hx.symm
  · rintro hs ⟨ch, on, off, rfl⟩
    exact exec_onlyChannels nofun hs hx
  · rintro hs ⟨hz, rfl⟩
    exact exec_setfreq_sends_no_frame hs hx

/-! ### A failing bus -/

/-- Both motors driven are one list of frames, unit 1 first: the parameters do not change on the way
(42_motor_engine.md R192). -/
theorem bothRun_eq_sendFrames (cmd : Command) (v1 v2 : Int) (s : State) :
    (uRun cmd .m1 v1 s).andThen (uRun cmd .m2 v2)
      = sendFrames cmd (motorFrames s.params .m1 v1 ++ motorFrames s.params .m2 v2) s := by
  rw [sendFrames_append, uRun_eq_sendFrames]
  rcases sendFrames_cases cmd (motorFrames s.params .m1 v1) s with ⟨_, h⟩ | ⟨_, _, _, _, _, _, h⟩ <;> rw [h]
  · exact uRun_eq_sendFrames cmd .m2 v2 _
  · rfl

section
variable {s : State} (hs : s.initialized = true) (hf : s.fault = none) {k : Nat} (hk : FailsFirstAt k s) {f : Frame}
include hs hf hk

/-- The work of a command on one motor, where frame number `k` fails on an initialised block. -/
theorem setup_run_fail (cmd : Command) (m : MotorUnit) (v : Int) (h : (motorFrames s.params m v)[k]? = some f) :
    endCommand ((uInit cmd s).andThen (uRun cmd m v))
      = .next (stoppedAtFrame cmd ((motorFrames s.params m v).take k) f s) := by
  rw [uInit_of_initialized _ hs, Flow.going_andThen, uRun_eq_sendFrames, sendFrames_fail _ hf hk h]
  rfl

/-- The work of a command on both motors, where frame number `k` of the four fails on an initialised block. -/
theorem setup_bothRun_fail (cmd : Command) (v1 v2 : Int)
    (h : (motorFrames s.params .m1 v1 ++ motorFrames s.params .m2 v2)[k]? = some f) :
    endCommand ((uInit cmd s).andThen fun t => (uRun cmd .m1 v1 t).andThen (uRun cmd .m2 v2))
      = .next (stoppedAtFrame cmd ((motorFrames s.params .m1 v1 ++ motorFrames s.params .m2 v2).take k) f s) := by
  rw [uInit_of_initialized _ hs, Flow.going_andThen, bothRun_eq_sendFrames, sendFrames_fail _ hf hk h]
  rfl

end

/-- Settles O60: each command is a list of frames, and the one that fails ends it (`sendFrames_fail`). -/
theorem channelBusFailureKeepsEarlierFrames : Obligations.ChannelBusFailureKeepsEarlierFrames := by
  intro s k f hs hf hk
  refine ⟨?_, fun v => setup_run_fail hs hf hk _ .m1 v, fun v => setup_run_fail hs hf hk _ .m2 v,
    fun a b => setup_bothRun_fail hs hf hk _ a b, fun v => setup_bothRun_fail hs hf hk _ v v,
    setup_run_fail hs hf hk _ .m1 0, setup_run_fail hs hf hk _ .m2 0, setup_bothRun_fail hs hf hk _ 0 0⟩
  rintro ch on off rfl rfl
  rw [exec_setch_of_initialized ch on off hs, uSetch_fail _ _ _ _ hk.2, ← frameFailed_framesSent _ [] _ hf,
    framesSent_nil]
  rfl

end Sys2Proof.Machine

/-! PROOFS. The statements of spec/41_color_engine.md: brightness scaling (R150), the LED commands on a bus that answers
well and on one that fails (R151 to R154), what they leave alone, and the colour computations (R155 to R163). -/

namespace Sys2Proof.Machine

/-! ### Brightness scaling -/

/-- At brightness 255 a component passes unscaled (41_color_engine.md R150). -/
theorem scale_full (comp : Byte) : scale comp 255#8 = comp.toNat := rfl

/-- Below 255 a component is multiplied and shifted, which is a division rounding down (41_color_engine.md R150). -/
theorem scale_of_ne_full {br : Byte} (h : br ≠ 255#8) (comp : Byte) : scale comp br = comp.toNat * br.toNat / 256 := by
  rw [scale, if_neg h, Nat.shiftRight_eq_div_pow]

/-- Below 255 the product is at most 255 * 254, so a scaled component is at most 253 (41_color_engine.md R150). -/
theorem scale_le_of_ne_full {br : Byte} (h : br ≠ 255#8) (comp : Byte) : scale comp br ≤ 253 := by
  have hcomp := comp.isLt
  have hne : br.toNat ≠ 255 := fun he => h (BitVec.eq_of_toNat_eq he)
  have hbr := br.isLt
  have hprod : comp.toNat * br.toNat ≤ 255 * 254 := Nat.mul_le_mul (by omega) (by omega)
  rw [scale_of_ne_full h]
  omega

/-- A scaled component is a byte. -/
theorem scale_le (comp br : Byte) : scale comp br ≤ 255 := by
  by_cases h : br = 255#8
  · rw [h, scale_full]
    exact Nat.le_of_lt_succ comp.isLt
  · exact (scale_le_of_ne_full h comp).trans (by omega)

/-- Settles O29: the bypass at 255, the division below it. -/
theorem brightnessScaling : Obligations.BrightnessScaling := by
  intro comp br
  refine ⟨fun h => h ▸ scale_full comp, fun h => ⟨scale_of_ne_full h comp, scale_le_of_ne_full h comp⟩, ?_,
    Nat.mul_le_mul_left 16 (scale_le comp br)⟩
  rintro rfl
  rw [scale_of_ne_full (by decide), BitVec.toNat_ofNat, Nat.zero_mod, Nat.mul_zero, Nat.zero_div]

/-! ### One unit: SETCOLOR -/

/-- Storing a colour and applying the unit is the unit's three frames for that colour (41_color_engine.md R151,
R152). -/
theorem storeAndApply_eq_sendFrames (cmd : Command) (color : Color) (u : LedUnit) (s : State) :
    storeAndApply cmd color u s
      = sendFrames cmd (ledFrames s.params s.brightness color u) (setLed u color s) := by
  rw [storeAndApply, uApply_eq_sendFrames, led_setLed, if_pos rfl]
  rfl

/-- The state after a unit's colour has been stored and its three frames have succeeded (41_color_engine.md R152). -/
def colored (color : Color) (u : LedUnit) (s : State) : State :=
  framesSent (ledFrames s.params s.brightness color u) (setLed u color s)

/-- Each unit uses three bus answers. -/
theorem answerAt_colored (color : Color) (u : LedUnit) (s : State) (k : Nat) :
    answerAt (colored color u s) k = answerAt s (3 + k) :=
  answerAt_framesSent _ _ _

/-- Three good answers carry a unit through (`storeAndApply_eq_sendFrames`). -/
theorem storeAndApply_ok (cmd : Command) (color : Color) (u : LedUnit) {s : State} (h : AnswersOk 3 s) :
    storeAndApply cmd color u s = .going (colored color u s) := by
  rw [storeAndApply_eq_sendFrames]
  exact sendFrames_ok cmd _ h

/-- The answers that follow a unit's three are as good as they were. -/
theorem answersOk_colored {n : Nat} {s : State} (h : AnswersOk (3 + n) s) (color : Color) (u : LedUnit) :
    AnswersOk n (colored color u s) := fun k hk => by
  rw [answerAt_colored]
  exact h _ (by omega)

theorem ledUnit?_ledNumber (u : LedUnit) : ledUnit? (ledNumber u) = some u := by
  cases u <;> rfl

/-- SETCOLOR of a unit on an initialised block stores and applies (41_color_engine.md R152). -/
theorem exec_setcolor_of_initialized (u : LedUnit) (color : Color) {s : State} (hs : s.initialized = true) :
    exec (.setcolor (ledNumber u) color) s
      = endCommand (storeAndApply (encode (.setcolor (ledNumber u) color)) color u s) := by
  simp only [exec, execSetcolor, ledUnit?_ledNumber, uInit_of_initialized _ hs, Flow.going_andThen]

/-- SETCOLOR of a unit on an initialised block with three good answers. -/
theorem exec_setcolor_ok (u : LedUnit) (color : Color) {s : State} (hs : s.initialized = true) (h : AnswersOk 3 s) :
    exec (.setcolor (ledNumber u) color) s = .next (colored color u s) := by
  rw [exec_setcolor_of_initialized u color hs, storeAndApply_ok _ _ _ h]
  rfl

/-- Settles O30: the frames are those of the colour stored (`storeAndApply_eq_sendFrames`). -/
theorem setcolorDrivesUnit : Obligations.SetcolorDrivesUnit :=
  fun u color _ hs _ hok => exec_setcolor_ok u color hs hok

/-! ### What SETCOLOR leaves in the channels -/

/-- Frames to distinct channels leave in each channel's register what its own frame carried. -/
theorem foldl_set_getElem_of_mem {α : Type} (g : Frame → α) {fs : List Frame} (hfs : (fs.map Frame.ch).Nodup)
    {f : Frame} (hf : f ∈ fs) (v : Vector α 16) : (fs.foldl (fun v f => v.set f.ch (g f)) v)[f.ch] = g f := by
  induction fs using List.reverseRecOn generalizing v with
  | nil => cases hf
  | append_singleton fs last ih =>
    rw [List.map_append, List.nodup_append] at hfs
    obtain ⟨hfs, -, hlast⟩ := hfs
    rw [List.foldl_append, List.foldl_cons, List.foldl_nil, Fin.getElem_fin, Vector.getElem_set]
    rcases List.mem_append.mp hf with hf | hf
    · have hne : f.ch ≠ last.ch := hlast _ (List.mem_map_of_mem hf) _ (by simp)
      rw [if_neg fun he => hne (Fin.ext he.symm)]
      exact ih hfs hf v
    · obtain rfl := List.mem_singleton.mp hf
      rw [if_pos rfl]

/-- Frames to distinct channels leave their own ticks in the shadow registers (10_state.md R31). -/
theorem framesSent_ticks_of_mem {fs : List Frame} (hfs : (fs.map Frame.ch).Nodup) {f : Frame} (hf : f ∈ fs)
    (s : State) : (framesSent fs s).chOn[f.ch] = some f.on ∧ (framesSent fs s).chOff[f.ch] = some f.off :=
  ⟨foldl_set_getElem_of_mem (fun f => some f.on) hfs hf s.chOn,
    foldl_set_getElem_of_mem (fun f => some f.off) hfs hf s.chOff⟩

/-- Under 00_scope.md R7 (e) a unit's three frames go to distinct channels. -/
theorem ledFrames_channels_nodup {p : Params} (hp : p.valid = true) (br : Byte) (color : Color) (u : LedUnit) :
    ((ledFrames p br color u).map Frame.ch).Nodup := by
  obtain ⟨hrg, hrb, hgb⟩ := led_channels_ne hp u
  simp [ledFrames, hrg, hrb, hgb]

/-- The off-tick of a scaled component does not wrap (41_color_engine.md R151). -/
theorem scaled_duty_toNat (comp br : Byte) : (BitVec.ofNat 12 (16 * scale comp br)).toNat = 16 * scale comp br :=
  (BitVec.toNat_ofNat _ _).trans (Nat.mod_eq_of_lt (scale_mul_lt comp br))

/-- Settles O34: the unit's frames leave their ticks (`framesSent_ticks_of_mem`), and no duty wraps. -/
theorem setcolorLeavesDuties : Obligations.SetcolorLeavesDuties := by
  intro u color s hp hs _ hok
  refine ⟨colored color u s, exec_setcolor_ok u color hs hok, (led_setLed u u color s).trans (if_pos rfl), ?_⟩
  have hduty : ∀ (c : Fin 16) (comp : Byte),
      ⟨c, 0#12, BitVec.ofNat 12 (16 * scale comp s.brightness)⟩ ∈ ledFrames s.params s.brightness color u →
      (colored color u s).chOn[c] = some 0#12
      ∧ ∃ off : Tick, (colored color u s).chOff[c] = some off ∧ off.toNat = 16 * scale comp s.brightness
        ∧ (s.brightness = 255#8 → off.toNat = 16 * comp.toNat) := by
    intro c comp hmem
    obtain ⟨hon, hoff⟩ :=
      framesSent_ticks_of_mem (ledFrames_channels_nodup hp s.brightness color u) hmem (setLed u color s)
    refine ⟨hon, _, hoff, scaled_duty_toNat comp s.brightness, fun hfull => ?_⟩
    rw [scaled_duty_toNat, hfull, scale_full]
  simp only [List.forall_mem_cons]
  refine ⟨hduty _ _ ?_, hduty _ _ ?_, hduty _ _ ?_, by simp⟩ <;> simp [ledFrames]

/-! ### All units: SETALL and SETBRIGHT -/

/-- The loop of SETALL on a bus that answers well: one unit after the other (41_color_engine.md R153). -/
theorem forEach_storeAndApply_ok (cmd : Command) (color : Color) (us : List LedUnit) :
    ∀ {s : State}, AnswersOk (3 * us.length) s →
      forEach (storeAndApply cmd color) us s = .going (us.foldl (fun t u => colored color u t) s) := by
  induction us with
  | nil => intro s _; rfl
  | cons u us ih =>
    intro s h
    rw [List.length_cons, Nat.mul_succ, Nat.add_comm] at h
    rw [forEach_cons, storeAndApply_ok _ _ _ (h.mono (by omega)), Flow.going_andThen,
      ih (answersOk_colored h color u), List.foldl_cons]

/-- Sending frames and storing colours do not meet: the first writes no colour, the second nothing else. -/
theorem foldl_setLed_framesSent (color : Color) (us : List LedUnit) (fs : List Frame) (s : State) :
    us.foldl (fun t u => setLed u color t) (framesSent fs s)
      = framesSent fs (us.foldl (fun t u => setLed u color t) s) := by
  induction us generalizing s with
  | nil => rfl
  | cons u us ih => exact ih (setLed u color s)

/-- Units coloured one after the other: the frames of all of them, and the colour in all their registers. -/
theorem foldl_colored (color : Color) (us : List LedUnit) (s : State) :
    us.foldl (fun t u => colored color u t) s
      = framesSent (us.flatMap (ledFrames s.params s.brightness color)) (us.foldl (fun t u => setLed u color t) s) := by
  induction us generalizing s with
  | nil => exact (framesSent_nil s).symm
  | cons u us ih =>
    rw [List.foldl_cons, ih, colored, foldl_setLed_framesSent, framesSent_append]
    rfl

/-- Storing a colour in all four units fills the register (41_color_engine.md R153). -/
theorem foldl_setLed_allLedUnits (color : Color) (s : State) :
    allLedUnits.foldl (fun t u => setLed u color t) s = { s with ledColor := Vector.replicate 4 color } := by
  have hfill : (((s.ledColor.set 0 color).set 1 color).set 2 color).set 3 color = Vector.replicate 4 color := by
    ext k hk
    interval_cases k <;> simp
  exact congrArg (fun v => { s with ledColor := v }) hfill

/-- SETALL on an initialised block is its loop (41_color_engine.md R153). -/
theorem exec_setall_of_initialized (color : Color) {s : State} (hs : s.initialized = true) :
    exec (.setall color) s
      = endCommand (forEach (storeAndApply (encode (.setall color)) color) allLedUnits s) := by
  simp only [exec, execSetall, uInit_of_initialized _ hs, Flow.going_andThen]

/-- SETALL on an initialised block with twelve good answers colours the units in turn. -/
theorem exec_setall_ok (color : Color) {s : State} (hs : s.initialized = true) (h : AnswersOk 12 s) :
    exec (.setall color) s = .next (allLedUnits.foldl (fun t u => colored color u t) s) := by
  rw [exec_setall_of_initialized color hs, forEach_storeAndApply_ok _ _ allLedUnits h]
  rfl

/-- Settles O31: the units coloured in turn are twelve frames and four stored colours (`foldl_colored`). -/
theorem setallDrivesEveryUnit : Obligations.SetallDrivesEveryUnit := by
  intro color s hs _ hok
  rw [exec_setall_ok color hs hok, foldl_colored, foldl_setLed_allLedUnits]
  rfl

/-- Settles O32: each SETCOLOR takes the first three of the answers left, as SETALL's loop does. -/
theorem setallEqualsFourSetcolors : Obligations.SetallEqualsFourSetcolors := by
  intro color s hs _ hok
  have hok9 := answersOk_colored (n := 9) hok color .u1
  have hok6 := answersOk_colored (n := 6) hok9 color .u2
  have hok3 := answersOk_colored (n := 3) hok6 color .u3
  exact ⟨_, _, _, _, exec_setcolor_ok .u1 color hs (hok.mono (by omega)),
    exec_setcolor_ok .u2 color hs (hok9.mono (by omega)),
    exec_setcolor_ok .u3 color hs (hok6.mono (by omega)), exec_setcolor_ok .u4 color hs hok3,
    exec_setall_ok color hs hok⟩

/-- SETBRIGHT on an initialised block stores the clamped value and sends the frames of all units' stored colours under
it (41_color_engine.md R154). -/
theorem exec_setbright_of_initialized (value : Int) {s : State} (hs : s.initialized = true) :
    exec (.setbright value) s = endCommand (sendFrames (encode (.setbright value))
      (allLedUnits.flatMap fun u => ledFrames s.params (brightnessOf value) (s.led u) u)
      (setBrightness (brightnessOf value) s)) := by
  simp only [exec, execSetbright, uInit_of_initialized _ hs, Flow.going_andThen, forEach_uApply_eq_sendFrames]
  rfl

/-- Settles O33: twelve frames that succeed, under the clamped value. -/
theorem setbrightRefreshesEveryUnit : Obligations.SetbrightRefreshesEveryUnit := by
  intro value s hs _ hok
  refine ⟨brightnessOf value, brightnessOf_toNat value, ?_⟩
  rw [exec_setbright_of_initialized value hs, sendFrames_ok]
  · rfl
  · exact hok

/-! ### What the LED commands leave alone -/

/-- Settles O46: `exec_writtenBy` for the colour side, `exec_leavesHostSide` for the host's side, `exec_onlyChannels`
for the channels. -/
theorem ledCommandsFrame : Obligations.LedCommandsFrame := by
  intro i s t hi _ hx
  obtain ⟨hhost, hword⟩ := exec_leavesHostSide hx
  obtain ⟨hbright, hled, hresult⟩ := exec_writtenBy hx
  have hfreq : ∀ hz, i ≠ .setfreq hz := by
    rcases hi with ⟨_, _, rfl⟩ | ⟨_, rfl⟩ | ⟨_, rfl⟩ <;> nofun
  refine ⟨hresult.resolve_right ?_, hhost, hword, exec_keeps_initialized hx, fun hv => ?_, ?_, ?_,
    fun hs => exec_onlyChannels hfreq hs hx⟩
  · rcases hi with ⟨_, _, rfl⟩ | ⟨_, rfl⟩ | ⟨_, rfl⟩ <;> simp
  · exact hbright.resolve_right fun ⟨v, hi, _⟩ => hv v hi
  · rintro ⟨v, rfl⟩
    exact ledColor_eq_of_led fun u => by simpa using hled u
  · rintro unit color rfl u hu
    refine (hled u).resolve_right ?_
    rintro (h | h)
    · exact hu (Instr.setcolor.inj h).1.symm
    · cases h

/-! ### A failing bus -/

/-- The first `n` units are those with a number up to `n` (41_color_engine.md R153: "fixed order 1→4"). -/
theorem mem_take_allLedUnits (u : LedUnit) (n : Nat) : u ∈ allLedUnits.take n ↔ ledNumber u ≤ n := by
  match n with
  | 0 | 1 | 2 | 3 => cases u <;> decide
  | n + 4 => cases u <;> simp [allLedUnits, ledNumber]

/-- The units SETALL has reached when frame number `k` fails are those whose first frame is at or before it. -/
theorem mem_reached_iff (u : LedUnit) (k : Nat) :
    u ∈ allLedUnits.take (k / 3 + 1) ↔ 3 * (ledNumber u - 1) ≤ k := by
  rw [mem_take_allLedUnits]
  omega

/-- Settles O59: SETCOLOR and SETBRIGHT store and then send one list of frames (`sendFrames_fail`); SETALL stores
between its frames (`forEach_storeAndApply_fail`). -/
theorem ledBusFailureKeepsEarlierWrites : Obligations.LedBusFailureKeepsEarlierWrites := by
  intro s k f hs hf hk
  refine ⟨fun u color h => ?_, fun color h => ?_,
    fun value => ⟨brightnessOf value, brightnessOf_toNat value, fun h => ?_⟩⟩
  · rw [exec_setcolor_of_initialized u color hs, storeAndApply_eq_sendFrames,
      sendFrames_fail _ (s := setLed u color s) hf hk h]
    rfl
  · obtain ⟨r, hr, hrest, hled⟩ := forEach_storeAndApply_fail (encode (.setall color)) color allLedUnits hf hk h
    rw [exec_setall_of_initialized color hs, hr]
    refine ⟨r, rfl, fun u => ?_, hrest s.ledColor⟩
    simp only [hled, mem_reached_iff]
  · exact (exec_setbright_of_initialized value hs).trans
      (congrArg endCommand (sendFrames_fail _ (s := setBrightness (brightnessOf value) s) hf hk h))

/-! ### RGB -/

/-- The number of a packed colour (10_state.md R29). -/
theorem pack_toNat (r g b : Byte) : (pack r g b).toNat = r.toNat * 65536 + g.toNat * 256 + b.toNat := by
  have hg := g.isLt
  have hb := b.isLt
  rw [pack, BitVec.toNat_append, BitVec.toNat_append, ← Nat.shiftLeft_add_eq_or_of_lt hb,
    ← Nat.shiftLeft_add_eq_or_of_lt hg, Nat.shiftLeft_eq, Nat.shiftLeft_eq]
  omega

/-- Bits 9:8 of an input are dropped (41_color_engine.md R155). -/
theorem low8_toNat (v : BitVec 10) : (low8 v).toNat = v.toNat % 256 := by
  rw [low8, BitVec.extractLsb'_toNat, Nat.shiftRight_zero]

/-- Settles O35: the packed low bytes, as a number (`pack_toNat`, `low8_toNat`). -/
theorem rgbPacksLowBytes : Obligations.RgbPacksLowBytes := by
  intro r g b s
  refine ⟨pack (low8 r) (low8 g) (low8 b), rfl, ?_⟩
  rw [pack_toNat, low8_toNat, low8_toNat, low8_toNat]

/-! ### HSL: the seven steps on natural numbers

On normalised inputs no step of HSL sees a negative number, so each is a step on natural numbers: `…_natCast` says so
of the model's step, `…_le` bounds it. -/

/-- HSL writes `result` and nothing else (41_color_engine.md R156). -/
theorem exec_hsl (h : Nat) (sat lum : Int) (s : State) :
    exec (.hsl h sat lum) s = .next (setResult (hslColor h sat lum) s) := rfl

/-- The chroma as a natural number, for a luminosity of at most 100 (41_color_engine.md R158). -/
def chromaNat (s' l' : Nat) : Nat :=
  (100 - (if 2 * l' ≥ 100 then 2 * l' - 100 else 100 - 2 * l')) * s' * 256 / 10000

/-- `t` of 41_color_engine.md R160 as a natural number. -/
def distanceNat (h1 h2 : Nat) : Nat := if h1 % 2 = 0 then 256 - h2 else h2

/-- The offset within the sector as a natural number (41_color_engine.md R159). -/
def offsetNat (h' : Nat) : Nat := (h' - 60 * (h' / 60)) * 256 / 60

/-- The second component as a natural number (41_color_engine.md R160). -/
def secondNat (c h' : Nat) : Nat := c * (256 - distanceNat (h' / 60) (offsetNat h')) / 256

/-- What is added to every component, as a natural number (41_color_engine.md R162). -/
def liftNat (l' c : Nat) : Nat := (512 * l' / 100 - c) / 2

/-- The sector table on natural numbers (41_color_engine.md R161). -/
def selectNat (h1 c x : Nat) : Nat × Nat × Nat :=
  match h1 with
  | 0 => (c, x, 0)
  | 1 => (x, c, 0)
  | 2 => (0, c, x)
  | 3 => (0, x, c)
  | 4 => (x, 0, c)
  | _ => (c, 0, x)

/-- The three components before packing, as natural numbers (41_color_engine.md R156: rules R158 to R162 in order). -/
def componentsNat (h' s' l' : Nat) : Nat × Nat × Nat :=
  let c := chromaNat s' l'
  let rgb := selectNat (h' / 60) c (secondNat c h')
  (rgb.1 + liftNat l' c, rgb.2.1 + liftNat l' c, rgb.2.2 + liftNat l' c)

/-- Truncating division of a number that is a natural one (00_scope.md R11). -/
theorem idiv_of_eq_natCast {a : Int} {n : Nat} (h : a = n) (d : Nat) : idiv a d = ((n / d : Nat) : Int) :=
  h ▸ idiv_natCast n d

/-- The chroma (41_color_engine.md R158). -/
theorem hslChroma_natCast (s' : Nat) {l' : Nat} (hl : l' ≤ 100) : hslChroma s' l' = chromaNat s' l' := by
  have hpeak : 100 - absInt (2 * l' - 100)
      = ((100 - (if 2 * l' ≥ 100 then 2 * l' - 100 else 100 - 2 * l') : Nat) : Int) := by
    unfold absInt
    split <;> omega
  refine idiv_of_eq_natCast ?_ 10000
  rw [hpeak]
  push_cast
  rfl

/-- The sector (41_color_engine.md R159). -/
theorem hslSector_natCast (h' : Nat) : hslSector h' = ((h' / 60 : Nat) : Int) := idiv_natCast h' 60

/-- The offset within the sector (41_color_engine.md R159). -/
theorem hslOffset_natCast (h' : Nat) : hslOffset h' = offsetNat h' := by
  refine idiv_of_eq_natCast ?_ 60
  rw [hslSector_natCast]
  omega

/-- The offset stays below a whole sector's 256. -/
theorem offsetNat_le (h' : Nat) : offsetNat h' ≤ 256 := by
  unfold offsetNat
  omega

/-- `t`, for an offset within the sector (41_color_engine.md R160). -/
theorem hslDistance_natCast (h1 : Nat) {h2 : Nat} (hle : h2 ≤ 256) : hslDistance h1 h2 = distanceNat h1 h2 := by
  unfold hslDistance absInt distanceNat
  split <;> omega

/-- The distance is at most 256. -/
theorem distanceNat_le (h1 : Nat) {h2 : Nat} (hle : h2 ≤ 256) : distanceNat h1 h2 ≤ 256 := by
  unfold distanceNat
  split <;> omega

/-- The second component (41_color_engine.md R160). -/
theorem hslSecond_natCast (c h' : Nat) : hslSecond c (hslSector h') (hslOffset h') = secondNat c h' := by
  have hle := distanceNat_le (h' / 60) (offsetNat_le h')
  refine idiv_of_eq_natCast ?_ 256
  rw [hslSector_natCast, hslOffset_natCast, hslDistance_natCast _ (offsetNat_le h')]
  push_cast [hle]
  rfl

/-- The second component is a part of the chroma. -/
theorem secondNat_le (c h' : Nat) : secondNat c h' ≤ c := by
  refine Nat.div_le_of_le_mul ?_
  rw [Nat.mul_comm 256]
  exact Nat.mul_le_mul_left c (Nat.sub_le _ _)

/-- The sector table (41_color_engine.md R161). -/
theorem hslSelect_natCast (h1 c x : Nat) : hslSelect h1 c x
    = (((selectNat h1 c x).1 : Int), ((selectNat h1 c x).2.1 : Int), ((selectNat h1 c x).2.2 : Int)) := by
  match h1 with
  | 0 | 1 | 2 | 3 | 4 => rfl
  | n + 5 =>
    rw [hslSelect, if_neg (by omega), if_neg (by omega), if_neg (by omega), if_neg (by omega), if_neg (by omega)]
    rfl

/-- Where the second component is at most the chroma, no component of the table exceeds it. -/
theorem selectNat_le (h1 : Nat) {c x : Nat} (hx : x ≤ c) :
    (selectNat h1 c x).1 ≤ c ∧ (selectNat h1 c x).2.1 ≤ c ∧ (selectNat h1 c x).2.2 ≤ c := by
  unfold selectNat
  split <;> simp [hx]

/-- The lift, for a chroma that the luminosity covers (41_color_engine.md R162). -/
theorem hslLift_natCast {l' c : Nat} (hc : c ≤ 512 * l' / 100) : hslLift l' c = liftNat l' c := by
  have hlight : idiv (2 * l' * 256) 100 = ((512 * l' / 100 : Nat) : Int) := idiv_of_eq_natCast (by omega) 100
  refine idiv_of_eq_natCast ?_ 2
  rw [hlight, Nat.cast_sub hc]

/-- The chroma of normalised inputs is at most the luminosity's share, which is 512 at full luminosity, and at most
what the luminosity leaves of it (41_color_engine.md R158). -/
theorem chromaNat_le {s' l' : Nat} (hs : s' ≤ 99) (hl : l' ≤ 99) :
    chromaNat s' l' ≤ 512 * l' / 100 ∧ chromaNat s' l' + 512 * l' / 100 ≤ 511 := by
  unfold chromaNat
  generalize hpeak : 100 - (if 2 * l' ≥ 100 then 2 * l' - 100 else 100 - 2 * l') = peak
  have hbound : peak ≤ 2 * l' ∧ peak ≤ 200 - 2 * l' := by
    subst hpeak
    split <;> omega
  have hsat := Nat.mul_le_mul_left peak hs
  omega

/-- HSL's components of normalised inputs are those of the natural numbers. -/
theorem hslComponents_natCast (h' : Nat) {s' l' : Nat} (hs : s' ≤ 99) (hl : l' ≤ 99) :
    hslComponents h' s' l' = (((componentsNat h' s' l').1 : Int), ((componentsNat h' s' l').2.1 : Int),
      ((componentsNat h' s' l').2.2 : Int)) := by
  simp only [hslComponents, hslChroma_natCast s' (hl.trans (by omega)), hslSecond_natCast]
  simp only [hslSector_natCast, hslSelect_natCast, hslLift_natCast (chromaNat_le hs hl).1, componentsNat, Nat.cast_add]

/-- No component of normalised inputs leaves a byte: the chroma and the lift together do not (41_color_engine.md
R163). -/
theorem componentsNat_le (h' : Nat) {s' l' : Nat} (hs : s' ≤ 99) (hl : l' ≤ 99) :
    (componentsNat h' s' l').1 ≤ 255 ∧ (componentsNat h' s' l').2.1 ≤ 255 ∧ (componentsNat h' s' l').2.2 ≤ 255 := by
  obtain ⟨hlow, hhigh⟩ := chromaNat_le hs hl
  have hlift : chromaNat s' l' + liftNat l' (chromaNat s' l') ≤ 255 := by
    unfold liftNat
    omega
  obtain ⟨hr, hg, hb⟩ := selectNat_le (h' / 60) (secondNat_le (chromaNat s' l') h')
  simp only [componentsNat]
  omega

/-- Settles O38: the components are natural numbers (`hslComponents_natCast`) of at most 255 (`componentsNat_le`). -/
theorem hslComponentsFitByte : Obligations.HslComponentsFitByte := by
  intro h sat lum _ hs hl
  obtain ⟨hr, hg, hb⟩ := componentsNat_le h hs hl
  simp only [hslComponents_natCast h hs hl]
  omega

/-- The normalised saturation or luminosity as a natural number (41_color_engine.md R157). -/
theorem hslClamp_eq (v : Int) : hslClamp v = ((max 0 (min v 99)).toNat : Int) := by
  unfold hslClamp clamp
  split
  · omega
  · split <;> omega

/-- Settles O36: the normalised inputs are natural numbers, and so are the components packed. -/
theorem hslComputesPackedColor : Obligations.HslComputesPackedColor := by
  intro h sat lum s
  rw [exec_hsl, hslColor, hslHue, hslClamp_eq, hslClamp_eq, hslComponents_natCast _ (by omega) (by omega)]
  simp only [BitVec.ofInt_natCast]
  rfl

/-! ### HSL: normalisation and the corner cases -/

/-- A saturation or luminosity that is not positive acts as 0 (41_color_engine.md R157). -/
theorem hslClamp_of_nonpos {v : Int} (h : v ≤ 0) : hslClamp v = 0 := by
  rw [hslClamp_eq]
  omega

/-- A saturation or luminosity from 99 on acts as 99 (41_color_engine.md R157). -/
theorem hslClamp_of_ge {v : Int} (h : 99 ≤ v) : hslClamp v = 99 := by
  rw [hslClamp_eq]
  omega

/-- HSL sees its operands only normalised (41_color_engine.md R156, R157). -/
theorem exec_hsl_congr {h h₂ : Nat} {sat sat₂ lum lum₂ : Int} (hhue : hslHue h = hslHue h₂)
    (hsat : hslClamp sat = hslClamp sat₂) (hlum : hslClamp lum = hslClamp lum₂) (s : State) :
    exec (.hsl h sat lum) s = exec (.hsl h₂ sat₂ lum₂) s := by
  simp only [exec_hsl, hslColor, hhue, hsat, hlum]

/-- Settles O37: the two operands normalise to the same number (`exec_hsl_congr`). -/
theorem hslHueWrapsOthersClamp : Obligations.HslHueWrapsOthersClamp := by
  intro h sat lum s
  have hhue : hslHue (h + 360) = hslHue h := congrArg Nat.cast (Nat.add_mod_right h 360)
  have hlow : ∀ v < 0, hslClamp v = hslClamp 0 := fun v hv => hslClamp_of_nonpos hv.le
  have hhigh : ∀ v > 99, hslClamp v = hslClamp 99 := fun v hv => hslClamp_of_ge hv.le
  exact ⟨exec_hsl_congr hhue rfl rfl s, fun hv => exec_hsl_congr rfl (hlow sat hv) rfl s,
    fun hv => exec_hsl_congr rfl (hhigh sat hv) rfl s, fun hv => exec_hsl_congr rfl rfl (hlow lum hv) s,
    fun hv => exec_hsl_congr rfl rfl (hhigh lum hv) s⟩

/-- Without saturation there is no chroma (41_color_engine.md R158). -/
theorem hslChroma_of_sat_zero (l' : Int) : hslChroma 0 l' = 0 := by
  rw [hslChroma, Int.mul_zero]
  rfl

/-- Without luminosity there is no chroma (41_color_engine.md R158). -/
theorem hslChroma_of_lum_zero (s' : Int) : hslChroma s' 0 = 0 := by
  have hpeak : 100 - absInt (2 * 0 - 100) = 0 := rfl
  rw [hslChroma, hpeak, Int.zero_mul]
  rfl

/-- Without chroma there is no second component (41_color_engine.md R160). -/
theorem hslSecond_of_chroma_zero (h1 h2 : Int) : hslSecond 0 h1 h2 = 0 := by
  rw [hslSecond, Int.zero_mul]
  rfl

/-- Without chroma each component is the lift alone, whatever the sector. -/
theorem hslComponents_of_chroma_zero (h' : Int) {s' l' : Int} (hc : hslChroma s' l' = 0) :
    hslComponents h' s' l' = (hslLift l' 0, hslLift l' 0, hslLift l' 0) := by
  simp [hslComponents, hc, hslSecond_of_chroma_zero, hslSelect]

/-- Settles O39: either way there is no chroma, and without luminosity the lift is 0 too. -/
theorem hslGreyAndBlack : Obligations.HslGreyAndBlack := by
  intro h sat lum s
  refine ⟨fun hsat => ⟨BitVec.ofInt 8 (hslLift (hslClamp lum) 0), ?_⟩, fun hlum => ?_⟩
  · rw [exec_hsl, hslColor, hslClamp_of_nonpos hsat, hslComponents_of_chroma_zero _ (hslChroma_of_sat_zero _)]
    rfl
  · rw [exec_hsl, hslColor, hslClamp_of_nonpos hlum, hslComponents_of_chroma_zero _ (hslChroma_of_lum_zero _)]
    rfl

end Sys2Proof.Machine

/-! PROOFS. The statements of spec/42_motor_engine.md: the speed mapping (R190, R196), the motor commands on a bus that
answers well (R191 to R195), and what they leave alone on any bus. -/

namespace Sys2Proof.Machine

/-! ### From speed to duty -/

/-- Unit 1's duty is the speed times 16, saturated (42_motor_engine.md R190): below saturation a multiple of 16 is at
most 4080 in size, so that the model's test against 4096 is one against 4095. -/
theorem motorDuty_m1 (v : Int) : motorDuty .m1 v = max (-4095) (min (16 * v) 4095) := by
  simp only [motorDuty, effectiveSpeed]
  split_ifs <;> omega

/-- Unit 2 is mounted mirrored: it is driven at the opposite speed (42_motor_engine.md R190). -/
theorem motorDuty_m2 (v : Int) : motorDuty .m2 v = motorDuty .m1 (-v) := rfl

/-- Settles O40: the saturation is symmetric, so unit 2's opposite speed has the opposite duty. -/
theorem motorDutyMapping : Obligations.MotorDutyMapping := by
  intro v
  rw [motorDuty_m2, motorDuty_m1, motorDuty_m1]
  omega

/-! ### The motor commands on a bus that answers well -/

/-- Each unit has a forward and a reverse channel, and each gets a frame (42_motor_engine.md R190). -/
@[simp] theorem motorFrames_length (p : Params) (m : MotorUnit) (v : Int) : (motorFrames p m v).length = 2 := by
  unfold motorFrames
  split <;> rfl

section
variable {s : State} (hs : s.initialized = true)
include hs

/-- The work of a command on one motor of an initialised block with two good answers. -/
theorem setup_run_ok (h : AnswersOk 2 s) (cmd : Command) (m : MotorUnit) (v : Int) :
    endCommand ((uInit cmd s).andThen (uRun cmd m v)) = .next (framesSent (motorFrames s.params m v) s) := by
  have hok : AnswersOk (motorFrames s.params m v).length s := by rwa [motorFrames_length]
  rw [uInit_of_initialized _ hs, Flow.going_andThen, uRun_eq_sendFrames, sendFrames_ok _ _ hok]
  rfl

/-- The work of a command on both motors of an initialised block with four good answers. -/
theorem setup_bothRun_ok (h : AnswersOk 4 s) (cmd : Command) (v1 v2 : Int) :
    endCommand ((uInit cmd s).andThen fun t => (uRun cmd .m1 v1 t).andThen (uRun cmd .m2 v2))
      = .next (framesSent (motorFrames s.params .m1 v1 ++ motorFrames s.params .m2 v2) s) := by
  have hok : AnswersOk (motorFrames s.params .m1 v1 ++ motorFrames s.params .m2 v2).length s := by
    rwa [List.length_append, motorFrames_length, motorFrames_length]
  rw [uInit_of_initialized _ hs, Flow.going_andThen, bothRun_eq_sendFrames, sendFrames_ok _ _ hok]
  rfl

end

/-- Settles O41: RUN and STOP are `u_run` on the motor named, STOP at speed 0. -/
theorem runAndStopDriveUnit : Obligations.RunAndStopDriveUnit := fun v _ hs _ hok =>
  ⟨setup_run_ok hs hok _ .m1 v, setup_run_ok hs hok _ .m2 v,
    setup_run_ok hs hok _ .m1 0, setup_run_ok hs hok _ .m2 0⟩

/-- Settles O42: RUNDUAL, MOVE and STOPALL are `u_run` on unit 1 and then unit 2, MOVE at one speed, STOPALL at 0. -/
theorem dualCommandsDriveBothUnits : Obligations.DualCommandsDriveBothUnits := fun a b _ hs _ hok =>
  ⟨setup_bothRun_ok hs hok _ a b, setup_bothRun_ok hs hok _ a a, setup_bothRun_ok hs hok _ 0 0⟩

/-! ### What the motor commands leave alone -/

/-- A command that is none of the colour engine's leaves brightness, colours and `result` as they were. -/
theorem WrittenBy.keeps_colorSide {i : Instr} {s t : State} (h : WrittenBy i s t) (hbright : ∀ v, i ≠ .setbright v)
    (hone : ∀ unit color, i ≠ .setcolor unit color) (hall : ∀ color, i ≠ .setall color)
    (hrgb : ∀ r g b, i ≠ .rgb r g b) (hhsl : ∀ x sat lum, i ≠ .hsl x sat lum) :
    t.brightness = s.brightness ∧ t.ledColor = s.ledColor ∧ t.result = s.result := by
  refine ⟨?_, ledColor_eq_of_led fun u => ?_, ?_⟩
  · exact h.brightness.resolve_right fun ⟨v, e, _⟩ => hbright v e
  · exact (h.led u).resolve_right (not_or.mpr ⟨hone _ _, hall _⟩)
  · refine h.result.resolve_right (not_or.mpr ⟨?_, ?_⟩)
    · exact fun ⟨r, g, b, e⟩ => hrgb r g b e
    · exact fun ⟨x, sat, lum, e⟩ => hhsl x sat lum e

/-- Settles O47: no motor command is a writer of the colour side (`WrittenBy.keeps_colorSide`) or SETFREQ
(`exec_onlyChannels`); the host's side and the flag stay under every command. -/
theorem motorCommandsFrame : Obligations.MotorCommandsFrame := by
  intro i s t hi _ hx
  obtain ⟨hhost, hword⟩ := exec_leavesHostSide hx
  have hkeep : (t.brightness = s.brightness ∧ t.ledColor = s.ledColor ∧ t.result = s.result)
      ∧ ∀ hz, i ≠ .setfreq hz := by
    have hw := exec_writtenBy hx
    rcases hi with ⟨_, _, rfl⟩ | ⟨_, _, rfl⟩ | ⟨_, rfl⟩ | ⟨_, rfl⟩ | rfl <;>
      exact ⟨hw.keeps_colorSide nofun nofun nofun nofun nofun, nofun⟩
  obtain ⟨⟨hbright, hled, hresult⟩, hfreq⟩ := hkeep
  exact ⟨hbright, hled, hresult, hhost, hword, exec_keeps_initialized hx, fun hs => exec_onlyChannels hfreq hs hx⟩

end Sys2Proof.Machine

/-! PROOFS. The statements of spec/60_exceptions.md: each fault is raised for its reason and recorded with its word
(R221, R224), a bus failure is precise (R223), a faulted or idle block stays as it is (R225, R228), a good bus raises
nothing, and the sleep bit is left as read (R234). -/

namespace Sys2Proof.Machine

/-! ### Steps that change nothing -/

/-- Settles O9: the fault is looked at before any word (60_exceptions.md R225). -/
theorem faultedBlockAcceptsNothing : Obligations.FaultedBlockAcceptsNothing := by
  intro s hr hf
  simp [step, hr, Option.isSome_iff_ne_none.mpr hf]

/-- Settles O11: with no word at the cursor the block waits, faulted or not (60_exceptions.md R228). -/
theorem idleBlockWaits : Obligations.IdleBlockWaits := by
  intro s hr hw
  have hp : presentedWord s = none := hw
  simp [step, hr, hp]

/-- A run goes on from where its first step led. -/
theorem core_run_succ {s t : State} (h : step s = .next t) (n : Nat) : core.run (n + 1) s = core.run n t := by
  have h' : core.step s = .next t := h
  simp only [Host.Core.run, h']

/-- Settles O10, by induction on the number of steps: each is a step of the same faulted block (O9). -/
theorem faultedRunStaysPut : Obligations.FaultedRunStaysPut := by
  intro n s hr hf
  induction n with
  | zero => rfl
  | succ n ih => rw [core_run_succ (faultedBlockAcceptsNothing s hr hf), ih]

/-! ### Precise faults -/

/-- Without a recorded `BusError` a precise trace is one with no failed event. -/
theorem tracePrecise_iff_of_ne_busError {s : State} (h : s.fault ≠ some .busError) :
    TracePrecise s ↔ ∀ e ∈ s.trace, e.ok = true := by
  rcases s.trace.eq_nil_or_concat with htr | ⟨before, last, htr⟩
  · simp [TracePrecise, htr, h]
  · simp [TracePrecise, htr, h, or_imp, forall_and]

/-- With a recorded `BusError` a trace is precise when its last event alone has failed. -/
theorem tracePrecise_of_busError {s : State} {before : List Event} {last : Event} (hf : s.fault = some .busError)
    (htr : s.trace = before ++ [last]) (hbefore : ∀ e ∈ before, e.ok = true) (hlast : last.ok = false) :
    TracePrecise s := by
  simpa [TracePrecise, hf, htr, hlast] using hbefore

/-- A command begun on an unfaulted block keeps the trace precise: its own events end at the first failed one
(60_exceptions.md R223). -/
theorem exec_keeps_tracePrecise {i : Instr} {s t : State} (h : TracePrecise s) (hf : s.fault = none)
    (hx : exec i s = .next t) : TracePrecise t := by
  have hs : ∀ e ∈ s.trace, e.ok = true := (tracePrecise_iff_of_ne_busError (by simp [hf])).mp h
  obtain ⟨evs, htr, -, hfails, hok⟩ := busFailureStopsCommandThere i s t hf hx
  by_cases hb : t.fault = some .busError
  · obtain ⟨-, before, last, rfl, hlast, hbefore⟩ := hfails hb
    rw [← List.append_assoc] at htr
    exact tracePrecise_of_busError hb htr (List.forall_mem_append.mpr ⟨hs, hbefore⟩) hlast
  · rw [tracePrecise_iff_of_ne_busError hb, htr]
    exact List.forall_mem_append.mpr ⟨hs, hok hb⟩

/-- Settles O54: reset empties the trace, an illegal word sends nothing, a command ends at its failed transaction
(`exec_keeps_tracePrecise`). -/
theorem tracePreciseKept : Obligations.TracePreciseKept := by
  intro s t hs ht
  refine step_keeps (I := TracePrecise) (fun _ _ => ⟨nofun, nofun, nofun⟩) (fun s w e h hf _ => ?_) (fun s h => ?_)
    (fun _ _ _ _ h hf _ hx => exec_keeps_tracePrecise h hf hx) hs ht
  · rw [tracePrecise_iff_of_ne_busError (by simp)]
    exact (tracePrecise_iff_of_ne_busError (s := s) (by simp [hf])).mp h
  · rw [TracePrecise, advanceCursor_fault, advanceCursor_trace]
    exact h

/-! ### What is recorded -/

/-- What command `i`, begun at `s` with no fault recorded, has recorded at `t`: nothing, or its own word with a cause
that it can raise (60_exceptions.md R221, R224). -/
def FaultRecorded (i : Instr) (s t : State) : Prop :=
  (t.fault = none ∧ t.faultCmd = s.faultCmd)
  ∨ (t.fault = some .freqRange ∧ t.faultCmd = some (encode i) ∧ ∃ hz, i = .setfreq hz ∧ (hz < 24 ∨ 12207 < hz))
  ∨ (t.fault = some .busError ∧ t.faultCmd = some (encode i) ∧ runsSetup i = true)

namespace FaultRecorded
variable {i : Instr} {s t : State}

theorem refl (i : Instr) (h : s.fault = none) : FaultRecorded i s s := .inl ⟨h, rfl⟩

/-- Raising `BusError` records it, or leaves the fault recorded before (10_state.md R25). -/
theorem raiseFault_busError (h : FaultRecorded i s t) (hi : runsSetup i = true) :
    FaultRecorded i s (raiseFault .busError (encode i) t) := by
  cases hf : t.fault with
  | none => rw [raiseFault_of_noFault _ _ hf]; exact .inr (.inr ⟨rfl, rfl, hi⟩)
  | some cause => rw [raiseFault_of_faulted _ _ (by rw [hf]; rfl)]; exact h

/-- A command that uses the bus records nothing but a bus failure while it does so. -/
theorem closed (hi : runsSetup i = true) (s : State) : Closed (encode i) (FaultRecorded i s) where
  write _ _ _ _ h := h
  read _ _ _ h := h
  frame _ _ _ h := h
  wait _ h := h
  ticks _ _ _ _ h := h
  initialized _ h := h
  fault _ h := h.raiseFault_busError hi

/-- The word recorded raises the cause recorded: the invariant of 60_exceptions.md R221. -/
theorem faultRecordFits (h : FaultRecorded i s t) (hd : decode (encode i) = .instr i) (hs : s.faultCmd = none) :
    FaultRecordFits t := by
  unfold FaultRecordFits
  rcases h with ⟨hf, hcmd⟩ | ⟨hf, hcmd, hz, rfl, hrange⟩ | ⟨hf, hcmd, hi⟩ <;> rw [hf, hcmd]
  · rw [hs]; rfl
  · simpa [causeFits, hd] using hrange
  · simpa [causeFits, hd] using hi

end FaultRecorded

/-- Every command of an unfaulted block records a fault as `FaultRecorded` says. -/
theorem exec_faultRecorded {i : Instr} {s t : State} (hf : s.fault = none) (hx : exec i s = .next t) :
    FaultRecorded i s t := by
  have h : FaultRecorded i s s := .refl i hf
  refine exec_keeps (B := fun u => FaultRecorded i s u ∧ u.params = s.params)
    (G := fun u => FaultRecorded i s u ∧ u.params = s.params) hx ⟨h, rfl⟩ (fun _ h => h.1) (fun _ h => h.1)
    (fun hi => (FaultRecorded.closed hi s).busSat (fun _ _ _ _ h => h) (fun _ _ _ h => h)) (fun hz hi hout => ?_)
    (fun _ _ _ _ _ => ⟨h, rfl⟩) (fun _ _ _ _ _ => ⟨h, rfl⟩)
  rw [raiseFault_of_noFault _ _ hf]
  exact .inr (.inl ⟨rfl, rfl, hz, hi, freqOutOfRange_eq_true.mp hout⟩)

/-- Without a fault recorded, `fault_cmd` fits exactly when it is unknown (10_state.md R25). -/
theorem faultRecordFits_iff_of_noFault {s : State} (hf : s.fault = none) :
    FaultRecordFits s ↔ s.faultCmd = none := by
  rw [FaultRecordFits, hf]
  cases s.faultCmd <;> simp [causeFits]

/-- A recorded word decodes to the command that recorded it. -/
theorem decode_encode_of_decode {w : Command} {i : Instr} (hd : decode w = .instr i) :
    decode (encode i) = .instr i := by
  rw [(encodeOfDecode w i hd).2, hd]

/-- Settles O56: reset forgets the fault, an illegal word records itself, a command records its own encoding, which
decodes to it (`FaultRecorded.faultRecordFits`). -/
theorem faultRecordFitsKept : Obligations.FaultRecordFitsKept := by
  intro s t hs ht
  refine step_keeps (I := FaultRecordFits) (fun _ _ => rfl) (fun s w e _ _ hd => ?_) (fun s h => ?_)
    (fun w i s t h hf hd hx => ?_) hs ht
  · simp [FaultRecordFits, causeFits, hd]
  · rw [FaultRecordFits, advanceCursor_fault, advanceCursor_faultCmd]; exact h
  · exact (exec_faultRecorded hf hx).faultRecordFits (decode_encode_of_decode hd)
      ((faultRecordFits_iff_of_noFault hf).mp h)

/-! ### Each fault for its reason -/

/-- No command records `IllegalCommand`. -/
theorem exec_fault_ne_illegalCommand {i : Instr} {s t : State} (hf : s.fault = none) (hx : exec i s = .next t) :
    t.fault ≠ some .illegalCommand := by
  rcases exec_faultRecorded hf hx with ⟨h, -⟩ | ⟨h, -⟩ | ⟨h, -⟩ <;> simp [h]

/-- `FreqRange` is recorded exactly by a SETFREQ out of range (40_pwm_driver.md R128). -/
theorem exec_freqRange_iff {i : Instr} {s t : State} (hf : s.fault = none) (hx : exec i s = .next t) :
    t.fault = some .freqRange ↔ ∃ hz, i = .setfreq hz ∧ (hz < 24 ∨ 12207 < hz) := by
  constructor
  · intro ht
    rcases exec_faultRecorded hf hx with ⟨h, -⟩ | ⟨-, -, hi⟩ | ⟨h, -⟩
    · simp [h] at ht
    · exact hi
    · simp [h] at ht
  · rintro ⟨hz, rfl, hout⟩
    rw [setfreqOutOfRangeFaults hz s hout hf] at hx
    injection hx with hx
    rw [← hx]

/-- `BusError` is recorded exactly when one of the command's own events failed (60_exceptions.md R223). -/
theorem exec_busError_iff {i : Instr} {s t : State} (hf : s.fault = none) (hx : exec i s = .next t) :
    t.fault = some .busError ↔ ∃ e ∈ t.trace.drop s.trace.length, e.ok = false := by
  obtain ⟨evs, htr, -, hfails, hok⟩ := busFailureStopsCommandThere i s t hf hx
  rw [htr, List.drop_left]
  constructor
  · intro hb
    obtain ⟨-, before, last, rfl, hlast, -⟩ := hfails hb
    exact ⟨last, by simp, hlast⟩
  · rintro ⟨e, he, hbad⟩
    by_contra hb
    simp [hok hb e he] at hbad

/-- A fault is recorded with the word of the command that raised it (60_exceptions.md R224). -/
theorem exec_faultCmd_of_fault {i : Instr} {s t : State} (hf : s.fault = none) (hx : exec i s = .next t)
    (ht : t.fault ≠ none) : t.faultCmd = some (encode i) := by
  rcases exec_faultRecorded hf hx with ⟨h, -⟩ | ⟨-, h, -⟩ | ⟨-, h, -⟩
  · exact absurd h ht
  · exact h
  · exact h

/-- Settles O15: an illegal word records itself and sends nothing; of a command each clause is a lemma above, and the
cursor moves past a command that raised nothing. -/
theorem faultRaisedOnlyForItsReason : Obligations.FaultRaisedOnlyForItsReason := by
  intro s t w hr hf hw ht
  cases hd : decode w with
  | illegal e =>
    rw [illegalWordOnlyRecordsFault s w e hr hf hw hd] at ht
    injection ht with ht
    subst ht
    simp
  | instr i =>
    obtain ⟨u, hx⟩ := exec_next i s
    rw [step_of_presented_instr hr hf hw hd hx] at ht
    injection ht with ht
    subst ht
    have hword : encode i = w := (encodeOfDecode w i hd).2
    obtain ⟨⟨-, hcursor, -⟩, hcmd⟩ := exec_leavesHostSide hx
    simp only [advanceCursor_fault, advanceCursor_faultCmd, advanceCursor_trace, Decoded.instr.injEq]
    refine ⟨?_, exec_freqRange_iff hf hx, exec_busError_iff hf hx, fun h => ⟨?_, ?_⟩, fun h => ⟨hcmd h, ?_⟩⟩
    · simp [exec_fault_ne_illegalCommand hf hx]
    · rw [← hword]; exact exec_faultCmd_of_fault hf hx h
    · rw [advanceCursor_of_faulted (Option.isSome_iff_ne_none.mpr h), hcursor]
    · rw [advanceCursor_of_noFault h, ← hcursor]

/-! ### What a command costs on the bus -/

/-- A command that does not run the set-up, and is no SETFREQ out of range, costs nothing and goes through. -/
theorem exec_costs_of_not_runsSetup {i : Instr} (hi : runsSetup i = false)
    (hfreq : ∀ hz, i = .setfreq hz → 24 ≤ hz ∧ hz ≤ 12207) (s : State) :
    ∃ f, exec i s = endCommand f ∧ f.Costs 0 0 s := by
  have hfree : ∀ t : State, t.trace = s.trace → t.fault = s.fault → (∀ k, answerAt t k = answerAt s k) →
      (Flow.going t).Costs 0 0 s := fun t => Flow.Costs.refl
  obtain ⟨f, hx, hf⟩ := exec_sat (B := fun t => (Flow.going t).Costs 0 0 s) (G := fun _ => False)
    (S := fun _ => False) i (hfree s rfl rfl fun _ => rfl) (fun h => by simp [hi] at h)
    (fun hz e hout => by simp [freqOutOfRange_eq_false.mpr (hfreq hz e)] at hout)
    (fun _ _ _ c _ => hfree (setResult c s) rfl rfl fun _ => rfl)
    (fun _ _ _ c _ => hfree (setResult c s) rfl rfl fun _ => rfl)
  refine ⟨f, hx, ?_⟩
  cases f with
  | going t => exact hf.resolve_right id
  | stopped t => exact hf.elim

/-- The work on both motors is four frames. -/
theorem bothRun_costs (cmd : Command) (v1 v2 : Int) (s : State) :
    ((uRun cmd .m1 v1 s).andThen (uRun cmd .m2 v2)).Costs 4 0 s :=
  (uRun_costs cmd .m1 v1 s).andThen fun t _ => uRun_costs cmd .m2 v2 t

/-- A command that runs the set-up is the set-up and then work of the cost that 70_reset_and_hazards.md R265 gives
the command. -/
theorem exec_eq_setup_then_costs {i : Instr} (hi : runsSetup i = true) :
    ∃ work : State → Flow, (∀ s, exec i s = endCommand ((uInit (encode i) s).andThen work))
      ∧ ∀ s, (work s).Costs (busCost i) (delayCost i) s := by
  unfold busCost
  rw [if_pos hi]
  cases i with
  | init =>
    refine ⟨Flow.going, fun s => ?_, fun s => Flow.Costs.refl rfl rfl fun _ => rfl⟩
    simp only [exec, execInit]
    cases uInit (encode .init) s <;> rfl
  | setfreq hz =>
    have h : freqOutOfRange hz = false := freqOutOfRange_eq_false.mpr (by simpa [runsSetup] using hi)
    refine ⟨_, fun s => by simp only [exec, execSetfreq, h]; rfl, fun s => ?_⟩
    rw [delayCost, if_pos hi]
    exact uSetfreq_costs _ hz s
  | setch ch on off =>
    have h : ¬ch > 15 := by simpa [runsSetup] using hi
    exact ⟨_, fun s => by simp only [exec, execSetch, if_neg h]; rfl,
      uSetch_costs _ ⟨ch, Nat.lt_succ_of_le (Nat.not_lt.mp h)⟩ on off⟩
  | setcolor unit color =>
    simp only [runsSetup, Bool.and_eq_true, decide_eq_true_eq] at hi
    obtain ⟨u, h⟩ := ledUnit?_isSome hi.1 hi.2
    exact ⟨_, fun s => by simp only [exec, execSetcolor, h]; rfl, storeAndApply_costs _ color u⟩
  | setall color => exact ⟨_, fun _ => rfl, forEach_costs (storeAndApply_costs _ color) allLedUnits⟩
  | setbright v =>
    refine ⟨_, fun _ => rfl, fun s => ?_⟩
    have h := forEach_costs (uApply_costs (encode (.setbright v))) allLedUnits (setBrightness (brightnessOf v) s)
    exact ⟨h.going_of_ok, h.of_going, h.of_stopped⟩
  | rgb r g b => cases hi
  | hsl h sat lum => cases hi
  | run motor speed =>
    simp only [runsSetup, Bool.and_eq_true, decide_eq_true_eq] at hi
    obtain ⟨m, h⟩ := motorUnit?_isSome hi.1 hi.2
    exact ⟨_, fun s => by simp only [exec, execRun, h]; rfl, uRun_costs _ m speed⟩
  | rundual a b => exact ⟨_, fun _ => rfl, bothRun_costs _ a b⟩
  | move v => exact ⟨_, fun _ => rfl, bothRun_costs _ v v⟩
  | stop motor =>
    simp only [runsSetup, Bool.and_eq_true, decide_eq_true_eq] at hi
    obtain ⟨m, h⟩ := motorUnit?_isSome hi.1 hi.2
    exact ⟨_, fun s => by simp only [exec, execStop, h]; rfl, uRun_costs _ m 0⟩
  | stopall => exact ⟨_, fun _ => rfl, bothRun_costs _ 0 0⟩

/-- What every command but a SETFREQ out of range costs: its own work, and the set-up where that is due
(70_reset_and_hazards.md R265). -/
theorem exec_costs {i : Instr} (hfreq : ∀ hz, i = .setfreq hz → 24 ≤ hz ∧ hz ≤ 12207) (s : State) :
    ∃ f, exec i s = endCommand f
      ∧ f.Costs (busCost i + if runsSetup i = true ∧ s.initialized = false then 22 else 0)
        (delayCost i + if runsSetup i = true ∧ s.initialized = false then 1 else 0) s := by
  cases hi : runsSetup i with
  | false =>
    have hbus : busCost i = 0 := by simp [busCost, hi]
    have hdelay : delayCost i = 0 := by unfold delayCost; split <;> simp [hi]
    simpa [hbus, hdelay] using exec_costs_of_not_runsSetup hi hfreq s
  | true =>
    obtain ⟨work, hx, hwork⟩ := exec_eq_setup_then_costs hi
    have h := (uInit_costs (encode i) s).andThen fun t _ => hwork t
    refine ⟨_, hx s, ?_⟩
    cases hs : s.initialized <;> simpa [hs, Nat.add_comm] using h

/-- Settles O17: a command whose transactions are all answered ok goes through (`exec_costs`), and what goes through
has raised nothing. -/
theorem goodBusMeansNoFault : Obligations.GoodBusMeansNoFault := by
  intro i s hf hfreq hok
  obtain ⟨f, hx, hcosts⟩ := exec_costs hfreq s
  obtain ⟨t, rfl⟩ := hcosts.going_of_ok hok
  obtain ⟨-, -, hfault, -⟩ := hcosts.of_going t rfl
  exact ⟨t, hx, hfault.trans hf⟩

/-! ### The sleep bit -/

theorem modeWrites_append (p : Params) (a b : List Event) :
    modeWrites p (a ++ b) = modeWrites p a ++ modeWrites p b := by
  simp [modeWrites]

/-- The sequence of 40_pwm_driver.md R124 writes the mode register three times: asleep, restored, awake. -/
theorem modeWrites_setfreqEvents {p : Params} (hp : p.valid = true) (old : Byte) (hz : Nat) :
    modeWrites p (setfreqEvents p old hz)
      = [(old &&& p.sleepKeepMask) ||| p.sleepMask, old, old ||| p.wakeMask] := by
  obtain ⟨-, -, -, hne, -⟩ := (valid_iff p).mp hp
  simp [modeWrites, setfreqEvents, hne.symm]

/-- Frames are no writes to the mode register. -/
theorem modeWrites_frames (p : Params) (fs : List Frame) : modeWrites p (fs.map (frameEvent p true)) = [] := by
  simp [modeWrites, frameEvent]

/-- The set-up writes the mode register's reset value and then runs the sequence (40_pwm_driver.md R126). -/
theorem modeWrites_initEvents {p : Params} (hp : p.valid = true) (old : Byte) :
    modeWrites p (initEvents p old)
      = [p.modeResetValue, (old &&& p.sleepKeepMask) ||| p.sleepMask, old, old ||| p.wakeMask] := by
  have hfirst : modeWrites p [.write p.chipAddr p.modeReg p.modeResetValue true] = [p.modeResetValue] := by
    simp [modeWrites]
  rw [initEvents, ← List.singleton_append, modeWrites_append, modeWrites_append, hfirst,
    modeWrites_setfreqEvents hp, modeWrites_frames]
  rfl

/-- A byte with the bits of a mask set has them all. -/
theorem or_mask_and_mask (x mask : Byte) : (x ||| mask) &&& mask = mask := by
  ext k hk
  simpa using Or.inr

/-- Setting bits outside a mask leaves the bits under the mask. -/
theorem or_and_mask_of_disjoint {w mask : Byte} (h : w &&& mask = 0#8) (x : Byte) :
    (x ||| w) &&& mask = x &&& mask := by
  rw [BitVec.and_or_distrib_right, h, BitVec.or_zero]

/-- Settles O28: the mode writes of both commands are those of the sequence, whose first sets the sleep bits and whose
others carry the byte read, the last with wake bits apart from the sleep bits. -/
theorem sleepBitLeftAsRead : Obligations.SleepBitLeftAsRead := by
  intro s hp hwake hf
  refine ⟨fun hz hlo hhi hs hok => ?_, fun hs hok => ?_⟩
  · exact ⟨_, _, _, _, _, _, setfreqRunsSequence hz s hlo hhi hs hf hok, rfl, by simp [setfreqEvents],
      modeWrites_setfreqEvents hp _ hz, or_mask_and_mask _ _, rfl, or_and_mask_of_disjoint hwake _⟩
  · exact ⟨_, _, _, _, _, _, initProgramsWholeChip s hs hf hok, rfl, by simp [initEvents, setfreqEvents],
      modeWrites_initEvents hp _, or_mask_and_mask _ _, rfl, or_and_mask_of_disjoint hwake _⟩

end Sys2Proof.Machine

/-! PROOFS. The statements of spec/70_reset_and_hazards.md: reset (R250), the prescaler is written only while asleep
(R256), no stale motor duty (R260), and what a command costs on the bus (R265). -/

namespace Sys2Proof.Machine

/-! ### The prescaler and the sleep bit -/

/-- Events that are guarded after one that did not set the sleep bit are guarded after any event. -/
theorem prescaleGuarded_of_awake {p : Params} {evs : List Event} (h : prescaleGuarded p false evs = true)
    (asleep : Bool) : prescaleGuarded p asleep evs = true := by
  cases evs with
  | nil => rfl
  | cons e rest =>
    simp only [prescaleGuarded, Bool.and_eq_true, Bool.or_eq_true] at h ⊢
    exact ⟨h.1.imp_right nofun, h.2⟩

/-- A guarded trace goes on with events that are guarded by themselves (70_reset_and_hazards.md R256). -/
theorem prescaleGuarded_append {p : Params} {tr evs : List Event} {asleep : Bool}
    (htr : prescaleGuarded p asleep tr = true) (hevs : prescaleGuarded p false evs = true) :
    prescaleGuarded p asleep (tr ++ evs) = true := by
  induction tr generalizing asleep with
  | nil => exact prescaleGuarded_of_awake hevs asleep
  | cons e rest ih =>
    rw [List.cons_append, prescaleGuarded, Bool.and_eq_true]
    rw [prescaleGuarded, Bool.and_eq_true] at htr
    exact ⟨htr.1, ih htr.2⟩

/-- An event that does not write the prescale register is guarded by itself. -/
theorem prescaleGuarded_singleton {p : Params} {e : Event} (h : e.writesPrescale p = false) :
    prescaleGuarded p false [e] = true := by
  simp [prescaleGuarded, h]

/-- The sequence of 40_pwm_driver.md R124 sets the sleep bits in the write before the prescale. -/
theorem prescaleGuarded_setfreqEvents {p : Params} (hp : p.valid = true) (old : Byte) (hz : Nat) :
    prescaleGuarded p false (setfreqEvents p old hz) = true := by
  obtain ⟨-, -, -, hne, -⟩ := (valid_iff p).mp hp
  simp [prescaleGuarded, setfreqEvents, Event.writesPrescale, Event.setsSleep, hne, or_mask_and_mask]

/-- A sequence whose transaction failed ends there: the prescale is tried only after the sleep write succeeded. -/
theorem prescaleGuarded_setfreqCut {p : Params} (hp : p.valid = true) (old : Byte) (hz n : Nat) :
    prescaleGuarded p false (setfreqCut p old hz n) = true := by
  obtain ⟨-, -, -, hne, -⟩ := (valid_iff p).mp hp
  unfold setfreqCut
  split <;>
    simp [prescaleGuarded, setfreqEvents, Event.writesPrescale, Event.setsSleep, hne, or_mask_and_mask]

/-- The block has the parameters `p` and its trace writes the prescaler only directly after the sleep bit was set. -/
def Guarded (p : Params) (s : State) : Prop := s.params = p ∧ prescaleGuarded p false s.trace = true

namespace Guarded
variable {p : Params} {s t : State}

/-- More events that are guarded by themselves. -/
theorem append (h : Guarded p s) {evs : List Event} (hp : t.params = s.params) (htr : t.trace = s.trace ++ evs)
    (hevs : prescaleGuarded p false evs = true) : Guarded p t :=
  ⟨hp.trans h.1, htr ▸ prescaleGuarded_append h.2 hevs⟩

/-- Only the parameters and the trace are spoken of. -/
theorem congr (h : Guarded p s) (hp : t.params = s.params) (htr : t.trace = s.trace) : Guarded p t :=
  h.append (evs := []) hp (by simpa using htr) rfl

theorem raiseFault (h : Guarded p s) (cause : FaultCause) (cmd : Command) : Guarded p (raiseFault cause cmd s) :=
  h.congr (by simp) (by simp)

/-- A transaction that does not write the prescale register, whether it succeeds or fails. -/
theorem transaction_sat (h : Guarded p s) (cmd : Command) (ok : Bool) {e : Event} (he : e.writesPrescale p = false) :
    (checkStatus cmd ok (emit e (takeAnswers 1 s))).sat (Guarded p) (Guarded p) := by
  have hsent : Guarded p (emit e (takeAnswers 1 s)) := h.append rfl rfl (prescaleGuarded_singleton he)
  cases ok with
  | true => exact hsent
  | false => exact hsent.raiseFault _ _

/-- Under 00_scope.md R7 (b) the mode register is not the prescale register. -/
theorem memWrite1_modeReg_sat (hp : p.valid = true) (h : Guarded p s) (cmd : Command) (v : Byte) :
    (memWrite1 cmd s.params.modeReg v s).sat (Guarded p) (Guarded p) := by
  obtain ⟨-, -, -, hne, -⟩ := (valid_iff p).mp hp
  refine h.transaction_sat cmd _ ?_
  simpa [Event.writesPrescale, h.1] using hne

theorem uSetfreq_sat (hp : p.valid = true) (h : Guarded p s) (cmd : Command) (hz : Nat) :
    (uSetfreq cmd hz s).sat (Guarded p) (Guarded p) := by
  rcases uSetfreq_cases cmd hz s with ⟨_, e⟩ | ⟨n, _, _, e⟩ <;> rw [e]
  · exact h.append rfl rfl (h.1 ▸ prescaleGuarded_setfreqEvents (h.1 ▸ hp) _ hz)
  · refine Guarded.raiseFault ?_ _ _
    exact h.append rfl rfl (h.1 ▸ prescaleGuarded_setfreqCut (h.1 ▸ hp) _ hz n)

/-- A frame is no write to the prescale register (20_memory.md R52). -/
theorem uSetch_sat (h : Guarded p s) (cmd : Command) (c : Fin 16) (on off : Tick) :
    (uSetch cmd c on off s).sat (Guarded p) (Guarded p) := by
  rw [uSetch, dif_pos c.isLt]
  exact Flow.andThen_sat (h.transaction_sat cmd _ rfl) fun _ hu => hu.congr rfl rfl

/-- The bus work of every command keeps the trace guarded. -/
theorem busSat (hp : p.valid = true) (i : Instr) : BusSat i p (Guarded p) (Guarded p) (Guarded p) where
  params _ h := h.1
  init := uInit_sat (fun _ h => h.memWrite1_modeReg_sat hp _ _) (fun _ h => h.uSetfreq_sat hp _ _)
    (fun c on off _ h => h.uSetch_sat _ c on off) fun _ h => h.congr rfl rfl
  freq hz _ _ _ h := h.uSetfreq_sat hp _ hz
  frame c on off _ _ h := h.uSetch_sat _ c on off
  led _ _ _ _ h := h.congr rfl rfl
  bright _ _ _ h := h.congr rfl rfl

end Guarded

/-- Every command keeps the trace guarded. -/
theorem exec_keeps_guarded {p : Params} (hp : p.valid = true) {i : Instr} {s t : State} (h : Guarded p s)
    (hx : exec i s = .next t) : Guarded p t :=
  exec_keeps hx h (fun _ h => h) (fun _ h => h) (fun _ => h.1 ▸ Guarded.busSat hp i) (fun _ _ _ => h.raiseFault _ _)
    (fun _ _ _ _ _ => h.congr rfl rfl) (fun _ _ _ _ _ => h.congr rfl rfl)

/-- Settles O53: reset empties the trace, an illegal word sends nothing, and of a command's operations only the
sequence of 40_pwm_driver.md R124 writes the prescaler (`Guarded.uSetfreq_sat`). -/
theorem prescaleOnlyAsleepKept : Obligations.PrescaleOnlyAsleepKept := by
  intro s t hp hs ht
  have hkept : Guarded s.params t :=
    step_keeps (fun _ h => ⟨h.1, rfl⟩) (fun _ _ _ h _ _ => h.congr rfl rfl)
      (fun _ h => h.congr (by simp) (by simp)) (fun _ _ _ _ h _ _ hx => exec_keeps_guarded hp h hx) ⟨rfl, hs⟩ ht
  obtain ⟨hparams, hguarded⟩ := hkept
  rw [PrescaleOnlyAsleep, hparams]
  exact hguarded

/-! ### No stale motor duty -/

/-- A list of frames that ended without a fault was sent whole. -/
theorem eq_framesSent_of_noFault {cmd : Command} {fs : List Frame} {s t : State}
    (hx : (sendFrames cmd fs s).state = t) (ht : t.fault = none) : t = framesSent fs s := by
  rcases sendFrames_cases cmd fs s with ⟨_, h⟩ | ⟨pre, f, _, _, _, _, h⟩ <;> (rw [h] at hx; subst hx)
  · rfl
  · exact absurd ht (raiseFault_fault_ne_none _ _ _)

/-- The set-up and then a list of frames, ended without a fault: the frames were all sent, on the block as it was or
as the set-up left it. -/
theorem exists_framesSent_of_setup_noFault {cmd : Command} {fs : List Frame} {work : State → Flow} {s t : State}
    (hwork : ∀ u, u.params = s.params → work u = sendFrames cmd fs u)
    (hx : endCommand ((uInit cmd s).andThen work) = .next t) (ht : t.fault = none) : ∃ u, t = framesSent fs u := by
  rw [endCommand_eq_next] at hx
  rcases uInit_cases cmd s with ⟨_, h⟩ | ⟨_, _, h⟩ | ⟨_, _, h, _, v, rfl, _⟩ <;> rw [h] at hx
  · rw [Flow.going_andThen, hwork s rfl] at hx
    exact ⟨s, eq_framesSent_of_noFault hx ht⟩
  · rw [Flow.going_andThen, hwork (setupDone s) rfl] at hx
    exact ⟨setupDone s, eq_framesSent_of_noFault hx ht⟩
  · subst hx
    exact absurd ht (raiseFault_fault_ne_none _ _ v)

/-- A unit's two frames: on-tick 0 on both channels, duty 0 on one of them (42_motor_engine.md R190). -/
theorem motorFrames_eq (p : Params) (m : MotorUnit) (v : Int) : ∃ forward reverse : Tick,
    motorFrames p m v = [⟨(p.motor m).forward, 0#12, forward⟩, ⟨(p.motor m).reverse, 0#12, reverse⟩]
    ∧ (forward = 0#12 ∨ reverse = 0#12) := by
  unfold motorFrames
  split
  · exact ⟨_, _, rfl, .inr rfl⟩
  · exact ⟨_, _, rfl, .inl rfl⟩

/-- A unit's frames go to its forward and its reverse channel, in this order (42_motor_engine.md R190). -/
theorem motorFrames_map_ch (p : Params) (m : MotorUnit) (v : Int) :
    (motorFrames p m v).map Frame.ch = [(p.motor m).forward, (p.motor m).reverse] := by
  obtain ⟨_, _, h, _⟩ := motorFrames_eq p m v
  rw [h]
  rfl

/-- Under 00_scope.md R7 (e) a unit's two frames go to distinct channels. -/
theorem motorFrames_channels_nodup {p : Params} (hp : p.valid = true) (m : MotorUnit) (v : Int) :
    ((motorFrames p m v).map Frame.ch).Nodup := by
  rw [motorFrames_map_ch]
  simpa using motor_channels_ne hp m

/-- Under 00_scope.md R7 (e) the four frames of both units go to distinct channels. -/
theorem bothMotorFrames_channels_nodup {p : Params} (hp : p.valid = true) (v1 v2 : Int) :
    ((motorFrames p .m1 v1 ++ motorFrames p .m2 v2).map Frame.ch).Nodup := by
  obtain ⟨-, -, -, -, -, -, hchannels⟩ := (valid_iff p).mp hp
  rw [List.map_append, motorFrames_map_ch, motorFrames_map_ch]
  exact hchannels.sublist (List.take_sublist 4 p.channels)

/-- One of the unit's channels holds duty 0, and both hold on-tick 0 (70_reset_and_hazards.md R260). -/
def NoStaleDuty (ch : MotorChannels) (t : State) : Prop :=
  (t.chOff[ch.forward] = some 0#12 ∨ t.chOff[ch.reverse] = some 0#12)
  ∧ t.chOn[ch.forward] = some 0#12 ∧ t.chOn[ch.reverse] = some 0#12

/-- Frames to distinct channels, a unit's two among them, leave the unit without a stale duty. -/
theorem noStaleDuty_framesSent {p : Params} {m : MotorUnit} {v : Int} {fs : List Frame}
    (hfs : (fs.map Frame.ch).Nodup) (hmem : motorFrames p m v ⊆ fs) (u : State) :
    NoStaleDuty (p.motor m) (framesSent fs u) := by
  obtain ⟨forward, reverse, heq, hzero⟩ := motorFrames_eq p m v
  simp only [heq, List.cons_subset, List.nil_subset, and_true] at hmem
  obtain ⟨hon, hoff⟩ := framesSent_ticks_of_mem hfs hmem.1 u
  obtain ⟨hon', hoff'⟩ := framesSent_ticks_of_mem hfs hmem.2 u
  refine ⟨hzero.imp ?_ ?_, hon, hon'⟩
  · rintro rfl; exact hoff
  · rintro rfl; exact hoff'

section
variable {s t : State} (hp : s.params.valid = true) (ht : t.fault = none)
include hp ht

/-- The work of a command on one motor, ended without a fault. -/
theorem setup_run_noStaleDuty {cmd : Command} (m : MotorUnit) (v : Int)
    (hx : endCommand ((uInit cmd s).andThen (uRun cmd m v)) = .next t) : NoStaleDuty (s.params.motor m) t := by
  obtain ⟨u, rfl⟩ := exists_framesSent_of_setup_noFault
    (fun u hu => hu ▸ uRun_eq_sendFrames cmd m v u) hx ht
  exact noStaleDuty_framesSent (motorFrames_channels_nodup hp m v) (List.Subset.refl _) u

/-- The work of a command on both motors, ended without a fault. -/
theorem setup_bothRun_noStaleDuty {cmd : Command} (v1 v2 : Int)
    (hx : endCommand ((uInit cmd s).andThen fun u => (uRun cmd .m1 v1 u).andThen (uRun cmd .m2 v2)) = .next t) :
    NoStaleDuty s.params.motor1 t ∧ NoStaleDuty s.params.motor2 t := by
  obtain ⟨u, rfl⟩ := exists_framesSent_of_setup_noFault
    (fun u hu => hu ▸ bothRun_eq_sendFrames cmd v1 v2 u) hx ht
  have hfs := bothMotorFrames_channels_nodup hp v1 v2
  exact ⟨noStaleDuty_framesSent (m := .m1) hfs (List.subset_append_left _ _) u,
    noStaleDuty_framesSent (m := .m2) hfs (List.subset_append_right _ _) u⟩

end

/-- Settles O44: a command that ended without a fault sent both frames of each unit it drives, one of them with duty
0 (`motorFrames_eq`), and no other frame went to their channels. -/
theorem noStaleMotorDuty : Obligations.NoStaleMotorDuty := by
  intro s t hp _ ht
  refine ⟨fun v hx => ?_, fun v hx => ?_, fun a b hx => ?_⟩
  · rcases hx with hx | hx
    · exact setup_run_noStaleDuty hp ht .m1 v hx
    · exact setup_run_noStaleDuty hp ht .m1 0 hx
  · rcases hx with hx | hx
    · exact setup_run_noStaleDuty hp ht .m2 v hx
    · exact setup_run_noStaleDuty hp ht .m2 0 hx
  · have hboth : NoStaleDuty s.params.motor1 t ∧ NoStaleDuty s.params.motor2 t := by
      rcases hx with hx | hx | hx
      · exact setup_bothRun_noStaleDuty hp ht a b hx
      · exact setup_bothRun_noStaleDuty hp ht a a hx
      · exact setup_bothRun_noStaleDuty hp ht 0 0 hx
    obtain ⟨⟨hoff1, -⟩, ⟨hoff2, -⟩⟩ := hboth
    exact ⟨hoff1, hoff2⟩

/-! ### Costs -/

/-- Settles O48: a SETFREQ out of range ends with a fault (`exec_freqRange_iff`), and every other command that ended
without one went through at its cost (`exec_costs`). -/
theorem commandCosts : Obligations.CommandCosts := by
  intro i s t hf hx ht
  have hfreq : ∀ hz, i = .setfreq hz → 24 ≤ hz ∧ hz ≤ 12207 := by
    intro hz hi
    by_contra hout
    have hraised : t.fault = some .freqRange := (exec_freqRange_iff hf hx).mpr ⟨hz, hi, by omega⟩
    simp [ht] at hraised
  obtain ⟨f, hexec, hcosts⟩ := exec_costs hfreq s
  rw [hexec, endCommand_eq_next] at hx
  obtain ⟨htrans, hdelay, -⟩ := hcosts.of_going t (hcosts.eq_going hx ht)
  exact ⟨by rw [htrans, Nat.add_assoc], by rw [hdelay, Nat.add_assoc]⟩

/-! ### Reset -/

/-- Settles O12: the step is the reset (`step_of_reset`), which gives the block's registers the values they hold right
after reset (O13) and keeps the parameters. -/
theorem resetRestoresBlockState : Obligations.ResetRestoresBlockState := by
  intro s hr
  obtain ⟨hinit, hbright, hled, hticks, hresult, hfault, hcmd, htrace⟩ := stateAfterReset
  exact ⟨hostReset s, step_of_reset hr, hinit, hbright, hled, hticks, hresult, hfault, hcmd, htrace, rfl⟩

end Sys2Proof.Machine
